-- ==== Sys2Proof/Word.lean ====
section
/-! DEFINITION. The widths of the block: 32-bit port and row words (R4, R76), 24-bit pixels (R72), 8-bit
channels and thresholds (R4, R73), 6-bit rotation ROM entries (R74), and the image of 64 pixels (R22). -/

namespace Sys2Proof

/-- A 32-bit word of the command port, the response port, the shade store or the queue (R4, R76). -/
abbrev Word := BitVec 32

/-- A pixel word: R in bits 23:16, G in bits 15:8, B in bits 7:0 (R72). -/
abbrev Pixel := BitVec 24

/-- One colour channel, or one threshold ROM entry: 8 bits, unsigned (R4, R73). -/
abbrev Chan := BitVec 8

/-- 64 pixels, indexed by source cell `8*row + col` (R22, R51). -/
abbrev Image := Vector Pixel 64

/-- One page of the rotation ROM: for each display cell the source cell it shows, 6 bits (R26, R74). -/
abbrev RotPage := Vector (BitVec 6) 64

/-- Bits 7:0 of a word: the row-select byte of a row-word (R70). -/
def lowByte (w : Word) : BitVec 8 := w.extractLsb' 0 8

end Sys2Proof
end

