-- ==== Sys2Proof/Syntax.lean ====
section
/-! DEFINITION. The seven commands of spec/opcode_table.json with the operands their rules give them
(30_encoding.md R77, R78; 43_commands.md R172–R178). -/

namespace Sys2Proof

/-- A command with its operands (R78). Coordinates and the angle are numbers that the encoding keeps in 4 and 16
unsigned bits (R83); WellFormed states those ranges. Bits 31:24 of a data beat carry nothing (R80; log 22). -/
inductive Instr where
  /-- R172: `setPixels(image)`, 64 beats. -/
  | setpixels (img : Image)
  /-- R173: `getPixels()`. -/
  | getpixels
  /-- R174: `setPixel(x, y, color)`, one beat. -/
  | setpixel (x y : Nat) (c : Pixel)
  /-- R175: `getPixel(x, y)`. -/
  | getpixel (x y : Nat)
  /-- R176: `setRotation(angle, redraw = true)`. -/
  | setrot (a : Nat)
  /-- R177: `setRotation(angle, redraw = false)`. -/
  | setrotnr (a : Nat)
  /-- R178: `rotation` get. -/
  | getrot
  deriving DecidableEq, Repr

end Sys2Proof
end

