-- ==== Sys2Proof/WellFormed.lean ====
section
/-! DEFINITION. Which commands the header format can hold (30_encoding.md R77, R83): coordinates of 4 bits, an
angle of 16 bits. The same ranges are what the assembler of R86 accepts. -/

namespace Sys2Proof

/-- R83: `x` and `y` lie in [0,16) and `angle` in [0,65536). A coordinate in [8,16) or an angle that is no
multiple of 90 is well formed: it encodes, and the block reports it (R84, R86). -/
def Instr.wf : Instr → Bool
  | .setpixels _ => true
  | .getpixels => true
  | .setpixel x y _ => decide (x < 16) && decide (y < 16)
  | .getpixel x y => decide (x < 16) && decide (y < 16)
  | .setrot a => decide (a < 65536)
  | .setrotnr a => decide (a < 65536)
  | .getrot => true

end Sys2Proof
end

