-- ==== Sys2Proof/Decode.lean ====
section
/-! DEFINITION. The command port's words (30_encoding.md R76–R85): the opcode table, the decoder of one command
and of a stream, rejecting by name; then the encoder (R86), and the words of an opcode-table row. -/

namespace Sys2Proof

/-! ## Header fields (R77) -/

/-- OP, bits 3:0. -/
def opField (hdr : Word) : BitVec 4 := hdr.extractLsb' 0 4

/-- X, bits 7:4: the source column. -/
def xField (hdr : Word) : BitVec 4 := hdr.extractLsb' 4 4

/-- Y, bits 11:8: the source row. -/
def yField (hdr : Word) : BitVec 4 := hdr.extractLsb' 8 4

/-- ANG, bits 31:16: the angle in degrees. -/
def angField (hdr : Word) : BitVec 16 := hdr.extractLsb' 16 16

/-- R80: bits 23:0 of a data beat are a pixel word; bits 31:24 are ignored. -/
def beatPixel (beat : Word) : Pixel := beat.extractLsb' 0 24

/-! ## The opcode table (R78, opcode_table.json) -/

/-- One row of opcode_table.json: OP, the mask and match of the whole header, and the data beats (R79). -/
structure OpRow where
  op    : BitVec 4
  mask  : Word
  value : Word
  beats : Nat
  deriving DecidableEq, Repr

/-- The seven rows of opcode_table.json, in its order. -/
def opRows : List OpRow :=
  [ { op := 1, mask := 0xFFFFFFFF, value := 0x00000001, beats := 64 },   -- SETPIXELS
    { op := 2, mask := 0xFFFFFFFF, value := 0x00000002, beats := 0 },    -- GETPIXELS
    { op := 3, mask := 0xFFFFF00F, value := 0x00000003, beats := 1 },    -- SETPIXEL
    { op := 4, mask := 0xFFFFF00F, value := 0x00000004, beats := 0 },    -- GETPIXEL
    { op := 5, mask := 0x0000FFFF, value := 0x00000005, beats := 0 },    -- SETROT
    { op := 6, mask := 0x0000FFFF, value := 0x00000006, beats := 0 },    -- SETROTNR
    { op := 7, mask := 0xFFFFFFFF, value := 0x00000007, beats := 0 } ]   -- GETROT

/-- The row of an OP, none for 0x0 and 0x8–0xF (R78). -/
def opRow (op : BitVec 4) : Option OpRow := opRows.find? (fun row => row.op == op)

/-- R79: how many data beats follow a header; it depends on OP alone, and an illegal OP has none. -/
def beats (op : BitVec 4) : Nat :=
  match opRow op with
  | some row => row.beats
  | none => 0

/-! ## The decoder -/

/-- Why a header is an IllegalCommand (R84, R204). -/
inductive DecodeError where
  /-- OP is 0x0 or in 0x8–0xF. -/
  | unassignedOp
  /-- OP is legal and the header fails its row's mask: RSV, or a field the command does not use, is not zero. -/
  | illegalField
  deriving DecidableEq, Repr

/-- The image of the 64 data beats of SETPIXELS: beat j is the pixel of source cell j (R80, R172). -/
def imageOfBeats (data : Vector Word 64) : Image := Vector.ofFn fun j => beatPixel (data.get j)

/-- The command of a header that passes its row's mask, its operands assembled as R83 says. -/
def buildInstr (hdr : Word) (data : Vector Word 64) : Except DecodeError Instr :=
  match (opField hdr).toNat with
  | 1 => .ok (.setpixels (imageOfBeats data))
  | 2 => .ok .getpixels
  | 3 => .ok (.setpixel (xField hdr).toNat (yField hdr).toNat (beatPixel (data.get 0)))
  | 4 => .ok (.getpixel (xField hdr).toNat (yField hdr).toNat)
  | 5 => .ok (.setrot (angField hdr).toNat)
  | 6 => .ok (.setrotnr (angField hdr).toNat)
  | 7 => .ok .getrot
  | _ => .error .unassignedOp

/-- The command that a header word and its data beats stand for, or why there is none (R84). -/
def decodeCommand (hdr : Word) (data : Vector Word 64) : Except DecodeError Instr :=
  match opRow (opField hdr) with
  | none => .error .unassignedOp
  | some row => if hdr &&& row.mask = row.value then buildInstr hdr data else .error .illegalField

/-- The data beats of one command as EX_DATA holds them: the k-th word at entry k, zero where there is none. -/
def beatVector (ws : List Word) : Vector Word 64 := Vector.ofFn fun j => ws.getD j.val 0

/-- What a stream of port words begins with (R85). -/
inductive Decoded where
  /-- A command, and the words after it. -/
  | command (i : Instr) (rest : List Word)
  /-- An IllegalCommand, whose beats are taken and discarded (R79), and the words after it. -/
  | illegal (e : DecodeError) (rest : List Word)
  /-- A command whose beats have not all arrived: it has not started (R85). -/
  | incomplete
  deriving DecidableEq, Repr

/-- R85: the first command of a stream of port words; its length is told by its header's OP alone (R79). -/
def decodeStream : List Word → Decoded
  | [] => .incomplete
  | hdr :: rest =>
    if rest.length < beats (opField hdr) then .incomplete
    else
      match decodeCommand hdr (beatVector (rest.take (beats (opField hdr)))) with
      | .ok i => .command i (rest.drop (beats (opField hdr)))
      | .error e => .illegal e (rest.drop (beats (opField hdr)))

/-! ## The encoder (R86) -/

/-- The header word of a command with coordinates: `(y << 8) | (x << 4) | op`. -/
def headerXY (op : Word) (x y : Nat) : Word :=
  (BitVec.ofNat 32 y <<< 8) ||| (BitVec.ofNat 32 x <<< 4) ||| op

/-- The header word of a command with an angle: `(a << 16) | op`. -/
def headerAngle (op : Word) (a : Nat) : Word := (BitVec.ofNat 32 a <<< 16) ||| op

/-- A data beat: `zext_32(c)` (R86). -/
def pixelBeat (c : Pixel) : Word := c.setWidth 32

/-- The port words of a command, as the table of R86 gives them. -/
def encode : Instr → List Word
  | .setpixels img => 0x00000001 :: img.toList.map pixelBeat
  | .getpixels => [0x00000002]
  | .setpixel x y c => [headerXY 0x3 x y, pixelBeat c]
  | .getpixel x y => [headerXY 0x4 x y]
  | .setrot a => [headerAngle 0x5 a]
  | .setrotnr a => [headerAngle 0x6 a]
  | .getrot => [0x00000007]

/-! ## The words of an opcode-table row -/

/-- The longest command is SETPIXELS with 65 port words (R79). -/
def longestCommand : Nat := 65

/-- An instruction given as one number: port word k is bits 32k+31..32k of its low `nbits` bits, zero above. -/
def tableWords (nbits w : Nat) : List Word :=
  (List.range longestCommand).map fun k => BitVec.ofNat 32 ((w % 2 ^ nbits) >>> (32 * k))

/-- The command the decoder reads from an instruction whose bits are `w`, numbered as opcode_table.json does. -/
def decodeTableWord (nbits w : Nat) : Option Instr :=
  match decodeStream (tableWords nbits w) with
  | .command i _ => some i
  | .illegal _ _ => none
  | .incomplete => none

end Sys2Proof
end

