-- ==== Sys2Proof/Machine/Operands.lean ====
section
/-! DEFINITION. The operand forms of the commands: cell coordinates (R51, R203), angles (R110), the channels of a
pixel (R72), and the words a result is given in (R81). -/

namespace Sys2Proof.Machine

/-- R51: the cell in row `row` and column `col` has index `8*row + col`. -/
def cell (row col : Fin 8) : Fin 64 := ⟨8 * row.val + col.val, by omega⟩

/-- The row of a cell index: `d = 8*r + c` (R51). -/
def cellRow (d : Fin 64) : Fin 8 := ⟨d.val / 8, by omega⟩

/-- The column of a cell index (R51). -/
def cellCol (d : Fin 64) : Fin 8 := ⟨d.val % 8, by omega⟩

/-- A host coordinate that names a row or column: none for 8 or more, which is a BoundsError (R54, R203). -/
def coord (n : Nat) : Option (Fin 8) := if h : n < 8 then some ⟨n, h⟩ else none

/-- The opposite index, `7 - n`, in [0,8). -/
def flip8 (n : Fin 8) : Fin 8 := ⟨7 - n.val, by omega⟩

/-- R110: an angle is valid exactly when it is 0, 90, 180 or 270, and then selects page `a / 90`. -/
def anglePage (a : Nat) : Option (BitVec 2) :=
  if a = 0 ∨ a = 90 ∨ a = 180 ∨ a = 270 then some (BitVec.ofNat 2 (a / 90)) else none

/-- R21: the angle the rotation register holds, `90 * ROT_K`. -/
def angleOf (k : BitVec 2) : Nat := 90 * k.toNat

/-- R72: the red channel, bits 23:16. -/
def redOf (p : Pixel) : Chan := p.extractLsb' 16 8

/-- R72: the green channel, bits 15:8. -/
def greenOf (p : Pixel) : Chan := p.extractLsb' 8 8

/-- R72: the blue channel, bits 7:0. -/
def blueOf (p : Pixel) : Chan := p.extractLsb' 0 8

/-- R81: a pixel as a result word, `zext_32(PB[j])`. -/
def pixelResult (p : Pixel) : Word := p.setWidth 32

/-- R81: the GETROT result, `zext_32(90 * ROT_K)`. -/
def angleResult (k : BitVec 2) : Word := BitVec.ofNat 32 (angleOf k)

end Sys2Proof.Machine
end

