-- ==== Sys2Proof/Machine/Flags.lean ====
section
/-! DEFINITION. The block has no status flags and no condition codes (10_state.md R34): the only status a command
produces is its completion code (R82), sent in its status word (R81) and kept nowhere. This file holds the codes,
the status word and the checks that give the code (60_exceptions.md R202–R206). -/

namespace Sys2Proof.Machine

/-- R82: the completion codes. -/
inductive Code where
  | ok
  | invalidRotation
  | boundsError
  | illegalCommand
  deriving DecidableEq, Repr

/-- R82: the number of a code in the status word's CODE field. -/
def codeNumber : Code → BitVec 4
  | .ok => 0
  | .invalidRotation => 1
  | .boundsError => 2
  | .illegalCommand => 3

/-- R81: the status word, bits 3:0 CODE, bits 31:4 zero. -/
def statusWord (c : Code) : Word := (codeNumber c).setWidth 32

/-- R206: the checks of a header in their order; the first that fails gives the code. -/
def checkHeader (hdr : Word) : Code :=
  match opRow (opField hdr) with
  | none => .illegalCommand
  | some row =>
    if hdr &&& row.mask ≠ row.value then .illegalCommand
    else if (opField hdr = 3 ∨ opField hdr = 4) ∧ ((xField hdr).toNat ≥ 8 ∨ (yField hdr).toNat ≥ 8) then
      .boundsError
    else if (opField hdr = 5 ∨ opField hdr = 6) ∧ anglePage (angField hdr).toNat = none then
      .invalidRotation
    else .ok

end Sys2Proof.Machine
end

