-- ==== Sys2Proof/Config.lean ====
section
/-! DEFINITION. The parameters fixed at construction (00_scope.md R7–R14), the reference configuration REFCFG, and the
moves of the agents with the free value that supplies them (60_exceptions.md R200, R213; log 5). -/

namespace Sys2Proof

/-- R13: whether a transmitted colour bit 1 means "LED on". No rule reads it. -/
inductive LedPolarity where
  | activeHigh
  | activeLow
  deriving DecidableEq, Repr

/-- The level at which the enable line counts as asserted (R151, ruling D28). No rule reads it. -/
inductive EnablePolarity where
  | activeHigh
  | activeLow
  deriving DecidableEq, Repr

/-- The clock edge of R14. No rule reads it. -/
inductive ClockEdge where
  | rising
  | falling
  deriving DecidableEq, Repr

/-- R14, R151 and ruling D28: ENGINE_TIMING, the bit period, the clock edge the data is sampled on, the enable setup,
hold and polarity, and the gap between words. No rule reads it. -/
structure EngineTiming where
  bitPeriod      : Nat
  clockEdge      : ClockEdge
  enableSetup    : Nat
  enableHold     : Nat
  enablePolarity : EnablePolarity
  wordGap        : Nat
  deriving DecidableEq, Repr

/-- The configuration the block is constructed with (R7, R9–R14); nothing in it changes after reset.
CHANNEL_RANGE (R8) is the constant 255 and is not a parameter. -/
structure Config where
  /-- R7: SHADE_COUNT, the number N of shade levels. -/
  shadeCount   : Nat
  /-- R9: PASS_MASK[0..2], in emission order. -/
  passMask     : Vector Word 3
  /-- R10: QUEUE_DEPTH, the capacity of the word queue. -/
  queueDepth   : Nat
  /-- R11: SHADE_LOCK, the optional per-shade lock. -/
  shadeLock    : Bool
  /-- R12: RESET_IMAGE, the pixel store after reset. -/
  resetImage   : Image
  /-- R13: LED_POLARITY. -/
  ledPolarity  : LedPolarity
  /-- R14: ENGINE_TIMING. -/
  engineTiming : EngineTiming
  deriving DecidableEq, Repr

/-- 00_scope.md, REFCFG. N, SHADE_LOCK and RESET_IMAGE are the spec's defaults (R7, R11, R12).
DESIGN CHOICE (log 2): PASS_MASK and QUEUE_DEPTH are OPEN (R9, R10) and REFCFG's values are "not claimed to be
the hardware's". DESIGN CHOICE (log 3): LED_POLARITY and ENGINE_TIMING are OPEN and read by no rule. -/
def Config.refcfg : Config where
  shadeCount   := 4
  passMask     := #v[0x00FFFF00, 0xFFFF0000, 0xFF00FF00]
  queueDepth   := 4
  shadeLock    := false
  resetImage   := Vector.replicate 64 0
  ledPolarity  := .activeHigh
  engineTiming := {
    bitPeriod := 0, clockEdge := .rising, enableSetup := 0, enableHold := 0, enablePolarity := .activeHigh, wordGap := 0 }

/-- One move: one agent's turn, with everything the spec lets that turn draw freely (R213; log 5).
A turn of an agent that has no enabled step leaves the block as it is (log 6). -/
inductive Move where
  /-- The host sends the word `w` on the command port (R76, R200). -/
  | host (w : Word)
  /-- The host consumes one response word (R32, R200). -/
  | consume
  /-- One executor step (R170); `pick` chooses among the slot events enabled (R59, R60; log 7). -/
  | executor (pick : Nat)
  /-- One scheduler step; `mask` is the tearing mask of R58, `stay` the free choice of a GAP step (R145). -/
  | scheduler (mask : Word) (stay : Bool)
  /-- One engine word step (R150). -/
  | engine
  deriving DecidableEq, Repr, Inhabited

/-- FREE VALUE (log 5): the moves the spec leaves free once no placed move is left, by draw number (R213:
"the model admits every interleaving"). It has no body: nothing can be proved of its values. -/
opaque Config.freeMove : Nat → Move

end Sys2Proof
end

