-- ==== Sys2Proof/Machine/Roms.lean ====
section
/-! DEFINITION. The contents of the two ROMs, built once at construction (40_thresholds_rotation.md R100,
R103–R105). -/

namespace Sys2Proof.Machine

/-- R8: the channel range, fixed at 255. -/
def channelRange : Nat := 255

/-- R100: the step between thresholds, `floor(255 / N)`. -/
def thresholdStep (n : Nat) : Nat := channelRange / n

/-- R100: `THRESH[s] = s * floor(255 / N)` for s in [0,N). -/
def computeThresholds (n : Nat) : List Chan :=
  (List.range n).map fun s => BitVec.ofNat 8 (s * thresholdStep n)

/-- R104: the page of angle 0 is the identity. -/
def rotPage0 : RotPage := Vector.ofFn fun d => BitVec.ofNat 6 d.val

/-- R105: the next page, `next[8*row + col] = page[8*(7 - col) + row]`. -/
def nextPage (page : RotPage) : RotPage :=
  Vector.ofFn fun d => page.get (cell (flip8 (cellCol d)) (cellRow d))

/-- R103: the four pages, page k the map of angle 90k. -/
def buildRotationMaps : Vector RotPage 4 :=
  #v[rotPage0, nextPage rotPage0, nextPage (nextPage rotPage0), nextPage (nextPage (nextPage rotPage0))]

/-- A ROM entry as a source-cell index in [0,64) (R74). -/
def sourceCell (e : BitVec 6) : Fin 64 := ⟨e.toNat, e.isLt⟩

end Sys2Proof.Machine
end

