-- ==== Sys2Proof/Machine/Encoder.lean ====
section
/-! DEFINITION. The threshold comparator and the row encoder (41_encoder.md R120, R121), and the display row that
encodePixel rebuilds (R124). -/

namespace Sys2Proof.Machine

/-- R120: a channel value is active at a threshold when it does not exceed it (unsigned). -/
def active (v t : Chan) : Bool := decide (v.toNat ≤ t.toNat)

/-- The three colour bytes of a row-word while they are accumulated (R121). -/
structure Planes where
  red   : Chan
  green : Chan
  blue  : Chan
  deriving DecidableEq, Repr

/-- R121: `((plane << 1) | bit)[7:0]`. -/
def shiftIn (plane : Chan) (bit : Bool) : Chan := (plane <<< 1) ||| BitVec.ofNat 8 bit.toNat

/-- The pixel shown at a display cell (R110: the page maps it to its source cell). -/
def shownPixel (img : Image) (page : RotPage) (d : Fin 64) : Pixel := img.get (sourceCell (page.get d))

/-- One scan step of R121: lane c reads display cell `8*r + (7 - c)`. -/
def scanLane (img : Image) (page : RotPage) (t : Chan) (r : Fin 8) (acc : Planes) (c : Fin 8) : Planes :=
  let p := shownPixel img page (cell r (flip8 c))
  { red   := shiftIn acc.red (active (redOf p) t)
    green := shiftIn acc.green (active (greenOf p) t)
    blue  := shiftIn acc.blue (active (blueOf p) t) }

/-- R121: the lanes in scan order, c = 7 first. -/
def scanOrder : List (Fin 8) := [7, 6, 5, 4, 3, 2, 1, 0]

/-- R70: red in bits 31:24, blue in 23:16, green in 15:8, the row-select byte `1 << r` in 7:0. -/
def packRow (planes : Planes) (r : Fin 8) : Word :=
  (planes.red.setWidth 32 <<< 24) ||| (planes.blue.setWidth 32 <<< 16) ||| (planes.green.setWidth 32 <<< 8)
    ||| (1#32 <<< r.val)

/-- R121: encodeRow of an image under a rotation page at a threshold, for one display row. -/
def encodeRow (img : Image) (page : RotPage) (t : Chan) (r : Fin 8) : Word :=
  packRow (scanOrder.foldl (scanLane img page t r) { red := 0, green := 0, blue := 0 }) r

/-- R124: the display row encodePixel rebuilds, `ROT_MAP[ROT_K][8*y + (7-x)] >> 3`. -/
def pixelRow (page : RotPage) (x y : Fin 8) : Fin 8 := cellRow (sourceCell (page.get (cell y (flip8 x))))

end Sys2Proof.Machine
end

