-- ==== Sys2Proof/Machine/Construction.lean ====
section
/-! DEFINITION. What construction computes from a configuration (70_reset_and_hazards.md R230, R231): whether a block
exists for it, and the shade store it starts with. -/

namespace Sys2Proof

/-- R230: the configurations for which a block exists: `1 ≤ N ≤ 255`, `PASS_MASK[p][7:0] = 0` for every p,
`QUEUE_DEPTH ≥ 1`. (RESET_IMAGE has 64 entries of 24 bits by its type.) -/
def Config.admitted (c : Config) : Bool :=
  decide (1 ≤ c.shadeCount) && decide (c.shadeCount ≤ 255)
    && decide (lowByte (c.passMask.get 0) = 0) && decide (lowByte (c.passMask.get 1) = 0)
    && decide (lowByte (c.passMask.get 2) = 0) && decide (1 ≤ c.queueDepth)

namespace Machine

/-- R23, R231 step 4: the shade store after reset, `encodeRow(RESET_IMAGE, 0, THRESH[s], r)` at every slot. -/
def resetStore (c : Config) : List Word :=
  (computeThresholds c.shadeCount).flatMap fun t =>
    (List.finRange 8).map fun r => encodeRow c.resetImage (buildRotationMaps.get 0) t r

end Machine

end Sys2Proof
end

