-- ==== Sys2Proof/Machine/State.lean ====
section
/-! DEFINITION. Everything the spec gives the block (10_state.md R20–R32), the parameters it was constructed with
(R33), the observation and the host's side of the two ports, and the reset (70_reset_and_hazards.md R230, R231). -/

namespace Sys2Proof.Machine

/-- A slot of the shade store: the row-word location `SB[s][r]` (R23). -/
structure Slot where
  shade : Nat
  row   : Fin 8
  deriving DecidableEq, Repr

/-- The place of slot (s, r) in the arrays indexed by slots: `8*s + r` (log 16). -/
def Slot.idx (sl : Slot) : Nat := 8 * sl.shade + sl.row.val

/-- R30: an in-flight write record, the pair (old, new). -/
structure WriteRecord where
  old : Word
  new : Word
  deriving DecidableEq, Repr

/-- R31. -/
inductive LockState where
  | free
  | held
  deriving DecidableEq, Repr

/-- R27: SCH_PHASE. -/
inductive SchPhase where
  | fetch
  | emit
  | gap
  deriving DecidableEq, Repr

/-- R29: EX_PHASE. -/
inductive ExPhase where
  | idle
  | collect
  | apply
  | respond
  deriving DecidableEq, Repr

/-- The block, its configuration, its ports and its output. -/
structure State where
  /-- R33: the parameters fixed at construction; no step writes them (log 1). -/
  cfg      : Config
  /-- R21: ROT_K. -/
  rotK     : BitVec 2
  /-- R22: PB[0..63]. -/
  pb       : Image
  /-- R23: SB, slot (s, r) at `8*s + r` (log 16). -/
  sb       : List Word
  /-- R25: THRESH[s]. -/
  thresh   : List Chan
  /-- R26: ROT_MAP[k][d]. -/
  rotMap   : Vector RotPage 4
  /-- R27: SCH_S. -/
  schS     : BitVec 8
  /-- R27: SCH_R. -/
  schR     : BitVec 3
  /-- R27: SCH_P. -/
  schP     : BitVec 2
  /-- R27: SCH_PHASE. -/
  schPhase : SchPhase
  /-- R27: SCH_W. -/
  schW     : Word
  /-- R28: Q, head first. -/
  q        : List Word
  /-- R29: EX_PHASE. -/
  exPhase  : ExPhase
  /-- R29: EX_HDR. -/
  exHdr    : Word
  /-- R29: EX_DATA[0..63]. -/
  exData   : Vector Word 64
  /-- R29: EX_CNT. -/
  exCnt    : BitVec 7
  /-- R29: EX_PEND, the slots still to write, in ascending order without repeats. -/
  exPend   : List Slot
  /-- The model's own: the response words the running command still has to send, status first (logs 10, 11). -/
  exRsp    : List Word
  /-- R30: INFLIGHT, slot (s, r) at `8*s + r`. -/
  inflight : List (Option WriteRecord)
  /-- R31: LOCK[s]; empty when SHADE_LOCK is false, since LOCK does not exist then (log 21). -/
  lock     : List LockState
  /-- R32: RSP, every word sent to the host so far, oldest first (log 14). -/
  rsp      : List Word
  /-- R32, R200: how many words of RSP the host has consumed (log 14). -/
  rspTaken : Nat
  /-- R76: the words the host has sent and the executor has not taken, oldest first (log 13). -/
  port     : List Word
  /-- R152: OUT, every word transmitted so far, oldest first (log 15). -/
  out      : List Word
  /-- The model's own: the moves placed for the next steps (log 5). -/
  moves    : List Move
  /-- The model's own: how many free moves have been drawn (log 5). -/
  draws    : Nat
  deriving DecidableEq, Repr

/-- Why a step stops with a fault. No command ends in one: the three command errors of R201 are status words. -/
inductive Fault where
  /-- Raised by a FETCH or a slot event whose shade index is outside [0,N): the slot does not exist (R50, log 16).
  Safe: the block forms no such index (R54), and no state that holds the invariant raises it. -/
  | noSuchSlot
  /-- Raised by an EMIT with SCH_P = 3, a value that is never held (R27, log 17).
  Safe: no state that holds the invariant raises it. -/
  | noSuchPass
  deriving DecidableEq, Repr

/-- Why a step is refused. -/
inductive Refusal where
  /-- A command that has no meaning yet, by its mnemonic. Safe. No arm of this model answers with it. -/
  | notModelled (mnemonic : String)
  /-- Raised by every step of a configuration that R230 does not admit: "A model refuses any other configuration:
  it has no initial state and no run" (log 18). Safe. -/
  | configNotAdmitted
  deriving DecidableEq, Repr

/-- R231: the block of a configuration right after reset. SCH_W, EX_HDR and EX_DATA are unspecified and get zero
(DESIGN CHOICE, log 4); OUT, the ports, the moves and the draw counter start empty (logs 5, 13, 14, 15). -/
def State.resetWith (c : Config) : State where
  cfg      := c
  rotK     := 0
  pb       := c.resetImage
  sb       := resetStore c
  thresh   := computeThresholds c.shadeCount
  rotMap   := buildRotationMaps
  schS     := 0
  schR     := 0
  schP     := 0
  schPhase := .fetch
  schW     := 0
  q        := []
  exPhase  := .idle
  exHdr    := 0
  exData   := Vector.replicate 64 0
  exCnt    := 0
  exPend   := []
  exRsp    := []
  inflight := List.replicate (8 * c.shadeCount) none
  lock     := if c.shadeLock then List.replicate c.shadeCount .free else []
  rsp      := []
  rspTaken := 0
  port     := []
  out      := []
  moves    := []
  draws    := 0

/-- R230: a block exists only for an admitted configuration. -/
def State.construct (c : Config) : Option State := if c.admitted then some (State.resetWith c) else none

/-- The machine right after reset, in the reference configuration (log 2). -/
def State.reset : State := State.resetWith Config.refcfg

end Sys2Proof.Machine
end

