-- ==== Sys2Proof/Machine/Ops.lean ====
section
/-! DEFINITION. The shared operations over the block's state: the accessors of the ROMs and arrays, the write
protocol and the lock of the shade store (20_memory.md R57–R60), the command errors and responses (R170, R205;
the block's whole exception model: R208), setRotation (R126), and the draw of the next move (log 5). -/

namespace Sys2Proof.Machine

/-! ## Slots -/

/-- Every slot (s, r), s in [0,N), r in [0,8), in ascending order (R23). -/
def allSlots (n : Nat) : List Slot :=
  (List.range n).flatMap fun s => (List.finRange 8).map fun r => { shade := s, row := r }

/-- The slots of one display row in every shade (R124), in ascending order. -/
def rowSlots (n : Nat) (r : Fin 8) : List Slot := (List.range n).map fun s => { shade := s, row := r }

/-! ## Accessors -/

/-- R110: the rotation page ROT_K selects. -/
def State.page (s : State) : RotPage := s.rotMap.get s.rotK.toFin

/-- R22: one entry of the pixel store. -/
def State.pbAt (s : State) (i : Fin 64) : Pixel := s.pb.get i

/-- R23: one slot of the shade store, none for a slot that does not exist. -/
def State.sbAt (s : State) (sl : Slot) : Option Word := s.sb[sl.idx]?

/-- R30: the in-flight record of a slot, none when there is none. -/
def State.inflightAt (s : State) (sl : Slot) : Option WriteRecord := s.inflight[sl.idx]?.join

/-- R25: one entry of the threshold ROM. -/
def State.threshAt (s : State) (shade : Nat) : Option Chan := s.thresh[shade]?

/-- The word that encodeFull and encodePixel give a slot: `encodeRow(PB, ROT_K, THRESH[s], r)` (R123, R124). -/
def State.encoded (s : State) (sl : Slot) : Option Word :=
  (s.threshAt sl.shade).map fun t => encodeRow s.pb s.page t sl.row

/-- R31: LOCK[s] is HELD. -/
def State.lockHeld (s : State) (shade : Nat) : Bool := s.lock[shade]? == some LockState.held

/-! ## The shade store: reads, writes, the lock -/

/-- R58: `(old & ~m) | (new & m)`. -/
def tornWord (old new mask : Word) : Word := (old &&& ~~~mask) ||| (new &&& mask)

/-- Read_SB (R57, R58): the latest committed value, or a torn value under the drawn mask while a write to the slot
is in flight; none for a slot that does not exist. -/
def State.readSb (s : State) (sl : Slot) (mask : Word) : Option Word :=
  match s.sbAt sl, s.inflightAt sl with
  | some v, none => some v
  | some _, some rec => some (tornWord rec.old rec.new mask)
  | none, _ => none

/-- R59, begin: `INFLIGHT[s][r] <- (SB[s][r], v)` with v the encoded word of the slot (log 12); the slot leaves
EX_PEND (log 8). None for a slot that does not exist. -/
def State.beginWrite (s : State) (sl : Slot) : Option State :=
  match s.sbAt sl, s.encoded sl with
  | some old, some new =>
    some { s with
      inflight := s.inflight.set sl.idx (some { old := old, new := new })
      exPend := s.exPend.filter (fun x => x ≠ sl) }
  | _, _ => none

/-- R59, end: `SB[s][r] <- v ; INFLIGHT[s][r] <- none`. None where no write is in flight. -/
def State.endWrite (s : State) (sl : Slot) : Option State :=
  match s.inflightAt sl with
  | some rec => some { s with sb := s.sb.set sl.idx rec.new, inflight := s.inflight.set sl.idx none }
  | none => none

/-- R60: `LOCK[s] <- HELD`. -/
def State.acquireLock (s : State) (shade : Nat) : State := { s with lock := s.lock.set shade .held }

/-- R60: `LOCK[s] <- FREE`. -/
def State.releaseLock (s : State) (shade : Nat) : State := { s with lock := s.lock.set shade .free }

/-- An executor event on the shade store (R59, R60, R200). -/
inductive SlotEvent where
  | acquire (shade : Nat)
  | beginSlot (sl : Slot)
  | endSlot (sl : Slot)
  | release (shade : Nat)
  deriving DecidableEq, Repr

/-- A slot of the shade is still to be written. -/
def State.pendingIn (s : State) (shade : Nat) : Bool := s.exPend.any fun sl => sl.shade == shade

/-- The slots with a write in flight. -/
def State.inflightSlots (s : State) : List Slot :=
  (allSlots s.cfg.shadeCount).filter fun sl => (s.inflightAt sl).isSome

/-- A write to a slot of the shade is in flight. -/
def State.inflightIn (s : State) (shade : Nat) : Bool := s.inflightSlots.any fun sl => sl.shade == shade

/-- R60: the locks that may be taken: FREE, with a slot of the shade still to write. -/
def State.acquirable (s : State) : List Nat :=
  if s.cfg.shadeLock then
    (List.range s.cfg.shadeCount).filter fun h => !s.lockHeld h && s.pendingIn h
  else []

/-- R59, R60: the slots whose write may begin: those still to write, of a shade that is HELD if there is a lock. -/
def State.beginnable (s : State) : List Slot :=
  s.exPend.filter fun sl => !s.cfg.shadeLock || s.lockHeld sl.shade

/-- R60: the locks to give back: HELD, after the last end event to a slot of the shade. -/
def State.releasable (s : State) : List Nat :=
  if s.cfg.shadeLock then
    (List.range s.cfg.shadeCount).filter fun h => s.lockHeld h && !s.pendingIn h && !s.inflightIn h
  else []

/-- Every event the executor may take now (R59: every order and every overlap; log 7). -/
def State.slotEvents (s : State) : List SlotEvent :=
  s.acquirable.map .acquire ++ s.beginnable.map .beginSlot ++ s.inflightSlots.map .endSlot
    ++ s.releasable.map .release

/-- The effect of one event. -/
def State.runEvent (s : State) : SlotEvent → Option State
  | .acquire h => some (s.acquireLock h)
  | .beginSlot sl => s.beginWrite sl
  | .endSlot sl => s.endWrite sl
  | .release h => some (s.releaseLock h)

/-- R170, RESPOND: EX_PEND is empty, every write has ended and no lock is HELD. -/
def State.settled (s : State) : Bool :=
  s.exPend.isEmpty && s.inflight.all (fun o => o.isNone) && s.lock.all (fun l => l == LockState.free)

/-! ## Responses and command errors -/

/-- R205, `raise E`: append the status word with the code, no result word, and return to IDLE. -/
def State.raiseError (s : State) (c : Code) : State :=
  { s with rsp := s.rsp ++ [statusWord c], exPhase := .idle }

/-- The end of a command's APPLY when it succeeds (R170): the slots it has to write (EX_PEND), the response words it
owes, status OK and then its results (R81; log 10), and RESPOND next (log 9). -/
def State.finishApply (s : State) (pend : List Slot) (results : List Word) : State :=
  { s with exPhase := .respond, exPend := pend, exRsp := statusWord .ok :: results }

/-- R170, RESPOND: `respond(w)` of the next response word owed; IDLE after the last (log 11). -/
def State.sendResponse (s : State) : State :=
  match s.exRsp with
  | [] => { s with exPhase := .idle }
  | [w] => { s with rsp := s.rsp ++ [w], exRsp := [], exPhase := .idle }
  | w :: ws => { s with rsp := s.rsp ++ [w], exRsp := ws }

/-! ## Operations of the encoder -/

/-- R172: `PB[j] <- img[j]` for every j. -/
def State.setImage (s : State) (img : Image) : State := { s with pb := img }

/-- R124: `PB[8*y + x] <- c`. -/
def State.setPixelAt (s : State) (i : Fin 64) (c : Pixel) : State := { s with pb := s.pb.set i c }

/-- R123: the write set of encodeFull, every slot. -/
def State.fullWriteSet (s : State) : List Slot := allSlots s.cfg.shadeCount

/-- R124: the write set of encodePixel, one display row in every shade. -/
def State.pixelWriteSet (s : State) (x y : Fin 8) : List Slot :=
  rowSlots s.cfg.shadeCount (pixelRow s.page x y)

/-- R126: setRotation. An invalid angle raises InvalidRotation before any write; otherwise ROT_K takes the page of
the angle, and every slot is to be written when redraw is set. -/
def State.setRotation (s : State) (a : Nat) (redraw : Bool) : State :=
  match anglePage a with
  | none => s.raiseError .invalidRotation
  | some k => { s with rotK := k }.finishApply (if redraw then s.fullWriteSet else []) []

/-! ## The moves -/

/-- The next move: the first of the placed moves, or a free one (log 5). -/
def State.nextMove (s : State) : Move :=
  match s.moves with
  | m :: _ => m
  | [] => Config.freeMove s.draws

/-- What drawing the next move leaves: the placed move is gone, or the draw counter has advanced (log 5). -/
def State.afterDraw (s : State) : State :=
  match s.moves with
  | _ :: ms => { s with moves := ms }
  | [] => { s with draws := s.draws + 1 }

end Sys2Proof.Machine
end

