-- ==== Sys2Proof/Machine/Pixels.lean ====
section
/-! DEFINITION. The pixel commands (43_commands.md R172–R175): what APPLY does for each. -/

namespace Sys2Proof.Machine

/-- R172 SETPIXELS: the whole pixel store, then encodeFull of the new image (R123). -/
def execSetpixels (img : Image) (s : State) : Host.Outcome State Fault Refusal :=
  .next ((s.setImage img).finishApply s.fullWriteSet [])

/-- R173 GETPIXELS: 64 result words, word j = `zext_32(PB[j])`. -/
def execGetpixels (s : State) : Host.Outcome State Fault Refusal :=
  .next (s.finishApply [] (s.pb.toList.map pixelResult))

/-- R174 SETPIXEL: BoundsError when x ≥ 8 or y ≥ 8; otherwise encodePixel (R124), the pixel store first. -/
def execSetpixel (x y : Nat) (c : Pixel) (s : State) : Host.Outcome State Fault Refusal :=
  match coord x, coord y with
  | some col, some row => .next ((s.setPixelAt (cell row col) c).finishApply (s.pixelWriteSet col row) [])
  | _, _ => .next (s.raiseError .boundsError)

/-- R175 GETPIXEL: BoundsError when x ≥ 8 or y ≥ 8; otherwise one result word, `zext_32(PB[8*y + x])`. -/
def execGetpixel (x y : Nat) (s : State) : Host.Outcome State Fault Refusal :=
  match coord x, coord y with
  | some col, some row => .next (s.finishApply [] [pixelResult (s.pbAt (cell row col))])
  | _, _ => .next (s.raiseError .boundsError)

end Sys2Proof.Machine
end

