-- ==== Sys2Proof/Machine/Rotation.lean ====
section
/-! DEFINITION. The rotation commands (43_commands.md R176–R178): what APPLY does for each. -/

namespace Sys2Proof.Machine

/-- R176 SETROT: setRotation with redraw. -/
def execSetrot (a : Nat) (s : State) : Host.Outcome State Fault Refusal := .next (s.setRotation a true)

/-- R177 SETROTNR: setRotation without redraw. -/
def execSetrotnr (a : Nat) (s : State) : Host.Outcome State Fault Refusal := .next (s.setRotation a false)

/-- R178 GETROT: one result word, `zext_32(90 * ROT_K)`. -/
def execGetrot (s : State) : Host.Outcome State Fault Refusal := .next (s.finishApply [] [angleResult s.rotK])

end Sys2Proof.Machine
end

