-- ==== Sys2Proof/Machine/Dispatch.lean ====
section
/-! DEFINITION. One arm per command (opcode_table.json): the APPLY of a decoded command (43_commands.md R170). -/

namespace Sys2Proof.Machine

def exec (i : Instr) (s : State) : Host.Outcome State Fault Refusal :=
  match i with
  | .setpixels img => Sys2Proof.Machine.execSetpixels img s
  | .getpixels => Sys2Proof.Machine.execGetpixels s
  | .setpixel x y c => Sys2Proof.Machine.execSetpixel x y c s
  | .getpixel x y => Sys2Proof.Machine.execGetpixel x y s
  | .setrot a => Sys2Proof.Machine.execSetrot a s
  | .setrotnr a => Sys2Proof.Machine.execSetrotnr a s
  | .getrot => Sys2Proof.Machine.execGetrot s

end Sys2Proof.Machine
end

