-- ==== Sys2Proof/Machine/Streaming.lean ====
section
/-! DEFINITION. The row-streaming controller, the word queue and the transmission engine's word-level contract
(42_scheduler.md R140–R152). -/

namespace Sys2Proof.Machine

/-! ## The scheduler -/

/-- The slot (SCH_S, SCH_R). -/
def State.schSlot (s : State) : Slot := { shade := s.schS.toNat, row := s.schR.toFin }

/-- PASS_MASK[p] for a pass p in [0,3); none for the value 3, which SCH_P never holds (R27, log 17). -/
def State.passMaskAt (s : State) (p : BitVec 2) : Option Word :=
  if h : p.toNat < 3 then some (s.cfg.passMask.get ⟨p.toNat, h⟩) else none

/-- R142: FETCH is enabled unless SHADE_LOCK is true and the shade's lock is HELD. -/
def State.fetchEnabled (s : State) : Bool := !s.cfg.shadeLock || !s.lockHeld s.schS.toNat

/-- R142 FETCH: `SCH_W <- Read_SB(SCH_S, SCH_R); SCH_P <- 0; SCH_PHASE <- EMIT`. It waits for the lock. -/
def State.fetchStep (s : State) (mask : Word) : Host.Outcome State Fault Refusal :=
  if s.fetchEnabled then
    match s.readSb s.schSlot mask with
    | some w => .next { s with schW := w, schP := 0, schPhase := .emit }
    | none => .fault .noSuchSlot
  else .next s

/-- R144: the advance at the end of each EMIT step. -/
def State.advance (s : State) : State :=
  if s.schP.toNat < 2 then { s with schP := s.schP + 1 }
  else if s.schR.toNat < 7 then { s with schP := 0, schR := s.schR + 1, schPhase := .fetch }
  else if s.schS.toNat < s.cfg.shadeCount - 1 then
    { s with schP := 0, schR := 0, schS := s.schS + 1, schPhase := .fetch }
  else { s with schP := 0, schR := 0, schS := 0, schPhase := .gap }

/-- R143, R149: append at the tail of the queue. -/
def State.enqueue (s : State) (w : Word) : State := { s with q := s.q ++ [w] }

/-- R143 EMIT: push `SCH_W | PASS_MASK[SCH_P]` and advance; it waits while the queue is full. -/
def State.emitStep (s : State) : Host.Outcome State Fault Refusal :=
  if s.q.length < s.cfg.queueDepth then
    match s.passMaskAt s.schP with
    | some m => .next (s.enqueue (s.schW ||| m)).advance
    | none => .fault .noSuchPass
  else .next s

/-- R145 GAP: stay, or go to FETCH; the choice is free. -/
def State.gapStep (s : State) (stay : Bool) : Host.Outcome State Fault Refusal :=
  .next (if stay then s else { s with schPhase := .fetch })

/-- One scheduler step (R141). -/
def schedulerStep (mask : Word) (stay : Bool) (s : State) : Host.Outcome State Fault Refusal :=
  match s.schPhase with
  | .fetch => s.fetchStep mask
  | .emit => s.emitStep
  | .gap => s.gapStep stay

/-! ## The engine -/

/-- R150: the idle word, zero in all 32 bits. -/
def idleWord : Word := 0

/-- R150: the engine's word step: it takes the head of the queue, or the idle word, and transmits it (R152: OUT). -/
def engineStep (s : State) : State :=
  match s.q with
  | w :: ws => { s with q := ws, out := s.out ++ [w] }
  | [] => { s with out := s.out ++ [idleWord] }

/-- What the engine does on its lines for one word (R151). Which level asserts the enable line and which edge of a
pulse samples the data are ENGINE_TIMING (log 15). -/
inductive LineEvent where
  /-- The enable line is asserted. -/
  | assertEnable
  /-- The data line carries `b` while the clock line gives `clockPulses` pulses. -/
  | dataBit (b : Bool) (clockPulses : Nat)
  /-- The enable line is deasserted. -/
  | deassertEnable
  deriving DecidableEq, Repr

/-- R151: the 32 bits of a word in the order sent, `w[31]` first and `w[0]` last. -/
def serialBits (w : Word) : List Bool := (List.range 32).map fun i => w.getLsbD (31 - i)

/-- R151: assert enable, the 32 bits with one clock pulse each, deassert enable. -/
def transmit (w : Word) : List LineEvent :=
  LineEvent.assertEnable :: ((serialBits w).map (fun b => .dataBit b 1) ++ [.deassertEnable])

/-- The line events of everything transmitted so far (R151, R152). -/
def State.lineEvents (s : State) : List LineEvent := s.out.flatMap transmit

end Sys2Proof.Machine
end

