-- ==== Sys2Proof/Machine/Executor.lean ====
section
/-! DEFINITION. The executor's steps (43_commands.md R170), the host's steps (R76, R32), one step of the agent a
move names (60_exceptions.md R200, R213), and placing a command where the next step runs it (log 19). -/

namespace Sys2Proof.Machine

/-! ## The executor -/

/-- R170 IDLE: `EX_HDR <- it; EX_CNT <- 0; EX_PHASE <- COLLECT`; it waits for a word on the command port. -/
def State.idleStep (s : State) : State :=
  match s.port with
  | w :: ws => { s with port := ws, exHdr := w, exCnt := 0, exPhase := .collect }
  | [] => s

/-- R170 COLLECT: take beats until all are there, then APPLY (log 9); it waits for a word on the command port. -/
def State.collectStep (s : State) : State :=
  if s.exCnt.toNat < beats (opField s.exHdr) then
    match s.port with
    | w :: ws =>
      { s with port := ws, exData := s.exData.setIfInBounds s.exCnt.toNat w, exCnt := s.exCnt + 1 }
    | [] => s
  else { s with exPhase := .apply }

/-- R170 APPLY: an IllegalCommand (R204) changes nothing and answers its code; a command runs its rule. -/
def State.applyStep (s : State) : Host.Outcome State Fault Refusal :=
  match decodeCommand s.exHdr s.exData with
  | .error _ => .next (s.raiseError .illegalCommand)
  | .ok i => exec i s

/-- R170 RESPOND and the slot events before it: the event that `pick` chooses among those enabled; when there is
none and every write has ended, the next response word. -/
def State.respondStep (s : State) (pick : Nat) : Host.Outcome State Fault Refusal :=
  match s.slotEvents[pick % s.slotEvents.length]? with
  | some e =>
    match s.runEvent e with
    | some t => .next t
    | none => .fault .noSuchSlot
  | none => .next (if s.settled then s.sendResponse else s)

/-- One executor step (R170). -/
def executorStep (pick : Nat) (s : State) : Host.Outcome State Fault Refusal :=
  match s.exPhase with
  | .idle => .next s.idleStep
  | .collect => .next s.collectStep
  | .apply => s.applyStep
  | .respond => s.respondStep pick

/-! ## The host -/

/-- R76: the host sends one word on the command port. -/
def State.hostSend (s : State) (w : Word) : State := { s with port := s.port ++ [w] }

/-- R32: the host consumes one response word, if there is one it has not consumed. -/
def State.hostConsume (s : State) : State :=
  if s.rspTaken < s.rsp.length then { s with rspTaken := s.rspTaken + 1 } else s

/-! ## One step of one agent -/

/-- R200, R213: one atomic step of the agent the move names. -/
def moveStep (m : Move) (s : State) : Host.Outcome State Fault Refusal :=
  match m with
  | .host w => .next (s.hostSend w)
  | .consume => .next s.hostConsume
  | .executor pick => executorStep pick s
  | .scheduler mask stay => schedulerStep mask stay s
  | .engine => .next (engineStep s)

/-- The step of the machine: draw the next move and let its agent step; a configuration that R230 does not admit
has no run. -/
def machineStep (s : State) : Host.Outcome State Fault Refusal :=
  if s.cfg.admitted then moveStep s.nextMove s.afterDraw else .refused .configNotAdmitted

/-- Place a whole command, header first, as the executor holds it once all its beats are taken (EX_PHASE = APPLY),
and let the executor move next (log 19). -/
def State.loadCommand (s : State) (ws : List Word) : State :=
  { s with
    exPhase := .apply
    exHdr := ws.headD 0
    exCnt := BitVec.ofNat 7 (beats (opField (ws.headD 0)))
    exData := beatVector ws.tail
    moves := Move.executor 0 :: s.moves }

end Sys2Proof.Machine
end

