-- ==== Sys2Proof/Machine/Step.lean ====
section
/-! DEFINITION. One step of the machine, and placing an instruction where the next step runs it. -/

namespace Sys2Proof.Machine

/-- One atomic step of one agent (60_exceptions.md R213), the agent being the one the next move names (log 5). -/
def step (s : State) : Host.Outcome State Fault Refusal := machineStep s

/-- `s` with the instruction whose bits are `w` placed so that the next step runs exactly it (log 19). -/
def State.withFetchWord (s : State) (nbits w : Nat) : State := s.loadCommand (tableWords nbits w)

end Sys2Proof.Machine
end

