-- ==== Sys2Proof/Machine/Assembler.lean ====
section
/-! DEFINITION. The assembler (30_encoding.md R86) and its one pseudo-instruction FILL (R87): a line as operands,
the operands it accepts, the words it assembles to, and the text of a line (log 24). -/

namespace Sys2Proof.Machine

/-- One assembler line: a mnemonic of R86 or FILL (R87), with its operands as numbers. -/
inductive AsmLine where
  | setpixels (cs : List Nat)
  | getpixels
  | setpixel (x y c : Nat)
  | getpixel (x y : Nat)
  | setrot (a : Nat)
  | setrotnr (a : Nat)
  | getrot
  | fill (c : Nat)
  deriving DecidableEq, Repr

/-- R86: a colour operand lies in [0, 0xFFFFFF]. -/
def colourOk (c : Nat) : Bool := decide (c < 2 ^ 24)

/-- The image of 64 colour operands, entry j from operand j. -/
def imageOfColours (cs : List Nat) : Image := Vector.ofFn fun j => BitVec.ofNat 24 (cs.getD j.val 0)

/-- The command of a line before its operands are checked; FILL is SETPIXELS of 64 copies (R87). -/
def AsmLine.toInstr : AsmLine → Instr
  | .setpixels cs => .setpixels (imageOfColours cs)
  | .getpixels => .getpixels
  | .setpixel x y c => .setpixel x y (BitVec.ofNat 24 c)
  | .getpixel x y => .getpixel x y
  | .setrot a => .setrot a
  | .setrotnr a => .setrotnr a
  | .getrot => .getrot
  | .fill c => .setpixels (imageOfColours (List.replicate 64 c))

/-- R86: the operands the assembler accepts: x and y in [0,15], a in [0,65535], c in [0,0xFFFFFF], 64 colours. -/
def AsmLine.accepted : AsmLine → Bool
  | .setpixels cs => decide (cs.length = 64) && cs.all colourOk
  | .setpixel x y c => (Instr.setpixel x y 0).wf && colourOk c
  | .fill c => colourOk c
  | .getpixels | .getrot => true
  | .getpixel x y => (Instr.getpixel x y).wf
  | .setrot a => (Instr.setrot a).wf
  | .setrotnr a => (Instr.setrotnr a).wf

/-- R86: the words of a line; it "refuses any other value". -/
def assembleLine (line : AsmLine) : Option (List Word) :=
  if line.accepted then some (encode line.toInstr) else none

/-! ## The text of a line -/

/-- The digit a character stands for in a base. -/
def digitOf (base : Nat) (c : Char) : Option Nat :=
  let n := c.toNat
  let d := if 48 ≤ n ∧ n ≤ 57 then n - 48 else if 65 ≤ n ∧ n ≤ 70 then n - 55 else if 97 ≤ n ∧ n ≤ 102 then n - 87 else 16
  if d < base then some d else none

/-- The number of a run of digits, none for a character that is no digit. -/
def digitsOf (base : Nat) : Nat → List Char → Option Nat
  | acc, [] => some acc
  | acc, c :: cs =>
    match digitOf base c with
    | some d => digitsOf base (base * acc + d) cs
    | none => none

/-- R86: numbers are decimal or `0x` hexadecimal. -/
def numberOf : List Char → Option Nat
  | [] => none
  | '0' :: 'x' :: c :: cs => digitsOf 16 0 (c :: cs)
  | c :: cs => digitsOf 10 0 (c :: cs)

/-- Blanks at both ends of an operand carry nothing (log 24). -/
def trimBlanks (cs : List Char) : List Char :=
  ((cs.dropWhile (· == ' ')).reverse.dropWhile (· == ' ')).reverse

/-- R86: operands are separated by commas. -/
def splitCommas : List Char → List (List Char)
  | [] => [[]]
  | c :: cs =>
    if c = ',' then [] :: splitCommas cs
    else
      match splitCommas cs with
      | [] => [[c]]
      | field :: fields => (c :: field) :: fields

/-- Every operand as a number, none if one of them is not. -/
def numbersOf : List (List Char) → Option (List Nat)
  | [] => some []
  | f :: fs =>
    match numberOf (trimBlanks f), numbersOf fs with
    | some n, some ns => some (n :: ns)
    | _, _ => none

/-- R86: one command per line, mnemonic then operands. -/
def parseLine (text : List Char) : Option AsmLine :=
  let line := trimBlanks text
  let mnemonic := line.takeWhile (· != ' ')
  let tail := trimBlanks (line.dropWhile (· != ' '))
  match numbersOf (if tail = [] then [] else splitCommas tail) with
  | none => none
  | some ns =>
    if mnemonic = "SETPIXELS".toList then some (.setpixels ns)
    else if mnemonic = "GETPIXELS".toList ∧ ns = [] then some .getpixels
    else if mnemonic = "GETROT".toList ∧ ns = [] then some .getrot
    else
      match ns with
      | [x, y, c] => if mnemonic = "SETPIXEL".toList then some (.setpixel x y c) else none
      | [x, y] => if mnemonic = "GETPIXEL".toList then some (.getpixel x y) else none
      | [a] =>
        if mnemonic = "SETROT".toList then some (.setrot a)
        else if mnemonic = "SETROTNR".toList then some (.setrotnr a)
        else if mnemonic = "FILL".toList then some (.fill a)
        else none
      | _ => none

/-- A line of text as port words (R86). -/
def assembleText (text : List Char) : Option (List Word) :=
  match parseLine text with
  | some line => assembleLine line
  | none => none

end Sys2Proof.Machine
end

