-- ==== Sys2Proof/Safety.lean ====
section
/-! DEFINITION. The terms the claims use: the invariant of the block, the consistency of the shade store
(41_encoder.md R127), runs under given moves and fair schedules (60_exceptions.md R213), the word stream
(42_scheduler.md R141, R153), and the host's view of a command sequence (43_commands.md R171, R179). -/

namespace Sys2Proof.Machine

/-! ## Words of the rules: headers and ROM entries -/

/-- The headers R77 and R84 call an IllegalCommand, field by field: an unassigned OP, or a bit that is not zero in a
field the command does not use. -/
def IllegalHeader (hdr : Word) : Prop :=
  (hdr.toNat % 16 = 0 ∨ 8 ≤ hdr.toNat % 16) ∨
    ((hdr.toNat % 16 = 1 ∨ hdr.toNat % 16 = 2 ∨ hdr.toNat % 16 = 7) ∧ hdr.extractLsb' 4 28 ≠ 0) ∨
    ((hdr.toNat % 16 = 3 ∨ hdr.toNat % 16 = 4) ∧ hdr.extractLsb' 12 20 ≠ 0) ∨
    ((hdr.toNat % 16 = 5 ∨ hdr.toNat % 16 = 6) ∧ hdr.extractLsb' 4 12 ≠ 0)

/-- R79: how many data beats follow a header, by its OP alone. -/
def beatsOf (hdr : Word) : Nat := if hdr.toNat % 16 = 1 then 64 else if hdr.toNat % 16 = 3 then 1 else 0

/-- R86: a line is accepted exactly when its operands are in range, then assembles to `ws`, and these words decode to
`i` with nothing left. -/
def Assembles (line : AsmLine) (inRange : Prop) (ws : List Word) (i : Instr) : Prop :=
  (inRange → assembleLine line = some ws ∧ decodeStream ws = .command i []) ∧
    (¬ inRange → assembleLine line = none)

/-- The entry of page k at display cell `8*r + c`, as a number. -/
def romEntry (k : Fin 4) (r c : Fin 8) : Nat := ((buildRotationMaps.get k).get (cell r c)).toNat

/-- The display cell at which page k shows source cell (row y, column x): R107's table. -/
def displayCell (k : Fin 4) (y x : Fin 8) : Fin 8 × Fin 8 :=
  match k with
  | 0 => (y, x)
  | 1 => (x, flip8 y)
  | 2 => (flip8 y, flip8 x)
  | 3 => (flip8 x, y)

/-! ## The invariant -/

/-- The arrays have the sizes of R23, R30 and R31. -/
def State.Sized (s : State) : Prop :=
  s.sb.length = 8 * s.cfg.shadeCount ∧ s.inflight.length = 8 * s.cfg.shadeCount ∧
    s.lock.length = if s.cfg.shadeLock then s.cfg.shadeCount else 0

/-- The ROMs hold what construction put there (R25, R26, R231). -/
def State.RomsBuilt (s : State) : Prop :=
  s.thresh = computeThresholds s.cfg.shadeCount ∧ s.rotMap = buildRotationMaps

/-- R70, R24: bits 7:0 of a row-word of row r are `1 << r`. -/
def rowSelected (w : Word) (r : Fin 8) : Prop := lowByte w = 1#8 <<< r.val

/-- R24: at every instant `SB[s][r][7:0] = 1 << r`, and so for the old and the new word of a write in flight. -/
def State.StoreOneHot (s : State) : Prop :=
  ∀ sl : Slot, (∀ w, s.sbAt sl = some w → rowSelected w sl.row) ∧
    (∀ rec, s.inflightAt sl = some rec → rowSelected rec.old sl.row ∧ rowSelected rec.new sl.row)

/-- R59: while a write is in flight, `old` is what the slot still holds. -/
def State.InflightOld (s : State) : Prop :=
  ∀ sl rec, s.inflightAt sl = some rec → s.sbAt sl = some rec.old

/-- R27: SCH_S in [0,N), SCH_P in [0,3), and the latched word is a row-word of row SCH_R while it is emitted. -/
def State.SchedulerOk (s : State) : Prop :=
  s.schS.toNat < s.cfg.shadeCount ∧ s.schP.toNat < 3 ∧ (s.schPhase = .emit → rowSelected s.schW s.schR.toFin)

/-- R75: bits 7:0 of a scheduler word are one-hot. -/
def schedulerWord (w : Word) : Prop := ∃ r : Fin 8, rowSelected w r

/-- R28, R149, R154: the queue holds at most QUEUE_DEPTH words, each a scheduler word. -/
def State.QueueOk (s : State) : Prop :=
  s.q.length ≤ s.cfg.queueDepth ∧ ∀ w ∈ s.q, schedulerWord w

/-- R75, R152: every transmitted word is a scheduler word or the idle word. -/
def State.OutOk (s : State) : Prop := ∀ w ∈ s.out, w = idleWord ∨ schedulerWord w

/-- R60: with SHADE_LOCK, a slot is in flight only while its shade's lock is HELD. -/
def State.LockOk (s : State) : Prop :=
  s.cfg.shadeLock = true → ∀ sl, (s.inflightAt sl).isSome = true → s.lockHeld sl.shade = true

/-- R29, R59: EX_PEND names slots that exist, each once, with no write of theirs in flight. -/
def State.PendOk (s : State) : Prop :=
  s.exPend.Nodup ∧ ∀ sl ∈ s.exPend, sl.shade < s.cfg.shadeCount ∧ s.inflightAt sl = none

/-- R29, R170: outside RESPOND nothing is pending, in flight, locked or owed, and in RESPOND a response word is
owed (that the slot events come in RESPOND is log 9, the owed words log 10); EX_CNT counts the beats taken, at most
those the header asks for. -/
structure State.ExecutorOk (s : State) : Prop where
  quiet   : s.exPhase ≠ .respond → s.settled = true ∧ s.exRsp = []
  owing   : s.exPhase = .respond → s.exRsp ≠ []
  collect : s.exPhase = .collect → s.exCnt.toNat ≤ beats (opField s.exHdr)
  apply   : s.exPhase = .apply → s.exCnt.toNat = beats (opField s.exHdr)
  count   : s.exCnt.toNat ≤ 64

/-- R32: the host has consumed no word that was not sent. -/
def State.HostOk (s : State) : Prop := s.rspTaken ≤ s.rsp.length

/-- The invariant of the block. -/
structure State.Inv (s : State) : Prop where
  admitted    : s.cfg.admitted = true
  sized       : s.Sized
  romsBuilt   : s.RomsBuilt
  oneHot      : s.StoreOneHot
  inflightOld : s.InflightOld
  scheduler   : s.SchedulerOk
  queue       : s.QueueOk
  output      : s.OutOk
  locks       : s.LockOk
  pending     : s.PendOk
  executor    : s.ExecutorOk
  host        : s.HostOk

/-! ## The consistency of the shade store (R127) -/

/-- R127: no slot write is in flight and every slot holds `encodeRow(PB, ROT_K, THRESH[s], r)`. -/
def State.Consistent (s : State) : Prop :=
  ∀ sl : Slot, sl.shade < s.cfg.shadeCount → s.inflightAt sl = none ∧ s.sbAt sl = s.encoded sl

/-- What a running command owes the store: every slot is still to write, or in flight towards its encoded word, or
holds it. -/
def State.Converging (s : State) : Prop :=
  ∀ sl : Slot, sl.shade < s.cfg.shadeCount →
    sl ∈ s.exPend ∨
      (∃ rec, s.inflightAt sl = some rec ∧ some rec.new = s.encoded sl) ∨
      (s.inflightAt sl = none ∧ s.sbAt sl = s.encoded sl)

/-- The slots a command writes when it completes (R123, R124, R126, R172–R178). -/
def State.writeSet (s : State) : Instr → List Slot
  | .setpixels _ => allSlots s.cfg.shadeCount
  | .setpixel x y _ =>
    match coord x, coord y with
    | some col, some row => rowSlots s.cfg.shadeCount (pixelRow s.page col row)
    | _, _ => []
  | .setrot a => if (anglePage a).isSome then allSlots s.cfg.shadeCount else []
  | .getpixels | .getpixel _ _ | .setrotnr _ | .getrot => []

/-! ## Runs -/

/-- A finite run: one step for each move, in order, stopping at the first fault or refusal. -/
def runMoves : List Move → State → Host.Outcome State Fault Refusal
  | [], s => .next s
  | m :: ms, s =>
    match moveStep m s with
    | .next t => runMoves ms t
    | .fault e => .fault e
    | .refused e => .refused e

/-- The first `n` moves of a schedule. -/
def takeMoves (sched : Nat → Move) (n : Nat) : List Move := (List.range n).map sched

/-- The run `ms` from `s` ends in `u`, and there the executor is in IDLE for the first time (R170). -/
def CompletesBy (s : State) (ms : List Move) (u : State) : Prop :=
  runMoves ms s = .next u ∧ u.exPhase = .idle ∧
    ∀ k v, k < ms.length → runMoves (ms.take k) s = .next v → v.exPhase ≠ .idle

/-- No slot is written in the run: no write is in flight in any state of it, so none begins and none ends. -/
def quietRun : List Move → State → Bool
  | [], s => s.inflight.all (fun o => o.isNone)
  | m :: ms, s =>
    s.inflight.all (fun o => o.isNone) &&
      match moveStep m s with
      | .next t => quietRun ms t
      | .fault _ | .refused _ => true

/-- The move is a step of the executor. -/
def isExecutorMove : Move → Bool
  | .executor _ => true
  | .host _ | .consume | .scheduler _ _ | .engine => false

/-- The move sends a command word. -/
def isHostSendMove : Move → Bool
  | .host _ => true
  | .consume | .executor _ | .scheduler _ _ | .engine => false

/-- The run `ms` from `s` to `u` serves exactly the words `ws`: they stand on the command port, the executor is in
IDLE, the host sends nothing more, and at the end the port is empty and the executor is in IDLE again. -/
structure Serves (ws : List Word) (ms : List Move) (s u : State) : Prop where
  inv     : s.Inv
  idle    : s.exPhase = .idle
  waiting : s.port = ws
  silent  : ∀ m ∈ ms, isHostSendMove m = false
  run     : runMoves ms s = .next u
  done    : u.exPhase = .idle ∧ u.port = []

/-- The move is a scheduler step that leaves GAP if it is in it. -/
def leavesGapMove : Move → Bool
  | .scheduler _ stay => !stay
  | .host _ | .consume | .executor _ | .engine => false

/-- The move is an engine step. -/
def isEngineMove : Move → Bool
  | .engine => true
  | .host _ | .consume | .executor _ | .scheduler _ _ => false

/-- R213: the executor, the scheduler and the engine get a turn again and again, and the scheduler does not stay in
GAP for ever (R145). A turn of an agent that has a step enabled takes one, so this is weak fairness (log 20).
The host is not bound. -/
def FairSchedule (sched : Nat → Move) : Prop :=
  (∀ n, ∃ m, n ≤ m ∧ isExecutorMove (sched m) = true) ∧
    (∀ n, ∃ m, n ≤ m ∧ leavesGapMove (sched m) = true) ∧
    (∀ n, ∃ m, n ≤ m ∧ isEngineMove (sched m) = true)

/-! ## The word stream -/

/-- R75, R153: a word whose bits 7:0 are zero is an idle word. -/
def isIdle (w : Word) : Bool := lowByte w == 0

/-- R153: what the scheduler has pushed so far: the transmitted words less the idle words, then the queue. -/
def State.stream (s : State) : List Word := s.out.filter (fun w => !isIdle w) ++ s.q

/-- The word a move pushes into the queue (R143): only an EMIT with room pushes one. -/
def pushOf (m : Move) (s : State) : List Word :=
  match m with
  | .scheduler _ _ =>
    if s.schPhase = .emit ∧ s.q.length < s.cfg.queueDepth then
      match s.passMaskAt s.schP with
      | some w => [s.schW ||| w]
      | none => []
    else []
  | .host _ | .consume | .executor _ | .engine => []

/-- The words a run pushes, in push order (R153). -/
def pushesOf : List Move → State → List Word
  | [], _ => []
  | m :: ms, s =>
    match moveStep m s with
    | .next t => pushOf m s ++ pushesOf ms t
    | .fault _ | .refused _ => []

/-- The pushes still owed from SCH_W (R236): `SCH_W | PASS_MASK[p]` for p from SCH_P to 2, in EMIT. -/
def State.owed (s : State) : List Word :=
  if s.schPhase = .emit then (s.cfg.passMask.toList.drop s.schP.toNat).map (s.schW ||| ·) else []

/-- R141: the three pushes of one slot. -/
def State.slotWords (s : State) (sl : Slot) : List Word :=
  match s.sbAt sl with
  | some w => s.cfg.passMask.toList.map (w ||| ·)
  | none => []

/-- R141: the pushes of one whole cycle, shades ascending, rows ascending, passes ascending. -/
def State.cycleWords (s : State) : List Word := (allSlots s.cfg.shadeCount).flatMap s.slotWords

/-! ## The host's view (R171, R179, R234) -/

/-- What the commands read and write for the host: ROT_K and PB. -/
structure View where
  rotK : BitVec 2
  pb   : Image
  deriving DecidableEq, Repr

/-- The view of a state. -/
def State.view (s : State) : View := { rotK := s.rotK, pb := s.pb }

/-- One command on the host's view: the view after it and its response words (R172–R178, R81). -/
def View.run (v : View) : Instr → View × List Word
  | .setpixels img => ({ v with pb := img }, [statusWord .ok])
  | .getpixels => (v, statusWord .ok :: v.pb.toList.map pixelResult)
  | .setpixel x y c =>
    match coord x, coord y with
    | some col, some row => ({ v with pb := v.pb.set (cell row col) c }, [statusWord .ok])
    | _, _ => (v, [statusWord .boundsError])
  | .getpixel x y =>
    match coord x, coord y with
    | some col, some row => (v, [statusWord .ok, pixelResult (v.pb.get (cell row col))])
    | _, _ => (v, [statusWord .boundsError])
  | .setrot a | .setrotnr a =>
    match anglePage a with
    | some k => ({ v with rotK := k }, [statusWord .ok])
    | none => (v, [statusWord .invalidRotation])
  | .getrot => (v, [statusWord .ok, angleResult v.rotK])

/-- A command as it stands on the command port, legal or not: its header and its beats, whatever they hold (R76). -/
structure PortCommand where
  hdr  : Word
  data : List Word
  deriving DecidableEq, Repr

/-- R79: it has exactly the beats its OP asks for. -/
def PortCommand.whole (c : PortCommand) : Prop := c.data.length = beatsOf c.hdr

/-- Its words, in port order. -/
def PortCommand.words (c : PortCommand) : List Word := c.hdr :: c.data

/-- The words of a command as the assembler encodes it (R86). -/
def PortCommand.ofInstr (i : Instr) : PortCommand := { hdr := (encode i).headD 0, data := (encode i).tail }

/-- One command of the port on the host's view; an IllegalCommand answers its code and changes nothing (R84, R205). -/
def View.runPort (v : View) (c : PortCommand) : View × List Word :=
  match decodeCommand c.hdr (beatVector c.data) with
  | .ok i => v.run i
  | .error _ => (v, [statusWord .illegalCommand])

/-- A sequence of commands of the port on the host's view: the view after them and all their response words in order. -/
def View.runAll (v : View) : List PortCommand → View × List Word
  | [] => (v, [])
  | c :: cs => (((v.runPort c).1.runAll cs).1, (v.runPort c).2 ++ ((v.runPort c).1.runAll cs).2)

end Sys2Proof.Machine
end

