-- ==== Sys2Proof/Certificates/Slice0/Obligations.lean ====
section
/-! DEFINITION. The statements for the provers, one for each rule or group of rules of spec/ that says what the block
does. Each docstring names its rule. -/

open Sys2Proof Sys2Proof.Machine

/-! ## Encoding -/

/-- 30_encoding.md R78, R86; words of 43_commands.md R172–R178 and 95_test_vectors.md V2.5, V2.7. -/
def Obligations.SpecWordsDecode : Prop :=
  decodeTableWord 32 0x00000002 = some .getpixels ∧ decodeTableWord 32 0x00000774 = some (.getpixel 7 7) ∧
    decodeTableWord 32 0x005A0005 = some (.setrot 90) ∧ decodeTableWord 32 0x00B40006 = some (.setrotnr 180) ∧
    decodeTableWord 32 0x00000007 = some .getrot ∧
    decodeStream [0x00000523, 0xAB00FF00] = .command (.setpixel 2 5 0x00FF00) [] ∧
    decodeTableWord 32 0x0000000A = none ∧ decodeTableWord 32 0x00001002 = none

/-- R85, R86: decoding the words of a well-formed command gives it back, and leaves what follows it. -/
def Obligations.DecodeOfEncode : Prop :=
  ∀ (i : Instr) (rest : List Word), i.wf = true → decodeStream (encode i ++ rest) = .command i rest

/-- R80, R84: a header that decodes, with its beats, is the encoding of what it decodes to, bits 31:24 of the beats
apart; so no two headers decode to one command. -/
def Obligations.EncodeOfDecode : Prop :=
  ∀ (hdr : Word) (data : Vector Word 64) (i : Instr), decodeCommand hdr data = .ok i →
    i.wf = true ∧
      encode i = hdr :: (data.toList.take (beats (opField hdr))).map fun b => pixelBeat (beatPixel b)

/-- R204: APPLY of such a header answers code 3, and APPLY of any other header decodes a command. -/
def Obligations.IllegalCommandExactly : Prop :=
  ∀ s : State,
    (IllegalHeader s.exHdr → s.applyStep = .next { s with rsp := s.rsp ++ [3], exPhase := .idle }) ∧
      (¬ IllegalHeader s.exHdr → ∃ i, decodeCommand s.exHdr s.exData = .ok i ∧ s.applyStep = exec i s)

/-- R79: the number of beats is told by OP alone, and they are taken whether the command is legal or not. -/
def Obligations.CommandLengthByOpAlone : Prop :=
  ∀ (hdr : Word) (rest : List Word) (n : Nat),
    n = (if hdr.toNat % 16 = 1 then 64 else if hdr.toNat % 16 = 3 then 1 else 0) →
      (rest.length < n → decodeStream (hdr :: rest) = .incomplete) ∧
        (n ≤ rest.length → (∃ i, decodeStream (hdr :: rest) = .command i (rest.drop n)) ∨
          ∃ e, decodeStream (hdr :: rest) = .illegal e (rest.drop n))

/-- R80: bits 23:0 of a beat are its pixel, bits 31:24 are ignored, and beat j is the pixel of source cell j. -/
def Obligations.BeatsGivePixels : Prop :=
  ∀ data : Vector Word 64,
    (∃ img : Image, decodeCommand 0x00000001 data = .ok (.setpixels img) ∧
      ∀ j : Fin 64, img.get j = (data.get j).extractLsb' 0 24) ∧
      ∀ x y : Nat, x < 16 → y < 16 → decodeCommand (headerXY 0x3 x y) data =
        .ok (.setpixel x y ((data.get 0).extractLsb' 0 24))

/-- R86: for each line form, the operands the assembler accepts, the words it gives them, and the command these words
decode to; any other operands are refused. -/
def Obligations.AssemblerAcceptsAndEncodes : Prop :=
  (∀ cs, Assembles (.setpixels cs) (cs.length = 64 ∧ ∀ c ∈ cs, c ≤ 0xFFFFFF)
    (0x00000001 :: cs.map (BitVec.ofNat 32)) (.setpixels (Vector.ofFn fun j => BitVec.ofNat 24 (cs.getD j.val 0)))) ∧
  Assembles .getpixels True [0x00000002] .getpixels ∧
  (∀ x y c, Assembles (.setpixel x y c) (x ≤ 15 ∧ y ≤ 15 ∧ c ≤ 0xFFFFFF)
    [BitVec.ofNat 32 ((y <<< 8) ||| (x <<< 4) ||| 0x3), BitVec.ofNat 32 c] (.setpixel x y (BitVec.ofNat 24 c))) ∧
  (∀ x y, Assembles (.getpixel x y) (x ≤ 15 ∧ y ≤ 15)
    [BitVec.ofNat 32 ((y <<< 8) ||| (x <<< 4) ||| 0x4)] (.getpixel x y)) ∧
  (∀ a, Assembles (.setrot a) (a ≤ 65535) [BitVec.ofNat 32 ((a <<< 16) ||| 0x5)] (.setrot a)) ∧
  (∀ a, Assembles (.setrotnr a) (a ≤ 65535) [BitVec.ofNat 32 ((a <<< 16) ||| 0x6)] (.setrotnr a)) ∧
  Assembles .getrot True [0x00000007] .getrot

/-- R87: `FILL c` assembles to SETPIXELS with 64 copies of c. -/
def Obligations.FillIsSetpixels : Prop :=
  ∀ c : Nat, assembleLine (.fill c) = assembleLine (.setpixels (List.replicate 64 c)) ∧
    (c ≤ 0xFFFFFF → assembleLine (.fill c) = some (0x00000001 :: List.replicate 64 (BitVec.ofNat 32 c)))

/-! ## The ROMs -/

/-- R100: THRESH has N entries and `THRESH[s] = s * floor(255/N)`, which fits its 8 bits. -/
def Obligations.ThresholdValues : Prop :=
  ∀ n, 1 ≤ n → n ≤ 255 → (computeThresholds n).length = n ∧
    ∀ s, s < n → ∃ t, (computeThresholds n)[s]? = some t ∧ t.toNat = s * (255 / n)

/-- R101: the first entry is 0, neighbours differ by `floor(255/N) ≥ 1`, every entry is below 255. -/
def Obligations.ThresholdsStrictlyIncrease : Prop :=
  ∀ n, 1 ≤ n → n ≤ 255 → (computeThresholds n)[0]? = some 0 ∧ 1 ≤ 255 / n ∧
    (∀ (s : Nat) (a b : Chan), (computeThresholds n)[s]? = some a → (computeThresholds n)[s + 1]? = some b →
      b.toNat = a.toNat + 255 / n) ∧
    ∀ t ∈ computeThresholds n, t.toNat < 255

/-- R104, R105, R106: page 0 is the identity, `ROT_MAP[k+1][8*row + col] = ROT_MAP[k][8*(7 - col) + row]`, and the
closed forms of the four pages. -/
def Obligations.RotationRomContents : Prop :=
  (∀ r c : Fin 8, romEntry 0 r c = 8 * r.val + c.val) ∧
    (∀ (k k' : Fin 4) (row col : Fin 8), k'.val = k.val + 1 →
      romEntry k' row col = romEntry k ⟨7 - col.val, by omega⟩ row) ∧
    ∀ r c : Fin 8,
      romEntry 0 r c = 8 * r.val + c.val ∧ romEntry 1 r c = 8 * (7 - c.val) + r.val ∧
        romEntry 2 r c = 63 - (8 * r.val + c.val) ∧ romEntry 3 r c = 8 * c.val + (7 - r.val)

/-- R107: source cell (y, x) appears at that display cell and at no other. -/
def Obligations.RotationInverseMaps : Prop :=
  ∀ (k : Fin 4) (y x r c : Fin 8), romEntry k r c = 8 * y.val + x.val ↔ (r, c) = displayCell k y x

/-- R109: every page is a bijection, page 0 is the identity and page 2 its own inverse; and the derivation of R105,
applied four times, gives any page back. -/
def Obligations.RotationPagesProperties : Prop :=
  (∀ k : Fin 4, Function.Bijective fun d : Fin 64 => sourceCell ((buildRotationMaps.get k).get d)) ∧
    (∀ page : RotPage, nextPage (nextPage (nextPage (nextPage page))) = page) ∧
    (∀ d : Fin 64, sourceCell ((buildRotationMaps.get 0).get d) = d) ∧
    ∀ d : Fin 64, sourceCell ((buildRotationMaps.get 2).get (sourceCell ((buildRotationMaps.get 2).get d))) = d

/-- R125: the row encodePixel rebuilds is the display row that shows source cell `8y + x`, and the words of its slots
are those encodeFull would give them. -/
def Obligations.EncodePixelRowShowsCell : Prop :=
  (∀ (k : Fin 4) (y x : Fin 8), pixelRow (buildRotationMaps.get k) x y = (displayCell k y x).1) ∧
    ∀ (s : State) (y x : Fin 8) (sl : Slot), s.rotMap = buildRotationMaps → sl.row ≠ pixelRow s.page x y →
      ∀ c : Pixel, (s.setPixelAt (cell y x) c).encoded sl = s.encoded sl

/-! ## The encoder -/

/-- R120: the comparator, its corners, and in how many shades a value is active. -/
def Obligations.ComparatorRule : Prop :=
  (∀ v t : Chan, active v t = true ↔ v.toNat ≤ t.toNat) ∧
    ∀ n, 1 ≤ n → n ≤ 255 →
      (∀ t ∈ computeThresholds n, active 0 t = true ∧ active 255 t = false) ∧
      (computeThresholds n).countP (active 0) = n ∧
      ∀ v : Chan, (n - 1) * (255 / n) < v.toNat → (computeThresholds n).countP (active v) = 0

/-- R121, R122: lane b of row r is display cell `8r + (7-b)`; its red output is bit 24+b, its blue 16+b, its green
8+b; bits 7:0 are `1 << r`. -/
def Obligations.EncodeRowLanes : Prop :=
  ∀ (img : Image) (page : RotPage) (t : Chan) (r : Fin 8),
    (∀ b : Fin 8, ∀ p : Pixel, p = img.get (sourceCell (page.get ⟨8 * r.val + (7 - b.val), by omega⟩)) →
      (encodeRow img page t r).getLsbD (24 + b.val) = active (p.extractLsb' 16 8) t ∧
      (encodeRow img page t r).getLsbD (16 + b.val) = active (p.extractLsb' 0 8) t ∧
      (encodeRow img page t r).getLsbD (8 + b.val) = active (p.extractLsb' 8 8) t) ∧
    (encodeRow img page t r).extractLsb' 0 8 = 1#8 <<< r.val

/-- R179, rotation equivalence (90_conflicts.md C7): an image encoded under page 1 is the image `J[i] = I[ROT_MAP[1][i]]`
encoded under page 0. -/
def Obligations.RotationEquivalence : Prop :=
  ∀ (img : Image) (t : Chan) (r : Fin 8),
    encodeRow img (buildRotationMaps.get 1) t r =
      encodeRow (Vector.ofFn fun i => img.get (sourceCell ((buildRotationMaps.get 1).get i))) (buildRotationMaps.get 0) t r

/-! ## Construction and reset -/

/-- R230: which configurations have a block; any other has no initial state and no run. -/
def Obligations.OnlyAdmittedConfigurationsRun : Prop :=
  ∀ c : Config,
    ((State.construct c).isSome = true ↔
      1 ≤ c.shadeCount ∧ c.shadeCount ≤ 255 ∧ (∀ p : Fin 3, (c.passMask.get p).extractLsb' 0 8 = 0) ∧
        1 ≤ c.queueDepth) ∧
    ∀ s : State, s.cfg = c → (State.construct c).isSome = false → step s = .refused .configNotAdmitted

/-- R231 (with R21–R32): what reset leaves, for every configuration that R230 admits. -/
def Obligations.ResetState : Prop :=
  ∀ c : Config, c.admitted = true → ∃ s, State.construct c = some s ∧ s.cfg = c ∧
    s.thresh = computeThresholds c.shadeCount ∧ s.rotMap = buildRotationMaps ∧
    s.rotK = 0 ∧ s.pb = c.resetImage ∧
    (∀ sl : Slot, sl.shade < c.shadeCount → ∃ t, (computeThresholds c.shadeCount)[sl.shade]? = some t ∧
      s.sbAt sl = some (encodeRow c.resetImage rotPage0 t sl.row)) ∧
    (∀ sl : Slot, c.shadeCount ≤ sl.shade → s.sbAt sl = none) ∧
    s.q = [] ∧ s.rsp = [] ∧ (∀ sl : Slot, s.inflightAt sl = none) ∧ (∀ h, s.lockHeld h = false) ∧
    s.exPhase = .idle ∧ s.exCnt = 0 ∧ s.exPend = [] ∧
    s.schS = 0 ∧ s.schR = 0 ∧ s.schP = 0 ∧ s.schPhase = .fetch

/-- The invariant holds after reset, in every admitted configuration. It rests on no value that log 4 chose. -/
def Obligations.ResetHoldsInvariant : Prop :=
  (∀ c : Config, c.admitted = true → (State.resetWith c).Inv) ∧ State.reset.Inv

/-- R127, R233: after reset the shade store is consistent. -/
def Obligations.ResetStoreConsistent : Prop :=
  ∀ c : Config, c.admitted = true → (State.resetWith c).Consistent

/-! ## The whole machine -/

/-- The invariant is kept by every step, whichever agent takes it and whatever it draws. -/
def Obligations.StepKeepsInvariant : Prop :=
  ∀ s t : State, s.Inv → step s = .next t → t.Inv

/-- R201, R207, R208: no error of a command stops the block: from a state that holds the invariant every
step, of every agent with every draw, ends in a next state. That the turn of an agent with no enabled step is a step
too, which changes nothing, is the model's choice (log 6). -/
def Obligations.StepNeverStops : Prop :=
  ∀ s : State, s.Inv → (∃ t, step s = .next t) ∧ ∀ m, ∃ t, moveStep m s = .next t

/-- R24: at every instant of every run, a slot and every value a read of it can give have bits 7:0 equal to
`1 << r`. -/
def Obligations.RowSelectAtEveryInstant : Prop :=
  ∀ (c : Config) (ms : List Move) (s : State), c.admitted = true → runMoves ms (State.resetWith c) = .next s →
    ∀ (sl : Slot) (mask : Word), sl.shade < c.shadeCount →
      ∃ v w, s.sbAt sl = some v ∧ s.readSb sl mask = some w ∧ v.extractLsb' 0 8 = 1#8 <<< sl.row.val ∧
        w.extractLsb' 0 8 = 1#8 <<< sl.row.val

/-- R56: what the steps of each agent leave alone. -/
def Obligations.AgentsWriteOnlyTheirOwn : Prop :=
  ∀ s t : State,
    (∀ pick, executorStep pick s = .next t →
      t.cfg = s.cfg ∧ t.thresh = s.thresh ∧ t.rotMap = s.rotMap ∧ t.q = s.q ∧ t.out = s.out ∧ t.schS = s.schS ∧
        t.schR = s.schR ∧ t.schP = s.schP ∧ t.schPhase = s.schPhase ∧ t.schW = s.schW ∧
        t.rspTaken = s.rspTaken ∧ (∃ ws, t.rsp = s.rsp ++ ws) ∧ (∃ ws, s.port = ws ++ t.port)) ∧
    (∀ mask stay, schedulerStep mask stay s = .next t →
      (∃ ws, t.q = s.q ++ ws) ∧
        t = { s with schS := t.schS, schR := t.schR, schP := t.schP, schPhase := t.schPhase, schW := t.schW, q := t.q }) ∧
    (engineStep s = t → (∃ ws, s.q = ws ++ t.q) ∧ t = { s with q := t.q, out := t.out }) ∧
    (∀ w, moveStep (.host w) s = .next { s with port := s.port ++ [w] }) ∧
    (moveStep .consume s = .next t → t = { s with rspTaken := t.rspTaken })

/-- A step runs the decoded command: in APPLY, with the executor moving next, it is exec of the command
that the header and the beats decode to, at the state after the draw of the move; and so it is after withFetchWord. The
draw of the move (log 5) and what withFetchWord places (log 19) are the model's choices. -/
def Obligations.StepRunsDecodedCommand : Prop :=
  (∀ (s : State) (i : Instr) (pick : Nat), s.cfg.admitted = true → s.nextMove = .executor pick →
    s.exPhase = .apply → decodeCommand s.exHdr s.exData = .ok i → step s = exec i s.afterDraw) ∧
  ∀ (s : State) (nbits w : Nat) (i : Instr), s.cfg.admitted = true → decodeTableWord nbits w = some i →
    step (s.withFetchWord nbits w) = exec i { s.withFetchWord nbits w with moves := s.moves }

/-! ## The executor -/

/-- R205, R206: in APPLY the checks run in their order on the header alone. The first that fails gives the
code, and then nothing changes but the status word sent and the return to IDLE. When none fails the command goes on to
RESPOND, owing status OK first: that this is one step, with the owed words held, is the model's choice and reading
(logs 9, 10). -/
def Obligations.ApplyAnswersCheck : Prop :=
  ∀ (s : State) (pick : Nat) (op : Nat) (bounds angle : Prop), s.exPhase = .apply → op = s.exHdr.toNat % 16 →
    (bounds ↔ (op = 3 ∨ op = 4) ∧ (8 ≤ (s.exHdr.extractLsb' 4 4).toNat ∨ 8 ≤ (s.exHdr.extractLsb' 8 4).toNat)) →
    (angle ↔ (op = 5 ∨ op = 6) ∧ (s.exHdr.extractLsb' 16 16).toNat ∉ [0, 90, 180, 270]) →
      (IllegalHeader s.exHdr → executorStep pick s = .next { s with rsp := s.rsp ++ [3], exPhase := .idle }) ∧
      (¬ IllegalHeader s.exHdr → bounds →
        executorStep pick s = .next { s with rsp := s.rsp ++ [2], exPhase := .idle }) ∧
      (¬ IllegalHeader s.exHdr → angle →
        executorStep pick s = .next { s with rsp := s.rsp ++ [1], exPhase := .idle }) ∧
      (¬ IllegalHeader s.exHdr → ¬ bounds → ¬ angle → ∃ t, executorStep pick s = .next t ∧ t.exPhase = .respond ∧
        t.rsp = s.rsp ∧ t.exRsp.head? = some 0)

/-- R206: the spec's check function, as Flags.lean writes it, decides what APPLY does. That exec of a command
that passes goes to RESPOND at once is the model's choice (log 9). -/
def Obligations.CheckFunctionDecides : Prop :=
  ∀ s : State,
    (checkHeader s.exHdr ≠ .ok → s.applyStep = .next (s.raiseError (checkHeader s.exHdr))) ∧
      (checkHeader s.exHdr = .ok → ∃ i t, decodeCommand s.exHdr s.exData = .ok i ∧ exec i s = .next t ∧
        t.exPhase = .respond)

/-- R170, R79, R80: from IDLE the executor takes a header, whichever it is, and exactly the beats its OP asks for,
whatever they hold, and then stands in APPLY; nothing else has changed. The beats of an illegal header are taken too,
and APPLY discards them (R205). That COLLECT to APPLY is a step of its own is the model's choice (log 9), and that an
entry of EX_DATA keeps its beat a reading (log 23). -/
def Obligations.CommandIsTakenFromPort : Prop :=
  ∀ (s : State) (hdr : Word) (data rest : List Word) (picks : List Nat), s.exPhase = .idle →
    s.port = hdr :: (data ++ rest) → data.length = beatsOf hdr → picks.length = data.length + 2 →
      ∃ t, runMoves (picks.map Move.executor) s = .next t ∧
        t = { s with port := rest, exPhase := .apply, exHdr := hdr, exData := t.exData, exCnt := t.exCnt } ∧
        (∀ k, k < data.length → t.exData[k]? = data[k]?) ∧ t.exCnt.toNat = data.length ∧
        decodeCommand t.exHdr t.exData = decodeCommand hdr (beatVector data) ∧
        (∀ i : Instr, i.wf = true → hdr :: data = encode i → decodeCommand t.exHdr t.exData = .ok i) ∧
        (IllegalHeader hdr → ∀ pick, executorStep pick t = .next { t with rsp := s.rsp ++ [3], exPhase := .idle })

/-- R170: without a word on the command port the executor waits, in IDLE and in COLLECT. That its turn is
then a step that changes nothing is the model's choice (log 6). -/
def Obligations.ExecutorWaitsForHost : Prop :=
  ∀ (s : State) (pick : Nat), s.port = [] →
    (s.exPhase = .idle ∨ (s.exPhase = .collect ∧ s.exCnt.toNat < beats (opField s.exHdr))) →
      executorStep pick s = .next s

/-! ## The commands: what APPLY does, and that it completes -/

/-- R172: SETPIXELS writes the whole pixel store, owes every slot and status OK, and changes nothing else.
That this is one step to RESPOND is the model's choice (log 9), and that the owed words stand in
exRsp its reading (log 10). -/
def Obligations.SetpixelsApplies : Prop :=
  ∀ (s : State) (img : Image), ∃ pend : List Slot,
    exec (.setpixels img) s = .next { s with pb := img, exPhase := .respond, exPend := pend, exRsp := [0] } ∧
      pend.Nodup ∧ ∀ sl, sl ∈ pend ↔ sl.shade < s.cfg.shadeCount

/-- R173: GETPIXELS owes status OK and 64 result words, word j `zext_32(PB[j])`, and changes nothing else.
That this is one step to RESPOND is the model's choice (log 9), that the words are
fixed here and owed in exRsp its reading (log 10), and that they go out one a step its choice (log 11). -/
def Obligations.GetpixelsApplies : Prop :=
  ∀ s : State, ∃ ws : List Word,
    exec .getpixels s = .next { s with exPhase := .respond, exPend := [], exRsp := 0 :: ws } ∧
      ws.length = 64 ∧ ∀ j : Fin 64, ws[j.val]? = some ((s.pb.get j).setWidth 32)

/-- R174, R124: SETPIXEL with x, y below 8 writes PB[8y + x], owes the slots of display row
`ROT_MAP[ROT_K][8y + 7 - x] >> 3` in every shade and status OK, and changes nothing else.
That this is one step to RESPOND is the model's choice (log 9), and that the owed words stand in
exRsp its reading (log 10). -/
def Obligations.SetpixelApplies : Prop :=
  ∀ (s : State) (x y : Fin 8) (c : Pixel), ∃ (pb : Image) (pend : List Slot),
    exec (.setpixel x.val y.val c) s = .next { s with pb := pb, exPhase := .respond, exPend := pend, exRsp := [0] } ∧
      (∀ j : Fin 64, pb.get j = if j.val = 8 * y.val + x.val then c else s.pb.get j) ∧
      pend.Nodup ∧ ∀ sl, sl ∈ pend ↔ sl.shade < s.cfg.shadeCount ∧
        sl.row.val = ((s.rotMap.get s.rotK.toFin).get ⟨8 * y.val + (7 - x.val), by omega⟩).toNat / 8

/-- R175: GETPIXEL with x, y below 8 owes status OK and `zext_32(PB[8*y + x])`, and changes nothing else.
That this is one step to RESPOND is the model's choice (log 9), that the words are
fixed here and owed in exRsp its reading (log 10), and that they go out one a step its choice (log 11). -/
def Obligations.GetpixelApplies : Prop :=
  ∀ (s : State) (x y : Fin 8),
    exec (.getpixel x.val y.val) s = .next { s with
      exPhase := .respond, exPend := [], exRsp := [0, (s.pb.get ⟨8 * y.val + x.val, by omega⟩).setWidth 32] }

/-- R176, R126: SETROT with a valid angle sets ROT_K, owes every slot and status OK, and changes nothing else.
That this is one step to RESPOND is the model's choice (log 9), and that the owed words stand in
exRsp its reading (log 10). -/
def Obligations.SetrotApplies : Prop :=
  ∀ (s : State) (k : Fin 4), ∃ pend : List Slot,
    exec (.setrot (90 * k.val)) s = .next { s with
      rotK := BitVec.ofNat 2 k.val, exPhase := .respond, exPend := pend, exRsp := [0] } ∧
      pend.Nodup ∧ ∀ sl, sl ∈ pend ↔ sl.shade < s.cfg.shadeCount

/-- R177, R126: SETROTNR with a valid angle sets ROT_K, owes no slot and status OK, and changes nothing else.
That this is one step to RESPOND is the model's choice (log 9), that the words are
fixed here and owed in exRsp its reading (log 10), and that they go out one a step its choice (log 11). -/
def Obligations.SetrotnrApplies : Prop :=
  ∀ (s : State) (k : Fin 4),
    exec (.setrotnr (90 * k.val)) s = .next { s with
      rotK := BitVec.ofNat 2 k.val, exPhase := .respond, exPend := [], exRsp := [0] }

/-- R178: GETROT owes status OK and `zext_32(90 * ROT_K)`, and changes nothing else.
That this is one step to RESPOND is the model's choice (log 9), that the words are
fixed here and owed in exRsp its reading (log 10), and that they go out one a step its choice (log 11). -/
def Obligations.GetrotApplies : Prop :=
  ∀ s : State,
    exec .getrot s = .next { s with
      exPhase := .respond, exPend := [], exRsp := [0, BitVec.ofNat 32 (90 * s.rotK.toNat)] }

/-- R203: SETPIXEL and GETPIXEL with a coordinate of 8 or more answer code 2 and change nothing else. -/
def Obligations.BoundsErrorChangesNothing : Prop :=
  ∀ (s : State) (x y : Nat) (c : Pixel), 8 ≤ x ∨ 8 ≤ y →
    exec (.setpixel x y c) s = .next { s with rsp := s.rsp ++ [2], exPhase := .idle } ∧
      exec (.getpixel x y) s = .next { s with rsp := s.rsp ++ [2], exPhase := .idle }

/-- R202: SETROT and SETROTNR with another angle answer code 1 and change nothing else. -/
def Obligations.InvalidRotationChangesNothing : Prop :=
  ∀ (s : State) (a : Nat), a ≠ 0 → a ≠ 90 → a ≠ 180 → a ≠ 270 →
    exec (.setrot a) s = .next { s with rsp := s.rsp ++ [1], exPhase := .idle } ∧
      exec (.setrotnr a) s = .next { s with rsp := s.rsp ++ [1], exPhase := .idle }

/-! ## The commands: from APPLY to the last response word -/

/-- R170–R178: whatever the order of the slot events and the steps of the other agents between them, when a command's
run ends, its registers and pixel store are its rule's, its response words stand at the end of RSP, no write is in
flight, the slots of its write set hold their encoded words and every other slot is unchanged. -/
def Obligations.CommandRunsToItsRule : Prop :=
  ∀ (s : State) (i : Instr) (ms : List Move) (u : State), s.Inv → s.exPhase = .apply →
    decodeCommand s.exHdr s.exData = .ok i → CompletesBy s ms u →
      u.view = (s.view.run i).1 ∧ u.rsp = s.rsp ++ (s.view.run i).2 ∧
        ∀ sl : Slot, sl.shade < s.cfg.shadeCount →
          u.inflightAt sl = none ∧ (sl ∈ s.writeSet i → u.sbAt sl = u.encoded sl) ∧
            (sl ∉ s.writeSet i → u.sbAt sl = s.sbAt sl)

/-- R127: a command leaves a consistent store consistent, unless it is a SETROTNR that changes ROT_K; SETPIXELS, and
SETROT with a valid angle, make any store consistent. -/
def Obligations.CommandsKeepConsistency : Prop :=
  ∀ (s : State) (i : Instr) (ms : List Move) (u : State), s.Inv → s.exPhase = .apply →
    decodeCommand s.exHdr s.exData = .ok i → CompletesBy s ms u →
      (s.Consistent → (∀ a, i = .setrotnr a → anglePage a = none ∨ anglePage a = some s.rotK) → u.Consistent) ∧
        (((∃ img, i = .setpixels img) ∨ ∃ a k, i = .setrot a ∧ anglePage a = some k) → u.Consistent)

/-- R171, R179, R234: for every interleaving, the responses to a sequence of commands on the port, legal or not and
with any beats, are those of the commands one after the other on ROT_K and PB; and for the words of a well-formed
command these are the command's. -/
def Obligations.CommandSequenceAnswers : Prop :=
  (∀ (s u : State) (cs : List PortCommand) (ms : List Move), (∀ c ∈ cs, c.whole) →
    Serves (cs.flatMap PortCommand.words) ms s u →
      u.view = (s.view.runAll cs).1 ∧ u.rsp = s.rsp ++ (s.view.runAll cs).2) ∧
  ∀ i : Instr, i.wf = true → (PortCommand.ofInstr i).whole ∧ (PortCommand.ofInstr i).words = encode i ∧
    ∀ v : View, v.runPort (PortCommand.ofInstr i) = v.run i

/-- R179, the round trip and the single cell, of every run: SETPIXELS then GETPIXELS answers the image; SETPIXEL then
GETPIXEL of the same cell answers its color, and of every other cell what the pixel store held before. -/
def Obligations.PixelRoundTrips : Prop :=
  (∀ (s u : State) (img : Image) (ms : List Move),
    Serves (encode (.setpixels img) ++ encode .getpixels) ms s u →
      u.rsp = s.rsp ++ 0 :: 0 :: img.toList.map (fun p => p.setWidth 32)) ∧
  ∀ (s u : State) (x y x' y' : Fin 8) (c : Pixel) (ms : List Move),
    Serves (encode (.setpixel x.val y.val c) ++ encode (.getpixel x'.val y'.val)) ms s u →
      u.rsp = s.rsp ++ [0, 0, if x' = x ∧ y' = y then c.setWidth 32
        else (s.pb.get ⟨8 * y'.val + x'.val, by omega⟩).setWidth 32]

/-- R170, R213: under a fair schedule every command that has reached APPLY ends. That fairness is a property of
schedules, with a turn for an agent that waits, is the model's choice (logs 6, 20). -/
def Obligations.EveryCommandCompletes : Prop :=
  ∀ (s : State) (sched : Nat → Move), s.Inv → (s.exPhase = .apply ∨ s.exPhase = .respond) → FairSchedule sched →
    ∃ n u, runMoves (takeMoves sched n) s = .next u ∧ u.exPhase = .idle

/-- R170, R171, R213: under a fair schedule, and with nothing more sent by the host, every command waiting on the
command port, legal or not and with any beats, is answered, in order, as its rule says. That fairness is a property of
schedules, with a turn for an agent that waits, is the model's choice (logs 6, 20). -/
def Obligations.FairRunAnswersEveryCommand : Prop :=
  ∀ (s : State) (cs : List PortCommand) (sched : Nat → Move), s.Inv → s.exPhase = .idle →
    (∀ c ∈ cs, c.whole) → s.port = cs.flatMap PortCommand.words → (∀ n, isHostSendMove (sched n) = false) →
    FairSchedule sched →
      ∃ n u, runMoves (takeMoves sched n) s = .next u ∧ u.exPhase = .idle ∧ u.port = [] ∧
        u.view = (s.view.runAll cs).1 ∧ u.rsp = s.rsp ++ (s.view.runAll cs).2

/-! ## The shade store -/

/-- R57, R58: a read gives the committed value, or mixes old and new under the drawn mask while a write is in
flight. R58 says the latter for SHADE_LOCK = false; that it is said here whatever SHADE_LOCK is, is the model's reading
(log 27). -/
def Obligations.ReadsOfTheStore : Prop :=
  ∀ (s : State) (sl : Slot) (mask v : Word), s.sbAt sl = some v →
    (s.inflightAt sl = none → s.readSb sl mask = some v) ∧
      ∀ rec, s.inflightAt sl = some rec → s.readSb sl mask = some ((rec.old &&& ~~~mask) ||| (rec.new &&& mask))

/-- R59, R60: any slot still to write may begin next (with its shade's lock held, if there is a lock), and any write in
flight may end next; with SHADE_LOCK any FREE lock of a shade with a slot to write may be taken next, and any HELD lock
of a shade with none to write and none in flight may be given back next; what each event changes, and that it changes
nothing else. That a lock may be taken or given back whichever others are held is the model's reading (log 21), as are
the slot leaving EX_PEND at its begin event (log 8), the new word being computed there (log 12) and a pick choosing
among the events (log 7); that the events come while EX_PHASE is RESPOND is its choice (log 9). It says that each of
these events may come next, not that no other may. -/
def Obligations.SlotWriteEvents : Prop :=
  ∀ (s : State), s.Inv → s.exPhase = .respond →
    (∀ sl, sl ∈ s.exPend → (s.cfg.shadeLock = true → s.lockHeld sl.shade = true) →
      ∃ (pick : Nat) (t : State) (old new : Word), executorStep pick s = .next t ∧
        s.sbAt sl = some old ∧ s.encoded sl = some new ∧
        t.inflightAt sl = some { old := old, new := new } ∧
        (∀ x, x ≠ sl → t.inflightAt x = s.inflightAt x) ∧ (∀ x, x ∈ t.exPend ↔ x ∈ s.exPend ∧ x ≠ sl) ∧
        t = { s with inflight := t.inflight, exPend := t.exPend }) ∧
    (∀ sl rec, s.inflightAt sl = some rec →
      ∃ (pick : Nat) (t : State), executorStep pick s = .next t ∧
        t.sbAt sl = some rec.new ∧ t.inflightAt sl = none ∧
        (∀ x, x ≠ sl → t.sbAt x = s.sbAt x ∧ t.inflightAt x = s.inflightAt x) ∧
        t = { s with sb := t.sb, inflight := t.inflight }) ∧
    (∀ h, s.cfg.shadeLock = true → s.lockHeld h = false → (∃ sl ∈ s.exPend, sl.shade = h) →
      ∃ (pick : Nat) (t : State), executorStep pick s = .next t ∧ t.lockHeld h = true ∧
        (∀ x, x ≠ h → t.lockHeld x = s.lockHeld x) ∧ t = { s with lock := t.lock }) ∧
    (∀ h, s.cfg.shadeLock = true → s.lockHeld h = true → (∀ sl ∈ s.exPend, sl.shade ≠ h) →
      (∀ sl : Slot, sl.shade = h → s.inflightAt sl = none) →
      ∃ (pick : Nat) (t : State), executorStep pick s = .next t ∧ t.lockHeld h = false ∧
        (∀ x, x ≠ h → t.lockHeld x = s.lockHeld x) ∧ t = { s with lock := t.lock })

/-- R60, with SHADE_LOCK: a FETCH of a shade that is HELD waits; a write begins only under its shade's lock; a lock is
taken only when FREE with a slot of its shade to write, and given back only when none of its slots is to write or in
flight; taking it makes it HELD and giving it back FREE, and no step of the executor changes a lock otherwise; so no
FETCH is torn. That the turn of a waiting FETCH is a step that changes nothing is the model's choice (log 6), and so is
that a lock changes only while EX_PHASE is RESPOND (log 9). -/
def Obligations.LockExcludesTearing : Prop :=
  ∀ s : State, s.Inv → s.cfg.shadeLock = true →
    (∀ mask stay, s.schPhase = .fetch → s.lockHeld s.schS.toNat = true → schedulerStep mask stay s = .next s) ∧
    (∀ sl, SlotEvent.beginSlot sl ∈ s.slotEvents → s.lockHeld sl.shade = true) ∧
    (∀ h, SlotEvent.acquire h ∈ s.slotEvents → s.lockHeld h = false ∧ (∃ sl ∈ s.exPend, sl.shade = h) ∧
      ∃ t, s.runEvent (.acquire h) = some t ∧ t.lockHeld h = true ∧ t = { s with lock := t.lock }) ∧
    (∀ h, SlotEvent.release h ∈ s.slotEvents → (∀ sl ∈ s.exPend, sl.shade ≠ h) ∧
      (∀ sl : Slot, sl.shade = h → s.inflightAt sl = none) ∧
      ∃ t, s.runEvent (.release h) = some t ∧ t.lockHeld h = false ∧ t = { s with lock := t.lock }) ∧
    (∀ pick t h, executorStep pick s = .next t → t.lockHeld h ≠ s.lockHeld h →
      s.exPhase = .respond ∧ (t.lockHeld h = true → SlotEvent.acquire h ∈ s.slotEvents) ∧
        (t.lockHeld h = false → SlotEvent.release h ∈ s.slotEvents)) ∧
    (∀ mask stay t, s.schPhase = .fetch → s.lockHeld s.schS.toNat = false → schedulerStep mask stay s = .next t →
      s.sbAt s.schSlot = some t.schW)

/-! ## The scheduler, the queue and the engine -/

/-- R142: FETCH latches what the read of its slot gives and goes to EMIT; with SHADE_LOCK it waits while the
lock of its shade is HELD. That its turn is then a step that changes nothing is the model's choice (log 6). -/
def Obligations.FetchLatchesSlot : Prop :=
  ∀ (s : State) (mask : Word) (stay : Bool), s.Inv → s.schPhase = .fetch →
    ((s.cfg.shadeLock = true → s.lockHeld s.schS.toNat = false) →
      ∃ w, s.readSb { shade := s.schS.toNat, row := s.schR.toFin } mask = some w ∧
        schedulerStep mask stay s = .next { s with schW := w, schP := 0, schPhase := .emit }) ∧
    (s.cfg.shadeLock = true → s.lockHeld s.schS.toNat = true → schedulerStep mask stay s = .next s)

/-- R143, R144: EMIT with room pushes `SCH_W | PASS_MASK[SCH_P]` at the tail and advances; without room it
waits. That its turn is then a step that changes nothing is the model's choice (log 6). -/
def Obligations.EmitPushesAndAdvances : Prop :=
  ∀ (s : State) (mask : Word) (stay : Bool) (p : Fin 3), s.schPhase = .emit → s.schP.toNat = p.val →
    (s.cfg.queueDepth ≤ s.q.length → schedulerStep mask stay s = .next s) ∧
    (s.q.length < s.cfg.queueDepth → ∃ t, schedulerStep mask stay s = .next t ∧
      t.q = s.q ++ [s.schW ||| s.cfg.passMask.get p] ∧ t.schW = s.schW ∧
      (p.val < 2 → t.schP.toNat = p.val + 1 ∧ t.schR = s.schR ∧ t.schS = s.schS ∧ t.schPhase = .emit) ∧
      (p.val = 2 → s.schR.toNat < 7 → t.schP = 0 ∧ t.schR.toNat = s.schR.toNat + 1 ∧ t.schS = s.schS ∧
        t.schPhase = .fetch) ∧
      (p.val = 2 → s.schR.toNat = 7 → s.schS.toNat + 1 < s.cfg.shadeCount → s.cfg.shadeCount ≤ 255 →
        t.schP = 0 ∧ t.schR = 0 ∧ t.schS.toNat = s.schS.toNat + 1 ∧ t.schPhase = .fetch) ∧
      (p.val = 2 → s.schR.toNat = 7 → s.cfg.shadeCount ≤ s.schS.toNat + 1 →
        t.schP = 0 ∧ t.schR = 0 ∧ t.schS = 0 ∧ t.schPhase = .gap))

/-- R145: a GAP step stays or goes to FETCH, as drawn, and does nothing else. -/
def Obligations.GapStaysOrLeaves : Prop :=
  ∀ (s : State) (mask : Word), s.schPhase = .gap →
    schedulerStep mask true s = .next s ∧ schedulerStep mask false s = .next { s with schPhase := .fetch }

/-- R141: while no slot is written, whatever else the agents do, the words pushed from FETCH (0,0) on are those of whole
cycles one after the other: shades ascending, rows ascending, passes ascending. -/
def Obligations.CycleIsStreamed : Prop :=
  ∀ (s : State) (ms : List Move) (t : State), s.Inv → s.schPhase = .fetch → s.schS = 0 → s.schR = 0 →
    quietRun ms s = true → runMoves ms s = .next t →
      ∃ n k, t.stream ++ t.owed = s.stream ++ ((List.replicate n s.cycleWords).flatten).take k

/-- R62, R153: in every run, OUT without its idle words, followed by the queue, grows by exactly the words pushed, in
push order, and every word of OUT with bits 7:0 zero is the idle word. -/
def Obligations.OutIsThePushSequence : Prop :=
  ∀ (s : State) (ms : List Move) (t : State), s.Inv → runMoves ms s = .next t →
    t.stream = s.stream ++ pushesOf ms s ∧ ∀ w ∈ t.out, lowByte w = 0 → w = 0

/-- R150: the engine's word step. -/
def Obligations.EngineTakesHeadOrIdle : Prop :=
  ∀ s : State,
    (∀ w ws, s.q = w :: ws → moveStep .engine s = .next { s with q := ws, out := s.out ++ [w] }) ∧
      (s.q = [] → moveStep .engine s = .next { s with out := s.out ++ [0x00000000] })

/-- R151: for each word the engine asserts enable, sends the bits w[31], w[30], …, w[0], each with one clock pulse, and
deasserts enable; this is what an engine step adds to what has gone out on the lines. -/
def Obligations.WordsGoOutMsbFirst : Prop :=
  ∀ (s : State) (w : Word), w = s.q.headD 0 →
    ∃ (t : State) (bits : List Bool), moveStep .engine s = .next t ∧ bits.length = 32 ∧
      (∀ i, i < 32 → bits[i]? = some (w.getLsbD (31 - i))) ∧
      t.lineEvents = s.lineEvents ++
        ([LineEvent.assertEnable] ++ bits.map (fun b => LineEvent.dataBit b 1) ++ [LineEvent.deassertEnable])

/-- R236: once the store is consistent, and while no slot is written, every word pushed from a later FETCH carries its
values; at most QUEUE_DEPTH + 3 words from earlier FETCHes come before them. -/
def Obligations.PropagationDelay : Prop :=
  ∀ (s : State) (ms : List Move) (t : State), s.Inv → s.Consistent → quietRun ms s = true →
    runMoves ms s = .next t →
      (s.q ++ s.owed).length ≤ s.cfg.queueDepth + 3 ∧
        ∃ fresh, t.stream ++ t.owed = s.stream ++ s.owed ++ fresh ∧
          ∀ w ∈ fresh, ∃ (sl : Slot) (p : Fin 3) (v : Word), sl.shade < s.cfg.shadeCount ∧
            s.encoded sl = some v ∧ w = v ||| s.cfg.passMask.get p

/-- R146: the scheduler reads neither PB, ROT_K, THRESH nor ROT_MAP: with any other values of these its step is the
same, those values apart. -/
def Obligations.SchedulerIgnoresPixelStore : Prop :=
  ∀ (s : State) (mask : Word) (stay : Bool) (pb : Image) (k : BitVec 2) (th : List Chan) (rm : Vector RotPage 4),
    schedulerStep mask stay { s with pb := pb, rotK := k, thresh := th, rotMap := rm } =
      match schedulerStep mask stay s with
      | .next t => .next { t with pb := pb, rotK := k, thresh := th, rotMap := rm }
      | .fault e => .fault e
      | .refused e => .refused e

/-! ## The laws of every run that are about the shade store -/

/-- R179, of every run: after SETPIXELS every slot has its row-select byte; FILL 0x000000 leaves colour bytes 0xFF in
every slot; SETROT and SETROTNR with another angle answer InvalidRotation and leave ROT_K, PB and SB unchanged; from
ROT_K = 0, SETPIXELS I then SETROT 90 leaves SB equal to what SETPIXELS J at ROT_K = 0 gives, `J[i] = I[ROT_MAP[1][i]]`
(90_conflicts.md C7). -/
def Obligations.HostLawsOfTheStore : Prop :=
  ∀ (s u : State) (ms : List Move),
    (∀ img : Image, Serves (encode (.setpixels img)) ms s u → ∀ sl : Slot, sl.shade < s.cfg.shadeCount →
      ∃ w, u.sbAt sl = some w ∧ w.extractLsb' 0 8 = 1#8 <<< sl.row.val) ∧
    (∀ ws, assembleLine (.fill 0) = some ws → Serves ws ms s u → ∀ sl : Slot, sl.shade < s.cfg.shadeCount →
      ∃ w, u.sbAt sl = some w ∧ w.extractLsb' 8 24 = 0xFFFFFF) ∧
    (∀ (a : Nat) (i : Instr), a < 65536 → a ≠ 0 → a ≠ 90 → a ≠ 180 → a ≠ 270 → i = .setrot a ∨ i = .setrotnr a →
      Serves (encode i) ms s u →
        u.rsp = s.rsp ++ [1] ∧ u.rotK = s.rotK ∧ u.pb = s.pb ∧ ∀ sl : Slot, u.sbAt sl = s.sbAt sl) ∧
    ∀ (img img' : Image) (s' u' : State) (ms' : List Move), s'.cfg = s.cfg → s.rotK = 0 → s'.rotK = 0 →
      (∀ d : Fin 64, img'.get d = img.get (sourceCell ((buildRotationMaps.get 1).get d))) →
      Serves (encode (.setpixels img) ++ encode (.setrot 90)) ms s u →
      Serves (encode (.setpixels img')) ms' s' u' → ∀ sl : Slot, u.sbAt sl = u'.sbAt sl
end

