-- ==== Sys2Proof/Laws/Decode.lean ====
section
/-! SUPPORT. The opcode table and the decoder, once for all later proofs (R77–R85). -/

namespace Sys2Proof

/-- R77: OP is the header's value modulo 16. -/
theorem opField_toNat (hdr : Word) : (opField hdr).toNat = hdr.toNat % 16 := by simp [opField]

/-- R78: an OP has no row exactly when it is 0x0 or in 0x8–0xF. -/
theorem opRow_eq_none_iff (op : BitVec 4) : opRow op = none ↔ op = 0 ∨ 8 ≤ op.toNat := by
  revert op
  decide

/-- R79: SETPIXELS has 64 beats, SETPIXEL one, every other OP none. -/
theorem beats_eq (op : BitVec 4) : beats op = if op = 1 then 64 else if op = 3 then 1 else 0 := by
  revert op
  decide

/-- R84: a header of an unassigned OP does not decode. -/
theorem decodeCommand_unassigned {hdr : Word} (data : Vector Word 64) (h : opRow (opField hdr) = none) :
    decodeCommand hdr data = .error .unassignedOp := by
  simp [decodeCommand, h]

/-- R84: a header that fails its row's mask does not decode. -/
theorem decodeCommand_illegalField {hdr : Word} {row : OpRow} (data : Vector Word 64)
    (h : opRow (opField hdr) = some row) (hm : hdr &&& row.mask ≠ row.value) :
    decodeCommand hdr data = .error .illegalField := by
  simp [decodeCommand, h, hm]

/-- R83, R84: a header that passes its row's mask decodes to the command of its OP. -/
theorem decodeCommand_legal {hdr : Word} {row : OpRow} (data : Vector Word 64)
    (h : opRow (opField hdr) = some row) (hm : hdr &&& row.mask = row.value) :
    decodeCommand hdr data = buildInstr hdr data := by
  simp [decodeCommand, h, hm]

/-- R85: a whole command at the head of a stream is decoded from its header and its beats. -/
theorem decodeStream_cons (hdr : Word) (bs rest : List Word) (h : bs.length = beats (opField hdr)) :
    decodeStream (hdr :: (bs ++ rest)) =
      match decodeCommand hdr (beatVector bs) with
      | .ok i => .command i rest
      | .error e => .illegal e rest := by
  have h1 : ¬ (bs ++ rest).length < bs.length := by simp
  simp only [decodeStream, ← h, if_neg h1, List.take_left, List.drop_left] <;> rfl

/-- R86: zero extension of a pixel to a beat loses nothing. -/
@[simp] theorem beatPixel_pixelBeat (c : Pixel) : beatPixel (pixelBeat c) = c := by
  apply BitVec.eq_of_getLsbD_eq
  intro i hi
  have : i < 32 := by omega
  simp [beatPixel, pixelBeat, hi, this]

/-- R80: the k-th beat of a list of beats. -/
theorem beatVector_get (ws : List Word) (j : Fin 64) : (beatVector ws).get j = ws.getD j.val 0 := by
  have : (beatVector ws).get j = (beatVector ws)[j.val] := rfl
  rw [this]
  simp [beatVector]

/-- A word is its three slices, wherever the two cuts are. -/
theorem word_slices (w : Word) {a b c : Nat} (h : a + b + c = 32) :
    w = ((w.extractLsb' (c + b) a ++ w.extractLsb' c b) ++ w.extractLsb' 0 c).cast h := by
  apply BitVec.eq_of_getLsbD_eq
  intro i hi
  simp only [BitVec.getLsbD_cast, BitVec.getLsbD_append, BitVec.getLsbD_extractLsb']
  by_cases h1 : i < c
  · simp [h1]
  · by_cases h2 : i - c < b
    · simp [h1, h2, show c + (i - c) = i by omega]
    · simp [h1, h2, show c + b + (i - c - b) = i by omega, show i - c - b < a by omega]

/-- R77: a header under a mask that keeps OP is a bare OP exactly when its OP is that and the rest it keeps is zero. -/
theorem and_mask_iff (hdr : Word) (op : BitVec 4) {a b : Nat} (h : a + b + 4 = 32) (hi : BitVec a) (mid : BitVec b) :
    hdr &&& ((hi ++ mid) ++ BitVec.allOnes 4).cast h = op.setWidth 32 ↔
      opField hdr = op ∧ hdr.extractLsb' (4 + b) a &&& hi = 0 ∧ hdr.extractLsb' 4 b &&& mid = 0 := by
  have ho : op.setWidth 32 = ((0#a ++ 0#b) ++ op).cast h := by
    apply BitVec.eq_of_getLsbD_eq
    intro i hi
    simp only [BitVec.getLsbD_cast, BitVec.getLsbD_append, BitVec.getLsbD_setWidth]
    by_cases h1 : i < 4 <;> simp [h1, hi]
    exact BitVec.getLsbD_of_ge _ _ (by omega)
  have hc : ∀ x y : BitVec (a + b + 4), x.cast h &&& y.cast h = (x &&& y).cast h := by
    intro x y
    apply BitVec.eq_of_getLsbD_eq
    simp
  conv_lhs => rw [ho, word_slices hdr h, hc, BitVec.and_append, BitVec.and_append, BitVec.and_allOnes]
  constructor
  · intro e
    have g (i : Nat) := congrArg (fun v : BitVec (a + b + 4) => v.getLsbD i) (congrArg (BitVec.cast h.symm) e)
    simp only [BitVec.cast_cast, BitVec.cast_eq, BitVec.getLsbD_append] at g
    refine ⟨?_, ?_, ?_⟩ <;> apply BitVec.eq_of_getLsbD_eq <;> intro i hi
    · simpa [hi, opField] using g i
    · simpa [hi, show ¬ i + b + 4 < 4 by omega, show ¬ i + b + 4 - 4 < b by omega,
        show i + b + 4 - 4 - b = i by omega] using g (i + b + 4)
    · simpa [hi] using g (i + 4)
  · rintro ⟨e1, e2, e3⟩
    rw [e2, e3, show hdr.extractLsb' 0 4 = op from e1]
    rfl

/-- R77, format H0: bits 31:4 are zero. -/
theorem maskH0_iff (hdr : Word) (op : BitVec 4) :
    hdr &&& 0xFFFFFFFF = op.setWidth 32 ↔ opField hdr = op ∧ hdr.extractLsb' 4 28 = 0 := by
  have h := and_mask_iff hdr op (a := 28) (b := 0) rfl (BitVec.allOnes 28) 0#0
  rw [BitVec.and_allOnes] at h
  simpa using h

/-- R77, format HXY: bits 31:12 are zero. -/
theorem maskHXY_iff (hdr : Word) (op : BitVec 4) :
    hdr &&& 0xFFFFF00F = op.setWidth 32 ↔ opField hdr = op ∧ hdr.extractLsb' 12 20 = 0 := by
  have h := and_mask_iff hdr op (a := 20) (b := 8) rfl (BitVec.allOnes 20) 0#8
  rw [BitVec.and_allOnes] at h
  simpa using h

/-- R77, format HA: bits 15:4 are zero. -/
theorem maskHA_iff (hdr : Word) (op : BitVec 4) :
    hdr &&& 0x0000FFFF = op.setWidth 32 ↔ opField hdr = op ∧ hdr.extractLsb' 4 12 = 0 := by
  have h := and_mask_iff hdr op (a := 16) (b := 12) rfl 0#16 (BitVec.allOnes 12)
  rw [BitVec.and_allOnes] at h
  simpa using h

end Sys2Proof
end

