-- ==== Sys2Proof/Laws/State.lean ====
section
/-! SUPPORT. One lemma for each field of each named update of State, so that no proof unfolds a record update. -/

namespace Sys2Proof.Machine

variable (s : State)

/-! ## setImage -/

@[simp] theorem State.setImage_cfg (img : Image) : (s.setImage img).cfg = s.cfg := rfl
@[simp] theorem State.setImage_rotK (img : Image) : (s.setImage img).rotK = s.rotK := rfl
@[simp] theorem State.setImage_pb (img : Image) : (s.setImage img).pb = img := rfl
@[simp] theorem State.setImage_sb (img : Image) : (s.setImage img).sb = s.sb := rfl
@[simp] theorem State.setImage_thresh (img : Image) : (s.setImage img).thresh = s.thresh := rfl
@[simp] theorem State.setImage_rotMap (img : Image) : (s.setImage img).rotMap = s.rotMap := rfl
@[simp] theorem State.setImage_schS (img : Image) : (s.setImage img).schS = s.schS := rfl
@[simp] theorem State.setImage_schR (img : Image) : (s.setImage img).schR = s.schR := rfl
@[simp] theorem State.setImage_schP (img : Image) : (s.setImage img).schP = s.schP := rfl
@[simp] theorem State.setImage_schPhase (img : Image) : (s.setImage img).schPhase = s.schPhase := rfl
@[simp] theorem State.setImage_schW (img : Image) : (s.setImage img).schW = s.schW := rfl
@[simp] theorem State.setImage_q (img : Image) : (s.setImage img).q = s.q := rfl
@[simp] theorem State.setImage_exPhase (img : Image) : (s.setImage img).exPhase = s.exPhase := rfl
@[simp] theorem State.setImage_exHdr (img : Image) : (s.setImage img).exHdr = s.exHdr := rfl
@[simp] theorem State.setImage_exData (img : Image) : (s.setImage img).exData = s.exData := rfl
@[simp] theorem State.setImage_exCnt (img : Image) : (s.setImage img).exCnt = s.exCnt := rfl
@[simp] theorem State.setImage_exPend (img : Image) : (s.setImage img).exPend = s.exPend := rfl
@[simp] theorem State.setImage_exRsp (img : Image) : (s.setImage img).exRsp = s.exRsp := rfl
@[simp] theorem State.setImage_inflight (img : Image) : (s.setImage img).inflight = s.inflight := rfl
@[simp] theorem State.setImage_lock (img : Image) : (s.setImage img).lock = s.lock := rfl
@[simp] theorem State.setImage_rsp (img : Image) : (s.setImage img).rsp = s.rsp := rfl
@[simp] theorem State.setImage_rspTaken (img : Image) : (s.setImage img).rspTaken = s.rspTaken := rfl
@[simp] theorem State.setImage_port (img : Image) : (s.setImage img).port = s.port := rfl
@[simp] theorem State.setImage_out (img : Image) : (s.setImage img).out = s.out := rfl
@[simp] theorem State.setImage_moves (img : Image) : (s.setImage img).moves = s.moves := rfl
@[simp] theorem State.setImage_draws (img : Image) : (s.setImage img).draws = s.draws := rfl

/-! ## setPixelAt -/

@[simp] theorem State.setPixelAt_cfg (i : Fin 64) (c : Pixel) : (s.setPixelAt i c).cfg = s.cfg := rfl
@[simp] theorem State.setPixelAt_rotK (i : Fin 64) (c : Pixel) : (s.setPixelAt i c).rotK = s.rotK := rfl
@[simp] theorem State.setPixelAt_pb (i : Fin 64) (c : Pixel) : (s.setPixelAt i c).pb = s.pb.set i c := rfl
@[simp] theorem State.setPixelAt_sb (i : Fin 64) (c : Pixel) : (s.setPixelAt i c).sb = s.sb := rfl
@[simp] theorem State.setPixelAt_thresh (i : Fin 64) (c : Pixel) : (s.setPixelAt i c).thresh = s.thresh := rfl
@[simp] theorem State.setPixelAt_rotMap (i : Fin 64) (c : Pixel) : (s.setPixelAt i c).rotMap = s.rotMap := rfl
@[simp] theorem State.setPixelAt_schS (i : Fin 64) (c : Pixel) : (s.setPixelAt i c).schS = s.schS := rfl
@[simp] theorem State.setPixelAt_schR (i : Fin 64) (c : Pixel) : (s.setPixelAt i c).schR = s.schR := rfl
@[simp] theorem State.setPixelAt_schP (i : Fin 64) (c : Pixel) : (s.setPixelAt i c).schP = s.schP := rfl
@[simp] theorem State.setPixelAt_schPhase (i : Fin 64) (c : Pixel) : (s.setPixelAt i c).schPhase = s.schPhase := rfl
@[simp] theorem State.setPixelAt_schW (i : Fin 64) (c : Pixel) : (s.setPixelAt i c).schW = s.schW := rfl
@[simp] theorem State.setPixelAt_q (i : Fin 64) (c : Pixel) : (s.setPixelAt i c).q = s.q := rfl
@[simp] theorem State.setPixelAt_exPhase (i : Fin 64) (c : Pixel) : (s.setPixelAt i c).exPhase = s.exPhase := rfl
@[simp] theorem State.setPixelAt_exHdr (i : Fin 64) (c : Pixel) : (s.setPixelAt i c).exHdr = s.exHdr := rfl
@[simp] theorem State.setPixelAt_exData (i : Fin 64) (c : Pixel) : (s.setPixelAt i c).exData = s.exData := rfl
@[simp] theorem State.setPixelAt_exCnt (i : Fin 64) (c : Pixel) : (s.setPixelAt i c).exCnt = s.exCnt := rfl
@[simp] theorem State.setPixelAt_exPend (i : Fin 64) (c : Pixel) : (s.setPixelAt i c).exPend = s.exPend := rfl
@[simp] theorem State.setPixelAt_exRsp (i : Fin 64) (c : Pixel) : (s.setPixelAt i c).exRsp = s.exRsp := rfl
@[simp] theorem State.setPixelAt_inflight (i : Fin 64) (c : Pixel) : (s.setPixelAt i c).inflight = s.inflight := rfl
@[simp] theorem State.setPixelAt_lock (i : Fin 64) (c : Pixel) : (s.setPixelAt i c).lock = s.lock := rfl
@[simp] theorem State.setPixelAt_rsp (i : Fin 64) (c : Pixel) : (s.setPixelAt i c).rsp = s.rsp := rfl
@[simp] theorem State.setPixelAt_rspTaken (i : Fin 64) (c : Pixel) : (s.setPixelAt i c).rspTaken = s.rspTaken := rfl
@[simp] theorem State.setPixelAt_port (i : Fin 64) (c : Pixel) : (s.setPixelAt i c).port = s.port := rfl
@[simp] theorem State.setPixelAt_out (i : Fin 64) (c : Pixel) : (s.setPixelAt i c).out = s.out := rfl
@[simp] theorem State.setPixelAt_moves (i : Fin 64) (c : Pixel) : (s.setPixelAt i c).moves = s.moves := rfl
@[simp] theorem State.setPixelAt_draws (i : Fin 64) (c : Pixel) : (s.setPixelAt i c).draws = s.draws := rfl

/-! ## finishApply -/

@[simp] theorem State.finishApply_cfg (pend : List Slot) (res : List Word) : (s.finishApply pend res).cfg = s.cfg := rfl
@[simp] theorem State.finishApply_rotK (pend : List Slot) (res : List Word) : (s.finishApply pend res).rotK = s.rotK := rfl
@[simp] theorem State.finishApply_pb (pend : List Slot) (res : List Word) : (s.finishApply pend res).pb = s.pb := rfl
@[simp] theorem State.finishApply_sb (pend : List Slot) (res : List Word) : (s.finishApply pend res).sb = s.sb := rfl
@[simp] theorem State.finishApply_thresh (pend : List Slot) (res : List Word) : (s.finishApply pend res).thresh = s.thresh := rfl
@[simp] theorem State.finishApply_rotMap (pend : List Slot) (res : List Word) : (s.finishApply pend res).rotMap = s.rotMap := rfl
@[simp] theorem State.finishApply_schS (pend : List Slot) (res : List Word) : (s.finishApply pend res).schS = s.schS := rfl
@[simp] theorem State.finishApply_schR (pend : List Slot) (res : List Word) : (s.finishApply pend res).schR = s.schR := rfl
@[simp] theorem State.finishApply_schP (pend : List Slot) (res : List Word) : (s.finishApply pend res).schP = s.schP := rfl
@[simp] theorem State.finishApply_schPhase (pend : List Slot) (res : List Word) : (s.finishApply pend res).schPhase = s.schPhase := rfl
@[simp] theorem State.finishApply_schW (pend : List Slot) (res : List Word) : (s.finishApply pend res).schW = s.schW := rfl
@[simp] theorem State.finishApply_q (pend : List Slot) (res : List Word) : (s.finishApply pend res).q = s.q := rfl
@[simp] theorem State.finishApply_exPhase (pend : List Slot) (res : List Word) : (s.finishApply pend res).exPhase = .respond := rfl
@[simp] theorem State.finishApply_exHdr (pend : List Slot) (res : List Word) : (s.finishApply pend res).exHdr = s.exHdr := rfl
@[simp] theorem State.finishApply_exData (pend : List Slot) (res : List Word) : (s.finishApply pend res).exData = s.exData := rfl
@[simp] theorem State.finishApply_exCnt (pend : List Slot) (res : List Word) : (s.finishApply pend res).exCnt = s.exCnt := rfl
@[simp] theorem State.finishApply_exPend (pend : List Slot) (res : List Word) : (s.finishApply pend res).exPend = pend := rfl
@[simp] theorem State.finishApply_exRsp (pend : List Slot) (res : List Word) : (s.finishApply pend res).exRsp = statusWord .ok :: res := rfl
@[simp] theorem State.finishApply_inflight (pend : List Slot) (res : List Word) : (s.finishApply pend res).inflight = s.inflight := rfl
@[simp] theorem State.finishApply_lock (pend : List Slot) (res : List Word) : (s.finishApply pend res).lock = s.lock := rfl
@[simp] theorem State.finishApply_rsp (pend : List Slot) (res : List Word) : (s.finishApply pend res).rsp = s.rsp := rfl
@[simp] theorem State.finishApply_rspTaken (pend : List Slot) (res : List Word) : (s.finishApply pend res).rspTaken = s.rspTaken := rfl
@[simp] theorem State.finishApply_port (pend : List Slot) (res : List Word) : (s.finishApply pend res).port = s.port := rfl
@[simp] theorem State.finishApply_out (pend : List Slot) (res : List Word) : (s.finishApply pend res).out = s.out := rfl
@[simp] theorem State.finishApply_moves (pend : List Slot) (res : List Word) : (s.finishApply pend res).moves = s.moves := rfl
@[simp] theorem State.finishApply_draws (pend : List Slot) (res : List Word) : (s.finishApply pend res).draws = s.draws := rfl

/-! ## raiseError -/

@[simp] theorem State.raiseError_cfg (c : Code) : (s.raiseError c).cfg = s.cfg := rfl
@[simp] theorem State.raiseError_rotK (c : Code) : (s.raiseError c).rotK = s.rotK := rfl
@[simp] theorem State.raiseError_pb (c : Code) : (s.raiseError c).pb = s.pb := rfl
@[simp] theorem State.raiseError_sb (c : Code) : (s.raiseError c).sb = s.sb := rfl
@[simp] theorem State.raiseError_thresh (c : Code) : (s.raiseError c).thresh = s.thresh := rfl
@[simp] theorem State.raiseError_rotMap (c : Code) : (s.raiseError c).rotMap = s.rotMap := rfl
@[simp] theorem State.raiseError_schS (c : Code) : (s.raiseError c).schS = s.schS := rfl
@[simp] theorem State.raiseError_schR (c : Code) : (s.raiseError c).schR = s.schR := rfl
@[simp] theorem State.raiseError_schP (c : Code) : (s.raiseError c).schP = s.schP := rfl
@[simp] theorem State.raiseError_schPhase (c : Code) : (s.raiseError c).schPhase = s.schPhase := rfl
@[simp] theorem State.raiseError_schW (c : Code) : (s.raiseError c).schW = s.schW := rfl
@[simp] theorem State.raiseError_q (c : Code) : (s.raiseError c).q = s.q := rfl
@[simp] theorem State.raiseError_exPhase (c : Code) : (s.raiseError c).exPhase = .idle := rfl
@[simp] theorem State.raiseError_exHdr (c : Code) : (s.raiseError c).exHdr = s.exHdr := rfl
@[simp] theorem State.raiseError_exData (c : Code) : (s.raiseError c).exData = s.exData := rfl
@[simp] theorem State.raiseError_exCnt (c : Code) : (s.raiseError c).exCnt = s.exCnt := rfl
@[simp] theorem State.raiseError_exPend (c : Code) : (s.raiseError c).exPend = s.exPend := rfl
@[simp] theorem State.raiseError_exRsp (c : Code) : (s.raiseError c).exRsp = s.exRsp := rfl
@[simp] theorem State.raiseError_inflight (c : Code) : (s.raiseError c).inflight = s.inflight := rfl
@[simp] theorem State.raiseError_lock (c : Code) : (s.raiseError c).lock = s.lock := rfl
@[simp] theorem State.raiseError_rsp (c : Code) : (s.raiseError c).rsp = s.rsp ++ [statusWord c] := rfl
@[simp] theorem State.raiseError_rspTaken (c : Code) : (s.raiseError c).rspTaken = s.rspTaken := rfl
@[simp] theorem State.raiseError_port (c : Code) : (s.raiseError c).port = s.port := rfl
@[simp] theorem State.raiseError_out (c : Code) : (s.raiseError c).out = s.out := rfl
@[simp] theorem State.raiseError_moves (c : Code) : (s.raiseError c).moves = s.moves := rfl
@[simp] theorem State.raiseError_draws (c : Code) : (s.raiseError c).draws = s.draws := rfl

/-! ## acquireLock -/

@[simp] theorem State.acquireLock_cfg (h : Nat) : (s.acquireLock h).cfg = s.cfg := rfl
@[simp] theorem State.acquireLock_rotK (h : Nat) : (s.acquireLock h).rotK = s.rotK := rfl
@[simp] theorem State.acquireLock_pb (h : Nat) : (s.acquireLock h).pb = s.pb := rfl
@[simp] theorem State.acquireLock_sb (h : Nat) : (s.acquireLock h).sb = s.sb := rfl
@[simp] theorem State.acquireLock_thresh (h : Nat) : (s.acquireLock h).thresh = s.thresh := rfl
@[simp] theorem State.acquireLock_rotMap (h : Nat) : (s.acquireLock h).rotMap = s.rotMap := rfl
@[simp] theorem State.acquireLock_schS (h : Nat) : (s.acquireLock h).schS = s.schS := rfl
@[simp] theorem State.acquireLock_schR (h : Nat) : (s.acquireLock h).schR = s.schR := rfl
@[simp] theorem State.acquireLock_schP (h : Nat) : (s.acquireLock h).schP = s.schP := rfl
@[simp] theorem State.acquireLock_schPhase (h : Nat) : (s.acquireLock h).schPhase = s.schPhase := rfl
@[simp] theorem State.acquireLock_schW (h : Nat) : (s.acquireLock h).schW = s.schW := rfl
@[simp] theorem State.acquireLock_q (h : Nat) : (s.acquireLock h).q = s.q := rfl
@[simp] theorem State.acquireLock_exPhase (h : Nat) : (s.acquireLock h).exPhase = s.exPhase := rfl
@[simp] theorem State.acquireLock_exHdr (h : Nat) : (s.acquireLock h).exHdr = s.exHdr := rfl
@[simp] theorem State.acquireLock_exData (h : Nat) : (s.acquireLock h).exData = s.exData := rfl
@[simp] theorem State.acquireLock_exCnt (h : Nat) : (s.acquireLock h).exCnt = s.exCnt := rfl
@[simp] theorem State.acquireLock_exPend (h : Nat) : (s.acquireLock h).exPend = s.exPend := rfl
@[simp] theorem State.acquireLock_exRsp (h : Nat) : (s.acquireLock h).exRsp = s.exRsp := rfl
@[simp] theorem State.acquireLock_inflight (h : Nat) : (s.acquireLock h).inflight = s.inflight := rfl
@[simp] theorem State.acquireLock_lock (h : Nat) : (s.acquireLock h).lock = s.lock.set h .held := rfl
@[simp] theorem State.acquireLock_rsp (h : Nat) : (s.acquireLock h).rsp = s.rsp := rfl
@[simp] theorem State.acquireLock_rspTaken (h : Nat) : (s.acquireLock h).rspTaken = s.rspTaken := rfl
@[simp] theorem State.acquireLock_port (h : Nat) : (s.acquireLock h).port = s.port := rfl
@[simp] theorem State.acquireLock_out (h : Nat) : (s.acquireLock h).out = s.out := rfl
@[simp] theorem State.acquireLock_moves (h : Nat) : (s.acquireLock h).moves = s.moves := rfl
@[simp] theorem State.acquireLock_draws (h : Nat) : (s.acquireLock h).draws = s.draws := rfl

/-! ## releaseLock -/

@[simp] theorem State.releaseLock_cfg (h : Nat) : (s.releaseLock h).cfg = s.cfg := rfl
@[simp] theorem State.releaseLock_rotK (h : Nat) : (s.releaseLock h).rotK = s.rotK := rfl
@[simp] theorem State.releaseLock_pb (h : Nat) : (s.releaseLock h).pb = s.pb := rfl
@[simp] theorem State.releaseLock_sb (h : Nat) : (s.releaseLock h).sb = s.sb := rfl
@[simp] theorem State.releaseLock_thresh (h : Nat) : (s.releaseLock h).thresh = s.thresh := rfl
@[simp] theorem State.releaseLock_rotMap (h : Nat) : (s.releaseLock h).rotMap = s.rotMap := rfl
@[simp] theorem State.releaseLock_schS (h : Nat) : (s.releaseLock h).schS = s.schS := rfl
@[simp] theorem State.releaseLock_schR (h : Nat) : (s.releaseLock h).schR = s.schR := rfl
@[simp] theorem State.releaseLock_schP (h : Nat) : (s.releaseLock h).schP = s.schP := rfl
@[simp] theorem State.releaseLock_schPhase (h : Nat) : (s.releaseLock h).schPhase = s.schPhase := rfl
@[simp] theorem State.releaseLock_schW (h : Nat) : (s.releaseLock h).schW = s.schW := rfl
@[simp] theorem State.releaseLock_q (h : Nat) : (s.releaseLock h).q = s.q := rfl
@[simp] theorem State.releaseLock_exPhase (h : Nat) : (s.releaseLock h).exPhase = s.exPhase := rfl
@[simp] theorem State.releaseLock_exHdr (h : Nat) : (s.releaseLock h).exHdr = s.exHdr := rfl
@[simp] theorem State.releaseLock_exData (h : Nat) : (s.releaseLock h).exData = s.exData := rfl
@[simp] theorem State.releaseLock_exCnt (h : Nat) : (s.releaseLock h).exCnt = s.exCnt := rfl
@[simp] theorem State.releaseLock_exPend (h : Nat) : (s.releaseLock h).exPend = s.exPend := rfl
@[simp] theorem State.releaseLock_exRsp (h : Nat) : (s.releaseLock h).exRsp = s.exRsp := rfl
@[simp] theorem State.releaseLock_inflight (h : Nat) : (s.releaseLock h).inflight = s.inflight := rfl
@[simp] theorem State.releaseLock_lock (h : Nat) : (s.releaseLock h).lock = s.lock.set h .free := rfl
@[simp] theorem State.releaseLock_rsp (h : Nat) : (s.releaseLock h).rsp = s.rsp := rfl
@[simp] theorem State.releaseLock_rspTaken (h : Nat) : (s.releaseLock h).rspTaken = s.rspTaken := rfl
@[simp] theorem State.releaseLock_port (h : Nat) : (s.releaseLock h).port = s.port := rfl
@[simp] theorem State.releaseLock_out (h : Nat) : (s.releaseLock h).out = s.out := rfl
@[simp] theorem State.releaseLock_moves (h : Nat) : (s.releaseLock h).moves = s.moves := rfl
@[simp] theorem State.releaseLock_draws (h : Nat) : (s.releaseLock h).draws = s.draws := rfl

/-! ## enqueue -/

@[simp] theorem State.enqueue_cfg (w : Word) : (s.enqueue w).cfg = s.cfg := rfl
@[simp] theorem State.enqueue_rotK (w : Word) : (s.enqueue w).rotK = s.rotK := rfl
@[simp] theorem State.enqueue_pb (w : Word) : (s.enqueue w).pb = s.pb := rfl
@[simp] theorem State.enqueue_sb (w : Word) : (s.enqueue w).sb = s.sb := rfl
@[simp] theorem State.enqueue_thresh (w : Word) : (s.enqueue w).thresh = s.thresh := rfl
@[simp] theorem State.enqueue_rotMap (w : Word) : (s.enqueue w).rotMap = s.rotMap := rfl
@[simp] theorem State.enqueue_schS (w : Word) : (s.enqueue w).schS = s.schS := rfl
@[simp] theorem State.enqueue_schR (w : Word) : (s.enqueue w).schR = s.schR := rfl
@[simp] theorem State.enqueue_schP (w : Word) : (s.enqueue w).schP = s.schP := rfl
@[simp] theorem State.enqueue_schPhase (w : Word) : (s.enqueue w).schPhase = s.schPhase := rfl
@[simp] theorem State.enqueue_schW (w : Word) : (s.enqueue w).schW = s.schW := rfl
@[simp] theorem State.enqueue_q (w : Word) : (s.enqueue w).q = s.q ++ [w] := rfl
@[simp] theorem State.enqueue_exPhase (w : Word) : (s.enqueue w).exPhase = s.exPhase := rfl
@[simp] theorem State.enqueue_exHdr (w : Word) : (s.enqueue w).exHdr = s.exHdr := rfl
@[simp] theorem State.enqueue_exData (w : Word) : (s.enqueue w).exData = s.exData := rfl
@[simp] theorem State.enqueue_exCnt (w : Word) : (s.enqueue w).exCnt = s.exCnt := rfl
@[simp] theorem State.enqueue_exPend (w : Word) : (s.enqueue w).exPend = s.exPend := rfl
@[simp] theorem State.enqueue_exRsp (w : Word) : (s.enqueue w).exRsp = s.exRsp := rfl
@[simp] theorem State.enqueue_inflight (w : Word) : (s.enqueue w).inflight = s.inflight := rfl
@[simp] theorem State.enqueue_lock (w : Word) : (s.enqueue w).lock = s.lock := rfl
@[simp] theorem State.enqueue_rsp (w : Word) : (s.enqueue w).rsp = s.rsp := rfl
@[simp] theorem State.enqueue_rspTaken (w : Word) : (s.enqueue w).rspTaken = s.rspTaken := rfl
@[simp] theorem State.enqueue_port (w : Word) : (s.enqueue w).port = s.port := rfl
@[simp] theorem State.enqueue_out (w : Word) : (s.enqueue w).out = s.out := rfl
@[simp] theorem State.enqueue_moves (w : Word) : (s.enqueue w).moves = s.moves := rfl
@[simp] theorem State.enqueue_draws (w : Word) : (s.enqueue w).draws = s.draws := rfl

/-! ## hostSend -/

@[simp] theorem State.hostSend_cfg (w : Word) : (s.hostSend w).cfg = s.cfg := rfl
@[simp] theorem State.hostSend_rotK (w : Word) : (s.hostSend w).rotK = s.rotK := rfl
@[simp] theorem State.hostSend_pb (w : Word) : (s.hostSend w).pb = s.pb := rfl
@[simp] theorem State.hostSend_sb (w : Word) : (s.hostSend w).sb = s.sb := rfl
@[simp] theorem State.hostSend_thresh (w : Word) : (s.hostSend w).thresh = s.thresh := rfl
@[simp] theorem State.hostSend_rotMap (w : Word) : (s.hostSend w).rotMap = s.rotMap := rfl
@[simp] theorem State.hostSend_schS (w : Word) : (s.hostSend w).schS = s.schS := rfl
@[simp] theorem State.hostSend_schR (w : Word) : (s.hostSend w).schR = s.schR := rfl
@[simp] theorem State.hostSend_schP (w : Word) : (s.hostSend w).schP = s.schP := rfl
@[simp] theorem State.hostSend_schPhase (w : Word) : (s.hostSend w).schPhase = s.schPhase := rfl
@[simp] theorem State.hostSend_schW (w : Word) : (s.hostSend w).schW = s.schW := rfl
@[simp] theorem State.hostSend_q (w : Word) : (s.hostSend w).q = s.q := rfl
@[simp] theorem State.hostSend_exPhase (w : Word) : (s.hostSend w).exPhase = s.exPhase := rfl
@[simp] theorem State.hostSend_exHdr (w : Word) : (s.hostSend w).exHdr = s.exHdr := rfl
@[simp] theorem State.hostSend_exData (w : Word) : (s.hostSend w).exData = s.exData := rfl
@[simp] theorem State.hostSend_exCnt (w : Word) : (s.hostSend w).exCnt = s.exCnt := rfl
@[simp] theorem State.hostSend_exPend (w : Word) : (s.hostSend w).exPend = s.exPend := rfl
@[simp] theorem State.hostSend_exRsp (w : Word) : (s.hostSend w).exRsp = s.exRsp := rfl
@[simp] theorem State.hostSend_inflight (w : Word) : (s.hostSend w).inflight = s.inflight := rfl
@[simp] theorem State.hostSend_lock (w : Word) : (s.hostSend w).lock = s.lock := rfl
@[simp] theorem State.hostSend_rsp (w : Word) : (s.hostSend w).rsp = s.rsp := rfl
@[simp] theorem State.hostSend_rspTaken (w : Word) : (s.hostSend w).rspTaken = s.rspTaken := rfl
@[simp] theorem State.hostSend_port (w : Word) : (s.hostSend w).port = s.port ++ [w] := rfl
@[simp] theorem State.hostSend_out (w : Word) : (s.hostSend w).out = s.out := rfl
@[simp] theorem State.hostSend_moves (w : Word) : (s.hostSend w).moves = s.moves := rfl
@[simp] theorem State.hostSend_draws (w : Word) : (s.hostSend w).draws = s.draws := rfl

/-! ## afterDraw -/

@[simp] theorem State.afterDraw_cfg : s.afterDraw.cfg = s.cfg := by unfold State.afterDraw; split <;> rfl
@[simp] theorem State.afterDraw_rotK : s.afterDraw.rotK = s.rotK := by unfold State.afterDraw; split <;> rfl
@[simp] theorem State.afterDraw_pb : s.afterDraw.pb = s.pb := by unfold State.afterDraw; split <;> rfl
@[simp] theorem State.afterDraw_sb : s.afterDraw.sb = s.sb := by unfold State.afterDraw; split <;> rfl
@[simp] theorem State.afterDraw_thresh : s.afterDraw.thresh = s.thresh := by unfold State.afterDraw; split <;> rfl
@[simp] theorem State.afterDraw_rotMap : s.afterDraw.rotMap = s.rotMap := by unfold State.afterDraw; split <;> rfl
@[simp] theorem State.afterDraw_schS : s.afterDraw.schS = s.schS := by unfold State.afterDraw; split <;> rfl
@[simp] theorem State.afterDraw_schR : s.afterDraw.schR = s.schR := by unfold State.afterDraw; split <;> rfl
@[simp] theorem State.afterDraw_schP : s.afterDraw.schP = s.schP := by unfold State.afterDraw; split <;> rfl
@[simp] theorem State.afterDraw_schPhase : s.afterDraw.schPhase = s.schPhase := by unfold State.afterDraw; split <;> rfl
@[simp] theorem State.afterDraw_schW : s.afterDraw.schW = s.schW := by unfold State.afterDraw; split <;> rfl
@[simp] theorem State.afterDraw_q : s.afterDraw.q = s.q := by unfold State.afterDraw; split <;> rfl
@[simp] theorem State.afterDraw_exPhase : s.afterDraw.exPhase = s.exPhase := by unfold State.afterDraw; split <;> rfl
@[simp] theorem State.afterDraw_exHdr : s.afterDraw.exHdr = s.exHdr := by unfold State.afterDraw; split <;> rfl
@[simp] theorem State.afterDraw_exData : s.afterDraw.exData = s.exData := by unfold State.afterDraw; split <;> rfl
@[simp] theorem State.afterDraw_exCnt : s.afterDraw.exCnt = s.exCnt := by unfold State.afterDraw; split <;> rfl
@[simp] theorem State.afterDraw_exPend : s.afterDraw.exPend = s.exPend := by unfold State.afterDraw; split <;> rfl
@[simp] theorem State.afterDraw_exRsp : s.afterDraw.exRsp = s.exRsp := by unfold State.afterDraw; split <;> rfl
@[simp] theorem State.afterDraw_inflight : s.afterDraw.inflight = s.inflight := by unfold State.afterDraw; split <;> rfl
@[simp] theorem State.afterDraw_lock : s.afterDraw.lock = s.lock := by unfold State.afterDraw; split <;> rfl
@[simp] theorem State.afterDraw_rsp : s.afterDraw.rsp = s.rsp := by unfold State.afterDraw; split <;> rfl
@[simp] theorem State.afterDraw_rspTaken : s.afterDraw.rspTaken = s.rspTaken := by unfold State.afterDraw; split <;> rfl
@[simp] theorem State.afterDraw_port : s.afterDraw.port = s.port := by unfold State.afterDraw; split <;> rfl
@[simp] theorem State.afterDraw_out : s.afterDraw.out = s.out := by unfold State.afterDraw; split <;> rfl

/-- A placed move is drawn first (log 5). -/
theorem State.nextMove_of_moves (m : Move) (ms : List Move) (h : s.moves = m :: ms) : s.nextMove = m := by
  simp [State.nextMove, h]

/-- Drawing a placed move takes it away and changes nothing else. -/
theorem State.afterDraw_of_moves (m : Move) (ms : List Move) (h : s.moves = m :: ms) :
    s.afterDraw = { s with moves := ms } := by
  simp [State.afterDraw, h]

/-- With no placed move the next one is the free move of the draw counter. -/
theorem State.nextMove_of_nil (h : s.moves = []) : s.nextMove = Config.freeMove s.draws := by
  simp [State.nextMove, h]

end Sys2Proof.Machine
end

