-- ==== Sys2Proof/Laws/Slots.lean ====
section
/-! SUPPORT. Slots and the arrays they index: the slot lists of R23 and R124, and reading an array after a write to
one slot. -/

namespace Sys2Proof.Machine

/-- Two slots with the same place are the same slot (R23). -/
theorem Slot.idx_inj {a b : Slot} (h : a.idx = b.idx) : a = b := by
  obtain ⟨sa, ra⟩ := a
  obtain ⟨sb, rb⟩ := b
  simp only [Slot.idx] at h
  have h1 : sa = sb := by omega
  have h2 : ra = rb := Fin.ext (by omega)
  rw [h1, h2]

@[simp] theorem Slot.idx_eq_iff {a b : Slot} : a.idx = b.idx ↔ a = b :=
  ⟨Slot.idx_inj, fun h => h ▸ rfl⟩

/-- A slot exists exactly when its place lies in an array of 8N entries. -/
theorem Slot.idx_lt_iff (sl : Slot) (n : Nat) : sl.idx < 8 * n ↔ sl.shade < n := by
  simp only [Slot.idx]; omega

/-- R23: allSlots lists the slots that exist. -/
@[simp] theorem mem_allSlots (n : Nat) (sl : Slot) : sl ∈ allSlots n ↔ sl.shade < n := by
  obtain ⟨h, r⟩ := sl
  simp [allSlots]

/-- R124: rowSlots lists one row of every shade. -/
@[simp] theorem mem_rowSlots (n : Nat) (r : Fin 8) (sl : Slot) :
    sl ∈ rowSlots n r ↔ sl.shade < n ∧ sl.row = r := by
  obtain ⟨h, r'⟩ := sl
  simp [rowSlots, eq_comm]

theorem rowSlots_nodup (n : Nat) (r : Fin 8) : (rowSlots n r).Nodup :=
  List.Nodup.map (fun _ _ h => congrArg Slot.shade h) List.nodup_range

theorem allSlots_nodup (n : Nat) : (allSlots n).Nodup := by
  unfold allSlots
  rw [List.nodup_flatMap]
  refine ⟨fun s _ => List.Nodup.map (fun _ _ h => congrArg Slot.row h) (List.nodup_finRange 8), ?_⟩
  refine List.Pairwise.imp ?_ (List.nodup_range (n := n))
  intro a b hab sl ha hb
  simp only [List.mem_map] at ha hb
  obtain ⟨_, _, rfl⟩ := ha
  obtain ⟨_, _, hb⟩ := hb
  exact hab (congrArg Slot.shade hb).symm

/-- R57: writing one slot leaves every other slot alone. -/
theorem getElem?_set_slot {α : Type} (l : List α) (a b : Slot) (v : α) :
    (l.set a.idx v)[b.idx]? = if a = b then (if a.idx < l.length then some v else none) else l[b.idx]? := by
  rw [List.getElem?_set]
  simp only [Slot.idx_eq_iff]

variable {s : State}

/-- A slot that exists has a value, in a store of the right size. -/
theorem State.sbAt_of_lt (hs : s.Sized) {sl : Slot} (h : sl.shade < s.cfg.shadeCount) :
    ∃ w, s.sbAt sl = some w := by
  have : sl.idx < s.sb.length := by rw [hs.1]; exact (Slot.idx_lt_iff sl _).2 h
  exact ⟨s.sb[sl.idx], List.getElem?_eq_getElem this⟩

/-- A slot that does not exist has none. -/
theorem State.sbAt_eq_none (hs : s.Sized) {sl : Slot} (h : ¬ sl.shade < s.cfg.shadeCount) : s.sbAt sl = none := by
  simp only [State.sbAt, List.getElem?_eq_none_iff, hs.1]
  exact Nat.le_of_not_lt (fun hlt => h ((Slot.idx_lt_iff sl _).1 hlt))

/-- Only a slot that exists can have a write in flight. -/
theorem State.shade_lt_of_inflight (hs : s.Sized) {sl : Slot} {rec : WriteRecord}
    (h : s.inflightAt sl = some rec) : sl.shade < s.cfg.shadeCount := by
  rw [← Slot.idx_lt_iff, ← hs.2.1]
  by_contra hlt
  simp [State.inflightAt, List.getElem?_eq_none (Nat.le_of_not_lt hlt)] at h

@[simp] theorem State.mem_inflightSlots {sl : Slot} :
    sl ∈ s.inflightSlots ↔ sl.shade < s.cfg.shadeCount ∧ (s.inflightAt sl).isSome = true := by
  simp [State.inflightSlots]

end Sys2Proof.Machine
end

