-- ==== Sys2Proof/Laws/Ops.lean ====
section
/-! SUPPORT. One lemma for each shared operation that says everything it can do: the row-select byte, the torn read,
the two events of a slot write, the events the executor may take, the command errors and the APPLY of a command. -/

namespace Sys2Proof.Machine

/-! ## The row-select byte (R24, R58, R75) -/

theorem lowByte_or (a b : Word) : lowByte (a ||| b) = lowByte a ||| lowByte b := by
  ext i hi
  simp [lowByte]

/-- R70: the row-select byte of an encoded row is `1 << r`. -/
theorem rowSelected_encodeRow (img : Image) (page : RotPage) (t : Chan) (r : Fin 8) :
    rowSelected (encodeRow img page t r) r := by
  unfold rowSelected encodeRow packRow
  generalize scanOrder.foldl (scanLane img page t r) { red := 0, green := 0, blue := 0 } = planes
  apply BitVec.eq_of_getLsbD_eq
  intro i hi
  have h1 : i < 24 := by omega
  have h2 : i < 16 := by omega
  have h3 : i < 32 := by omega
  simp [lowByte, hi, h1, h2, h3]

/-- R58: bits where old and new agree read as that value whatever the mask is. -/
theorem rowSelected_tornWord {old new : Word} (mask : Word) {r : Fin 8} (ho : rowSelected old r)
    (hn : rowSelected new r) : rowSelected (tornWord old new mask) r := by
  unfold rowSelected at *
  rw [← ho]
  have hbit : ∀ i, i < 8 → new.getLsbD i = old.getLsbD i := by
    intro i hi
    have := congrArg (fun b => BitVec.getLsbD b i) (hn.trans ho.symm)
    simpa [lowByte, hi] using this
  apply BitVec.eq_of_getLsbD_eq
  intro i hi
  have h32 : i < 32 := by omega
  simp only [lowByte, tornWord, BitVec.getLsbD_extractLsb', BitVec.getLsbD_or, BitVec.getLsbD_and, BitVec.getLsbD_not,
    hi, h32, decide_true, Bool.true_and, Nat.zero_add, hbit i hi]
  cases old.getLsbD i <;> cases mask.getLsbD i <;> rfl

/-- R75: a pass mask whose low byte is zero leaves the row-select byte. -/
theorem rowSelected_or_mask {w m : Word} {r : Fin 8} (hw : rowSelected w r) (hm : lowByte m = 0) :
    rowSelected (w ||| m) r := by
  unfold rowSelected at *
  rw [lowByte_or, hw, hm]
  simp

/-- R75: a word with a row-select byte is no idle word. -/
theorem isIdle_of_rowSelected {w : Word} {r : Fin 8} (h : rowSelected w r) : isIdle w = false := by
  unfold isIdle
  rw [h]
  clear h
  revert r
  decide

variable {s t : State}

/-- R230: what an admitted configuration satisfies. -/
theorem Config.admitted_iff (c : Config) :
    c.admitted = true ↔ 1 ≤ c.shadeCount ∧ c.shadeCount ≤ 255 ∧ (∀ p : Fin 3, lowByte (c.passMask.get p) = 0) ∧
      1 ≤ c.queueDepth := by
  have h3 : (∀ p : Fin 3, lowByte (c.passMask.get p) = 0) ↔
      lowByte (c.passMask.get 0) = 0 ∧ lowByte (c.passMask.get 1) = 0 ∧ lowByte (c.passMask.get 2) = 0 := by
    constructor
    · exact fun h => ⟨h 0, h 1, h 2⟩
    · rintro ⟨h0, h1, h2⟩ p
      fin_cases p <;> assumption
  simp only [Config.admitted, Bool.and_eq_true, decide_eq_true_eq, h3]
  tauto

/-! ## Reads (R57, R58) -/

/-- R57: with no write in flight a read gives the committed value. -/
theorem State.readSb_committed {sl : Slot} (h : s.inflightAt sl = none) (mask : Word) :
    s.readSb sl mask = s.sbAt sl := by
  unfold State.readSb
  rw [h]
  cases s.sbAt sl <;> rfl

/-- R58: with a write in flight a read mixes old and new under the mask. -/
theorem State.readSb_torn {sl : Slot} {rec : WriteRecord} {v : Word} (h : s.inflightAt sl = some rec)
    (hv : s.sbAt sl = some v) (mask : Word) : s.readSb sl mask = some (tornWord rec.old rec.new mask) := by
  simp [State.readSb, h, hv]

/-- R58: whatever a read gives, its row-select byte is that of the row. -/
theorem State.rowSelected_readSb (hs : s.StoreOneHot) {sl : Slot} {mask w : Word} (h : s.readSb sl mask = some w) :
    rowSelected w sl.row := by
  unfold State.readSb at h
  split at h
  · next v hv _ => cases h; exact (hs sl).1 _ hv
  · next v rec _ hr => cases h; exact rowSelected_tornWord mask ((hs sl).2 _ hr).1 ((hs sl).2 _ hr).2
  · cases h

/-! ## The encoded word -/

/-- A slot that exists has an encoded word while the threshold ROM holds what construction put there. -/
theorem State.encoded_of_lt (hr : s.RomsBuilt) {sl : Slot} (h : sl.shade < s.cfg.shadeCount) :
    ∃ w, s.encoded sl = some w := by
  simp [State.encoded, State.threshAt, hr.1, computeThresholds, h]

theorem State.rowSelected_encoded {sl : Slot} {w : Word} (h : s.encoded sl = some w) : rowSelected w sl.row := by
  simp only [State.encoded, Option.map_eq_some_iff] at h
  obtain ⟨t, _, rfl⟩ := h
  exact rowSelected_encodeRow _ _ _ _

/-! ## The two events of a slot write (R59) -/

/-- R59, begin. -/
theorem State.beginWrite_eq_some {sl : Slot} : s.beginWrite sl = some t ↔
    ∃ old new, s.sbAt sl = some old ∧ s.encoded sl = some new ∧
      t = { s with inflight := s.inflight.set sl.idx (some { old := old, new := new }),
                   exPend := s.exPend.filter (fun x => x ≠ sl) } := by
  unfold State.beginWrite
  split
  · next old new ho hn =>
    constructor
    · intro h
      cases h
      exact ⟨old, new, ho, hn, rfl⟩
    · rintro ⟨old', new', ho', hn', rfl⟩
      rw [ho] at ho'
      rw [hn] at hn'
      cases ho'
      cases hn'
      rfl
  · next h =>
    constructor
    · intro h'
      cases h'
    · rintro ⟨old, new, ho, hn, _⟩
      exact absurd hn (by simpa using h old new ho)

/-- R59, end. -/
theorem State.endWrite_eq_some {sl : Slot} : s.endWrite sl = some t ↔
    ∃ rec, s.inflightAt sl = some rec ∧
      t = { s with sb := s.sb.set sl.idx rec.new, inflight := s.inflight.set sl.idx none } := by
  unfold State.endWrite
  split
  · next rec h =>
    constructor
    · intro h'
      cases h'
      exact ⟨rec, h, rfl⟩
    · rintro ⟨rec', h', rfl⟩
      rw [h] at h'
      cases h'
      rfl
  · next h =>
    constructor
    · intro h'
      cases h'
    · rintro ⟨rec, h', _⟩
      rw [h] at h'
      cases h'

/-- The records after a record is set at a slot that exists. -/
theorem State.inflightAt_set (hs : s.Sized) {a : Slot} (ha : a.shade < s.cfg.shadeCount) (o : Option WriteRecord)
    (b : Slot) : (s.inflight.set a.idx o)[b.idx]?.join = if a = b then o else s.inflightAt b := by
  have hlt : a.idx < s.inflight.length := by rw [hs.2.1]; exact (Slot.idx_lt_iff a _).2 ha
  rw [getElem?_set_slot, if_pos hlt]
  split <;> rfl

/-- The store after a word is written to a slot that exists. -/
theorem State.sbAt_set (hs : s.Sized) {a : Slot} (ha : a.shade < s.cfg.shadeCount) (w : Word) (b : Slot) :
    (s.sb.set a.idx w)[b.idx]? = if a = b then some w else s.sbAt b := by
  have hlt : a.idx < s.sb.length := by rw [hs.1]; exact (Slot.idx_lt_iff a _).2 ha
  rw [getElem?_set_slot, if_pos hlt]
  rfl

/-! ## The lock (R31, R60) -/

@[simp] theorem State.lockHeld_acquire (h : Nat) (x : Nat) :
    (s.acquireLock h).lockHeld x = if h = x then decide (h < s.lock.length) else s.lockHeld x := by
  simp only [State.lockHeld, State.acquireLock_lock, List.getElem?_set]
  split
  · split <;> simp_all
  · rfl

@[simp] theorem State.lockHeld_release (h : Nat) (x : Nat) :
    (s.releaseLock h).lockHeld x = if h = x then false else s.lockHeld x := by
  simp only [State.lockHeld, State.releaseLock_lock, List.getElem?_set]
  split
  · split <;> simp
  · rfl

/-! ## The events the executor may take (R59, R60) -/

theorem State.mem_acquirable {h : Nat} : h ∈ s.acquirable ↔
    s.cfg.shadeLock = true ∧ h < s.cfg.shadeCount ∧ s.lockHeld h = false ∧ s.pendingIn h = true := by
  unfold State.acquirable
  split <;> simp [*]

theorem State.mem_beginnable {sl : Slot} : sl ∈ s.beginnable ↔
    sl ∈ s.exPend ∧ (s.cfg.shadeLock = true → s.lockHeld sl.shade = true) := by
  unfold State.beginnable
  cases s.cfg.shadeLock <;> simp

theorem State.mem_releasable {h : Nat} : h ∈ s.releasable ↔
    s.cfg.shadeLock = true ∧ h < s.cfg.shadeCount ∧ s.lockHeld h = true ∧ s.pendingIn h = false ∧
      s.inflightIn h = false := by
  unfold State.releasable
  split <;> simp [*, and_assoc]

theorem State.mem_slotEvents {e : SlotEvent} : e ∈ s.slotEvents ↔
    match e with
    | .acquire h => h ∈ s.acquirable
    | .beginSlot sl => sl ∈ s.beginnable
    | .endSlot sl => sl ∈ s.inflightSlots
    | .release h => h ∈ s.releasable := by
  cases e <;> simp [State.slotEvents]

/-- R59: whichever event is enabled, some pick takes it. -/
theorem State.exists_pick {e : SlotEvent} (h : e ∈ s.slotEvents) :
    ∃ pick, s.slotEvents[pick % s.slotEvents.length]? = some e := by
  obtain ⟨n, hn, rfl⟩ := List.getElem_of_mem h
  exact ⟨n, by rw [Nat.mod_eq_of_lt hn, List.getElem?_eq_getElem hn]⟩

/-- Any pick takes an enabled event, if there is one. -/
theorem State.pick_mem {pick : Nat} {e : SlotEvent} (h : s.slotEvents[pick % s.slotEvents.length]? = some e) :
    e ∈ s.slotEvents := List.mem_of_getElem? h

/-- A pick takes no event only when none is enabled. -/
theorem State.pick_none {pick : Nat} (h : s.slotEvents[pick % s.slotEvents.length]? = none) :
    s.slotEvents = [] := by
  by_contra hne
  have hlen : 0 < s.slotEvents.length := List.length_pos_iff.2 hne
  rw [List.getElem?_eq_none_iff] at h
  exact absurd (Nat.mod_lt pick hlen) (by omega)

/-- R170, RESPOND: what a settled state is. -/
theorem State.settled_iff : s.settled = true ↔
    s.exPend = [] ∧ (∀ o ∈ s.inflight, o = none) ∧ (∀ l ∈ s.lock, l = LockState.free) := by
  simp [State.settled, and_assoc]

theorem State.inflightAt_of_settled (h : s.settled = true) (sl : Slot) : s.inflightAt sl = none := by
  unfold State.inflightAt
  cases hget : s.inflight[sl.idx]? with
  | none => rfl
  | some o => simp [(State.settled_iff.1 h).2.1 o (List.mem_of_getElem? hget)]

theorem State.lockHeld_of_settled (h : s.settled = true) (x : Nat) : s.lockHeld x = false := by
  unfold State.lockHeld
  cases hget : s.lock[x]? with
  | none => rfl
  | some l => simp [(State.settled_iff.1 h).2.2 l (List.mem_of_getElem? hget)]

/-! ## Operands and the APPLY of a command -/

theorem coord_of_lt {n : Nat} (h : n < 8) : coord n = some ⟨n, h⟩ := by simp [coord, h]

theorem coord_of_ge {n : Nat} (h : 8 ≤ n) : coord n = none := by simp [coord, Nat.not_lt.2 h]

/-- R110: the four valid angles and their pages. -/
theorem anglePage_eq_some {a : Nat} {k : BitVec 2} : anglePage a = some k ↔ a = angleOf k := by
  unfold anglePage angleOf
  constructor
  · intro h
    split at h
    · next ha =>
      cases h
      rcases ha with rfl | rfl | rfl | rfl <;> rfl
    · cases h
  · rintro rfl
    revert k
    decide

/-- Every command's APPLY ends in a next state: an error that changes nothing but RSP and EX_PHASE (R205), or the
command's register and pixel-store writes with the slots it has still to write and the responses it owes (R170). -/
theorem exec_cases (i : Instr) (s : State) :
    (∃ c, c ≠ Code.ok ∧ exec i s = .next (s.raiseError c)) ∨
      ∃ pb rotK res, exec i s = .next ({ s with pb := pb, rotK := rotK }.finishApply
          ({ s with pb := pb, rotK := rotK }.writeSet i) res) := by
  cases i with
  | setpixels img => exact .inr ⟨img, s.rotK, [], rfl⟩
  | getpixels => exact .inr ⟨s.pb, s.rotK, _, rfl⟩
  | setpixel x y c =>
    cases hx : coord x with
    | none => exact .inl ⟨.boundsError, by decide, by simp only [exec, execSetpixel, hx]⟩
    | some col =>
      cases hy : coord y with
      | none => exact .inl ⟨.boundsError, by decide, by simp only [exec, execSetpixel, hx, hy]⟩
      | some row =>
        exact .inr ⟨s.pb.set (cell row col) c, s.rotK, [], by
          simp only [exec, execSetpixel, State.writeSet, hx, hy] <;> rfl⟩
  | getpixel x y =>
    simp only [exec, execGetpixel, State.writeSet]
    split
    · exact .inr ⟨s.pb, s.rotK, _, rfl⟩
    · exact .inl ⟨.boundsError, by decide, rfl⟩
  | setrot a =>
    simp only [exec, execSetrot, State.setRotation, State.writeSet]
    cases anglePage a with
    | none => exact .inl ⟨.invalidRotation, by decide, rfl⟩
    | some k => exact .inr ⟨s.pb, k, [], rfl⟩
  | setrotnr a =>
    simp only [exec, execSetrotnr, State.setRotation, State.writeSet]
    cases anglePage a with
    | none => exact .inl ⟨.invalidRotation, by decide, rfl⟩
    | some k => exact .inr ⟨s.pb, k, [], rfl⟩
  | getrot => exact .inr ⟨s.pb, s.rotK, _, rfl⟩

/-- A write set names slots that exist, each once (R59). -/
theorem State.writeSet_ok (s : State) (i : Instr) :
    (s.writeSet i).Nodup ∧ ∀ sl ∈ s.writeSet i, sl.shade < s.cfg.shadeCount := by
  cases i <;> simp only [State.writeSet] <;> (try split) <;>
    simp +contextual [allSlots_nodup, rowSlots_nodup]

end Sys2Proof.Machine
end

