-- ==== Sys2Proof/Laws/Streaming.lean ====
section
/-! SUPPORT. What a scheduler step and an engine step can do (R142–R145, R150), once for all later proofs. -/

namespace Sys2Proof.Machine

variable {s t : State}

/-- R142: a FETCH that answers a next state has waited for the lock, or has latched what it read. -/
theorem State.fetchStep_cases {mask : Word} (h : s.fetchStep mask = .next t) :
    (s.fetchEnabled = false ∧ t = s) ∨
      ∃ w, s.fetchEnabled = true ∧ s.readSb s.schSlot mask = some w ∧
        t = { s with schW := w, schP := 0, schPhase := .emit } := by
  unfold State.fetchStep at h
  split at h
  · next he =>
    split at h
    · next w hw =>
      cases h
      exact .inr ⟨w, he, hw, rfl⟩
    · cases h
  · next he =>
    cases h
    exact .inl ⟨by simpa using he, rfl⟩

/-- R144: the advance writes the scheduler's counters and phase only, and keeps them in their ranges. -/
theorem State.advance_cases (hN : s.schS.toNat < s.cfg.shadeCount) (hN' : s.cfg.shadeCount ≤ 255)
    (hP : s.schP.toNat < 3) :
    ∃ p r sh ph, s.advance = { s with schP := p, schR := r, schS := sh, schPhase := ph } ∧
      p.toNat < 3 ∧ sh.toNat < s.cfg.shadeCount ∧ (ph = .emit → s.schPhase = .emit ∧ r = s.schR) := by
  unfold State.advance
  split
  · next h =>
    refine ⟨s.schP + 1, s.schR, s.schS, s.schPhase, rfl, ?_, hN, fun h => ⟨h, rfl⟩⟩
    rw [BitVec.toNat_add]
    have : (1 : BitVec 2).toNat = 1 := rfl
    omega
  · split
    · exact ⟨0, s.schR + 1, s.schS, .fetch, rfl, by decide, hN, fun h => by cases h⟩
    · split
      · refine ⟨0, 0, s.schS + 1, .fetch, rfl, by decide, ?_, fun h => by cases h⟩
        rw [BitVec.toNat_add]
        have : (1 : BitVec 8).toNat = 1 := rfl
        omega
      · exact ⟨0, 0, 0, .gap, rfl, by decide, by simp; omega, fun h => by cases h⟩

/-- R143: an EMIT that answers a next state has waited for room, or has pushed one word and advanced. -/
theorem State.emitStep_cases (h : s.emitStep = .next t) :
    (s.cfg.queueDepth ≤ s.q.length ∧ t = s) ∨
      ∃ m, s.q.length < s.cfg.queueDepth ∧ s.passMaskAt s.schP = some m ∧ t = (s.enqueue (s.schW ||| m)).advance := by
  unfold State.emitStep at h
  split at h
  · next hq =>
    split at h
    · next m hm =>
      cases h
      exact .inr ⟨m, hq, hm, rfl⟩
    · cases h
  · next hq =>
    cases h
    exact .inl ⟨Nat.le_of_not_lt hq, rfl⟩

/-- R9: in an admitted configuration the low byte of a pass mask is zero. -/
theorem State.lowByte_passMaskAt (hc : s.cfg.admitted = true) {p : BitVec 2} {m : Word}
    (h : s.passMaskAt p = some m) : lowByte m = 0 := by
  unfold State.passMaskAt at h
  split at h
  · cases h
    exact ((Config.admitted_iff s.cfg).1 hc).2.2.1 _
  · cases h

/-- R145: a GAP step stays, or goes to FETCH. -/
theorem State.gapStep_cases {stay : Bool} (h : s.gapStep stay = .next t) :
    t = s ∨ t = { s with schPhase := .fetch } := by
  unfold State.gapStep at h
  cases stay <;> cases h <;> simp

/-- R150: the engine takes the head of the queue, or sends the idle word when the queue is empty. -/
theorem engineStep_cases (s : State) :
    (∃ w ws, s.q = w :: ws ∧ engineStep s = { s with q := ws, out := s.out ++ [w] }) ∨
      (s.q = [] ∧ engineStep s = { s with out := s.out ++ [idleWord] }) := by
  unfold engineStep
  split
  · next w ws h => exact .inl ⟨w, ws, h, rfl⟩
  · next h => exact .inr ⟨h, rfl⟩

/-- R150, R151: an engine step sends one word on the lines, the head of the queue or the idle word. -/
theorem engineStep_lineEvents (s : State) :
    (engineStep s).lineEvents = s.lineEvents ++ transmit (s.q.headD idleWord) := by
  rcases engineStep_cases s with ⟨w, ws, hq, h⟩ | ⟨hq, h⟩ <;> simp [h, hq, State.lineEvents]

end Sys2Proof.Machine
end

