-- ==== Sys2Proof/Laws/Executor.lean ====
section
/-! SUPPORT. What an executor step, a host step and a step of the machine can do (R170, R200), once for all later
proofs. -/

namespace Sys2Proof.Machine

variable {s t : State}

/-- R79: a command has at most 64 beats. -/
theorem beats_le (op : BitVec 4) : beats op ≤ 64 := by
  revert op
  decide

/-- R79: the opcode table's number of beats is that of the rule. -/
theorem beats_opField (hdr : Word) : beats (opField hdr) = beatsOf hdr := by
  have h (n : BitVec 4) : opField hdr = n ↔ hdr.toNat % 16 = n.toNat := by
    rw [← opField_toNat, BitVec.toNat_inj]
  simp only [beats_eq, beatsOf, h]
  rfl

/-- R170, IDLE. -/
theorem State.idleStep_cases (s : State) :
    (s.port = [] ∧ s.idleStep = s) ∨
      ∃ w ws, s.port = w :: ws ∧ s.idleStep = { s with port := ws, exHdr := w, exCnt := 0, exPhase := .collect } := by
  unfold State.idleStep
  split
  · next w ws h => exact .inr ⟨w, ws, h, rfl⟩
  · next h => exact .inl ⟨h, rfl⟩

/-- R170, COLLECT. -/
theorem State.collectStep_cases (s : State) :
    (s.exCnt.toNat < beats (opField s.exHdr) ∧ s.port = [] ∧ s.collectStep = s) ∨
      (∃ w ws, s.exCnt.toNat < beats (opField s.exHdr) ∧ s.port = w :: ws ∧ s.collectStep =
        { s with port := ws, exData := s.exData.setIfInBounds s.exCnt.toNat w, exCnt := s.exCnt + 1 }) ∨
      (beats (opField s.exHdr) ≤ s.exCnt.toNat ∧ s.collectStep = { s with exPhase := .apply }) := by
  unfold State.collectStep
  split
  · next hc =>
    split
    · next w ws h => exact .inr (.inl ⟨w, ws, hc, h, rfl⟩)
    · next h => exact .inl ⟨hc, h, rfl⟩
  · next hc => exact .inr (.inr ⟨Nat.le_of_not_lt hc, rfl⟩)

/-- R170, APPLY: it always answers a next state, an error's (R205) or a command's. -/
theorem State.applyStep_cases (s : State) :
    (∃ c, c ≠ Code.ok ∧ s.applyStep = .next (s.raiseError c)) ∨
      ∃ i pb rotK res, decodeCommand s.exHdr s.exData = .ok i ∧ exec i s = s.applyStep ∧ s.applyStep = .next
        ({ s with pb := pb, rotK := rotK }.finishApply ({ s with pb := pb, rotK := rotK }.writeSet i) res) := by
  unfold State.applyStep
  cases hd : decodeCommand s.exHdr s.exData with
  | error e => exact .inl ⟨.illegalCommand, by decide, rfl⟩
  | ok i =>
    rcases exec_cases i s with ⟨c, hc, h⟩ | ⟨pb, rotK, res, h⟩
    · exact .inl ⟨c, hc, h⟩
    · exact .inr ⟨i, pb, rotK, res, rfl, rfl, h⟩

/-- R170, RESPOND: a next state is that of an enabled slot event, of a response word, or a wait. -/
theorem State.respondStep_cases {pick : Nat} (h : s.respondStep pick = .next t) :
    (∃ e, e ∈ s.slotEvents ∧ s.runEvent e = some t) ∨
      (s.slotEvents = [] ∧ s.settled = true ∧ t = s.sendResponse) ∨
      (s.slotEvents = [] ∧ s.settled = false ∧ t = s) := by
  unfold State.respondStep at h
  split at h
  · next e he =>
    split at h
    · next u hu =>
      cases h
      exact .inl ⟨e, State.pick_mem he, hu⟩
    · cases h
  · next he =>
    cases h
    cases hs : s.settled
    · exact .inr (.inr ⟨State.pick_none he, rfl, by simp⟩)
    · exact .inr (.inl ⟨State.pick_none he, rfl, by simp⟩)

/-- R170: the next response word is appended; IDLE after the last. -/
theorem State.sendResponse_cases (s : State) :
    (s.exRsp = [] ∧ s.sendResponse = { s with exPhase := .idle }) ∨
      (∃ w, s.exRsp = [w] ∧
        s.sendResponse = { s with rsp := s.rsp ++ [w], exRsp := [], exPhase := .idle }) ∨
      (∃ w w' ws, s.exRsp = w :: w' :: ws ∧
        s.sendResponse = { s with rsp := s.rsp ++ [w], exRsp := w' :: ws }) := by
  unfold State.sendResponse
  split
  · next h => exact .inl ⟨h, rfl⟩
  · next w h => exact .inr (.inl ⟨w, h, rfl⟩)
  · next w ws hne h =>
    cases ws with
    | nil => exact absurd rfl hne
    | cons w' ws => exact .inr (.inr ⟨w, w', ws, h, rfl⟩)

/-- R170, by phase. -/
theorem executorStep_cases {pick : Nat} (h : executorStep pick s = .next t) :
    (s.exPhase = .idle ∧ t = s.idleStep) ∨ (s.exPhase = .collect ∧ t = s.collectStep) ∨
      (s.exPhase = .apply ∧ s.applyStep = .next t) ∨ (s.exPhase = .respond ∧ s.respondStep pick = .next t) := by
  unfold executorStep at h
  split at h
  · next hp => cases h; exact .inl ⟨hp, rfl⟩
  · next hp => cases h; exact .inr (.inl ⟨hp, rfl⟩)
  · next hp => exact .inr (.inr (.inl ⟨hp, h⟩))
  · next hp => exact .inr (.inr (.inr ⟨hp, h⟩))

/-- R32, R200: the host consumes a word it has not consumed, or there is none. -/
theorem State.hostConsume_cases (s : State) :
    (s.rspTaken < s.rsp.length ∧ s.hostConsume = { s with rspTaken := s.rspTaken + 1 }) ∨ s.hostConsume = s := by
  unfold State.hostConsume
  split
  · next h => exact .inl ⟨h, rfl⟩
  · exact .inr rfl

/-- A step of the machine that answers a next state is a step of the agent that the next move names. -/
theorem step_eq_next (h : step s = .next t) : s.cfg.admitted = true ∧ moveStep s.nextMove s.afterDraw = .next t := by
  unfold step machineStep at h
  split at h
  · next hc => exact ⟨hc, h⟩
  · cases h

/-- R230: a configuration that is not admitted has no run. -/
theorem step_of_not_admitted (h : s.cfg.admitted = false) : step s = .refused .configNotAdmitted := by
  simp [step, machineStep, h]

/-- In an admitted configuration a step is the step of the agent that the next move names. -/
theorem step_of_admitted (h : s.cfg.admitted = true) : step s = moveStep s.nextMove s.afterDraw := by
  simp [step, machineStep, h]

/-! ## Runs -/

@[simp] theorem runMoves_nil (s : State) : runMoves [] s = .next s := rfl

/-- A run that ends in a next state takes a first step and runs on from there. -/
theorem runMoves_cons {m : Move} {ms : List Move} :
    runMoves (m :: ms) s = .next t ↔ ∃ u, moveStep m s = .next u ∧ runMoves ms u = .next t := by
  simp only [runMoves]
  cases moveStep m s <;> simp

/-- A run over `ms ++ ms'` is a run over `ms` and then one over `ms'`. -/
theorem runMoves_append {ms ms' : List Move} :
    runMoves (ms ++ ms') s = .next t ↔ ∃ u, runMoves ms s = .next u ∧ runMoves ms' u = .next t := by
  induction ms generalizing s with
  | nil => simp
  | cons m ms ih =>
    simp only [List.cons_append, runMoves_cons, ih]
    constructor
    · rintro ⟨u, hu, v, hv, h⟩
      exact ⟨v, ⟨u, hu, hv⟩, h⟩
    · rintro ⟨v, ⟨u, hu, hv⟩, h⟩
      exact ⟨u, hu, v, hv, h⟩

@[simp] theorem quietRun_nil (s : State) : quietRun [] s = s.inflight.all (fun o => o.isNone) := rfl

/-- A run with a next state is quiet exactly when no write is in flight at its start and the rest is quiet. -/
theorem quietRun_cons {m : Move} {ms : List Move} (h : moveStep m s = .next t) :
    quietRun (m :: ms) s = true ↔ s.inflight.all (fun o => o.isNone) = true ∧ quietRun ms t = true := by
  simp only [quietRun, h, Bool.and_eq_true]

/-- No write is in flight at the start of a quiet run. -/
theorem State.inflightAt_of_quietRun {ms : List Move} (h : quietRun ms s = true) (sl : Slot) :
    s.inflightAt sl = none := by
  have hall : s.inflight.all (fun o => o.isNone) = true := by
    cases ms with
    | nil => exact h
    | cons m ms => exact (Bool.and_eq_true_iff.1 h).1
  unfold State.inflightAt
  cases hget : s.inflight[sl.idx]? with
  | none => rfl
  | some o =>
    have := List.all_eq_true.1 hall o (List.mem_of_getElem? hget)
    simp [Option.isNone_iff_eq_none.1 this]

/-- A property that every move keeps is kept by every run (R213). -/
theorem runMoves_induction {P : State → Prop} (hP : ∀ m s t, P s → moveStep m s = .next t → P t) {ms : List Move}
    (hs : P s) (h : runMoves ms s = .next t) : P t := by
  induction ms generalizing s with
  | nil => cases h; exact hs
  | cons m ms ih =>
    obtain ⟨u, hu, h⟩ := runMoves_cons.1 h
    exact ih (hP m s u hs hu) h

end Sys2Proof.Machine
end

