-- ==== Sys2Proof/Laws/Invariant.lean ====
section
/-! SUPPORT. A decidable form of the invariant and of consistency, for concrete states: the slots that exist are
finitely many, and a slot that does not exist has neither a value nor a record. -/

namespace Sys2Proof.Machine

/-- The invariant, the ROMs apart, over the slots that exist. -/
abbrev State.Checked (s : State) : Prop :=
  s.cfg.admitted = true ∧
    (s.sb.length = 8 * s.cfg.shadeCount ∧ s.inflight.length = 8 * s.cfg.shadeCount ∧
      s.lock.length = if s.cfg.shadeLock then s.cfg.shadeCount else 0) ∧
    (∀ sl ∈ allSlots s.cfg.shadeCount, (s.sbAt sl).all (fun w => lowByte w == 1#8 <<< sl.row.val) = true ∧
      ∀ rec ∈ s.inflightAt sl, lowByte rec.old = 1#8 <<< sl.row.val ∧ lowByte rec.new = 1#8 <<< sl.row.val ∧
        s.sbAt sl = some rec.old ∧ (s.cfg.shadeLock = true → s.lockHeld sl.shade = true)) ∧
    (s.schS.toNat < s.cfg.shadeCount ∧ s.schP.toNat < 3 ∧
      (s.schPhase = .emit → lowByte s.schW = 1#8 <<< s.schR.toNat)) ∧
    (s.q.length ≤ s.cfg.queueDepth ∧ s.q.all (fun w => decide (∃ r : Fin 8, lowByte w = 1#8 <<< r.val)) = true) ∧
    s.out.all (fun w => decide (w = idleWord ∨ ∃ r : Fin 8, lowByte w = 1#8 <<< r.val)) = true ∧
    (s.exPend.Nodup ∧ ∀ sl ∈ s.exPend, sl.shade < s.cfg.shadeCount ∧ s.inflightAt sl = none) ∧
    ((s.exPhase ≠ .respond → s.settled = true ∧ s.exRsp = []) ∧ (s.exPhase = .respond → s.exRsp ≠ []) ∧
      (s.exPhase = .collect → s.exCnt.toNat ≤ beats (opField s.exHdr)) ∧
      (s.exPhase = .apply → s.exCnt.toNat = beats (opField s.exHdr)) ∧ s.exCnt.toNat ≤ 64) ∧
    s.rspTaken ≤ s.rsp.length

/-- A checked state whose ROMs are those of construction holds the invariant. -/
theorem State.Checked.inv {s : State} (h : s.Checked) (roms : s.RomsBuilt) : s.Inv := by
  obtain ⟨adm, sized, slots, sched, queue, output, pend, ⟨quiet, owing, collect, app, count⟩, host⟩ := h
  have lt_of_sb {sl : Slot} {w : Word} (hw : s.sbAt sl = some w) : sl.shade < s.cfg.shadeCount := by
    by_contra hlt
    rw [State.sbAt_eq_none sized hlt] at hw
    cases hw
  have lt_of_rec {sl : Slot} {rec : WriteRecord} (hr : s.inflightAt sl = some rec) :
      sl.shade < s.cfg.shadeCount := State.shade_lt_of_inflight sized hr
  have rec_ok {sl : Slot} {rec : WriteRecord} (hr : s.inflightAt sl = some rec) :=
    (slots sl ((mem_allSlots _ _).2 (lt_of_rec hr))).2 rec hr
  exact
    { admitted := adm
      sized := sized
      romsBuilt := roms
      oneHot := fun sl => ⟨fun w hw => by
        have h1 := (slots sl ((mem_allSlots _ _).2 (lt_of_sb hw))).1
        rw [hw] at h1
        simpa [rowSelected] using h1,
        fun rec hr => ⟨(rec_ok hr).1, (rec_ok hr).2.1⟩⟩
      inflightOld := fun sl rec hr => (rec_ok hr).2.2.1
      scheduler := sched
      queue := ⟨queue.1, fun w hw => by simpa [schedulerWord, rowSelected] using List.all_eq_true.1 queue.2 w hw⟩
      output := fun w hw => by simpa [schedulerWord, rowSelected] using List.all_eq_true.1 output w hw
      locks := fun hl sl hsl => by
        obtain ⟨rec, hr⟩ := Option.isSome_iff_exists.1 hsl
        exact (rec_ok hr).2.2.2 hl
      pending := pend
      executor := ⟨quiet, owing, collect, app, count⟩
      host := host }

/-- Consistency (R127), over the slots that exist. -/
theorem State.consistent_iff (s : State) : s.Consistent ↔
    ∀ sl ∈ allSlots s.cfg.shadeCount, s.inflightAt sl = none ∧ s.sbAt sl = s.encoded sl := by
  simp only [State.Consistent, mem_allSlots]

end Sys2Proof.Machine
end

