-- ==== Sys2Proof/Laws/PerInstr.lean ====
section
/-! SUPPORT. Facts about every command as syntax, one lemma for each constructor: the length of its encoding (R79). -/

namespace Sys2Proof.Laws.CommandLength

/-- R79: "SETPIXELS 65; SETPIXEL 2; every other OP value 1", in port words, the header included. -/
def portWords : Instr → Nat
  | .setpixels _ => 65
  | .setpixel _ _ _ => 2
  | .getpixels | .getpixel _ _ | .setrot _ | .setrotnr _ | .getrot => 1

/-- The encoding of a command has the length R79 gives it. -/
def Statement (i : Instr) : Prop := (encode i).length = portWords i

theorem setpixels (img : Image) : Statement (.setpixels img) := by simp [Statement, encode, portWords]
theorem getpixels : Statement .getpixels := rfl
theorem setpixel (x y : Nat) (c : Pixel) : Statement (.setpixel x y c) := rfl
theorem getpixel (x y : Nat) : Statement (.getpixel x y) := rfl
theorem setrot (a : Nat) : Statement (.setrot a) := rfl
theorem setrotnr (a : Nat) : Statement (.setrotnr a) := rfl
theorem getrot : Statement .getrot := rfl

end Sys2Proof.Laws.CommandLength
end

