-- ==== Sys2Proof/Tests/Slice0.lean ====
section
/-! SUPPORT. Small tests of the model, each with its source in the spec, and a witness for the hypotheses of every
statement of Certificates/Slice0/Obligations.lean that has hypotheses. -/

namespace Sys2Proof.Tests

open Sys2Proof.Machine

set_option Elab.async false

/-! ## WellFormed: an ill-formed term for each check (R83, R86) -/

theorem test_wf_setpixel_x : (Instr.setpixel 16 0 0).wf = false := by decide
theorem test_wf_setpixel_y : (Instr.setpixel 0 16 0).wf = false := by decide
theorem test_wf_getpixel_x : (Instr.getpixel 16 0).wf = false := by decide
theorem test_wf_getpixel_y : (Instr.getpixel 0 16).wf = false := by decide
theorem test_wf_setrot : (Instr.setrot 65536).wf = false := by decide
theorem test_wf_setrotnr : (Instr.setrotnr 65536).wf = false := by decide
theorem test_wf_accepts_reported : ((Instr.setpixel 8 15 0).wf && (Instr.setrot 45).wf) = true := by decide

/-! ## Decoding: words written out from opcode_table.json, V2.5, V2.6 and V2.7 -/

theorem test_decode_setpixels :
    decodeTableWord 32 0b00000000000000000000000000000001 = some (.setpixels (Vector.replicate 64 0)) := by
  decide +kernel
theorem test_decode_getpixels : decodeTableWord 32 0b00000000000000000000000000000010 = some .getpixels := by decide
theorem test_decode_setpixel : decodeTableWord 32 0b00000000000000000000010100100011 = some (.setpixel 2 5 0) := by
  decide
theorem test_decode_setpixel_beat :
    decodeTableWord 64 0xAB00FF0000000233 = some (.setpixel 3 2 0x00FF00) := by decide
theorem test_decode_getpixel : decodeTableWord 32 0b00000000000000000000000001110100 = some (.getpixel 7 0) := by decide
theorem test_decode_setrot : decodeTableWord 32 0b00000001000011100000000000000101 = some (.setrot 270) := by decide
theorem test_decode_setrotnr : decodeTableWord 32 0b00000000101101000000000000000110 = some (.setrotnr 180) := by
  decide
theorem test_decode_getrot : decodeTableWord 32 0b00000000000000000000000000000111 = some .getrot := by decide

/-- V2.7 and P4: the beats of an illegal SETPIXELS are taken and discarded. -/
theorem test_illegal_takes_beats :
    decodeStream (0x00001001 :: List.replicate 64 0xFF000000 ++ [0x84]) = .illegal .illegalField [0x84] := by
  decide +kernel

/-- V2.7: the codes of a header. -/
theorem test_check_codes :
    [0x00000000, 0x00000011, 0x00001002, 0x00000783, 0x00010083, 0x00000804, 0x01680005, 0x01680015, 0xFFA60006,
      0x005A0007, 0x0000000F, 0x010E0005].map checkHeader =
      [.illegalCommand, .illegalCommand, .illegalCommand, .boundsError, .illegalCommand, .boundsError,
        .invalidRotation, .illegalCommand, .invalidRotation, .illegalCommand, .illegalCommand, .ok] := by decide

/-! ## The assembler (R86, R87; programs P1, P3, P4) -/

theorem test_assemble_setpixel : assembleText "SETPIXEL 2, 5, 0x000000".toList = some [0x00000523, 0x00000000] := by
  decide +kernel
theorem test_assemble_setrotnr : assembleText "SETROTNR 180".toList = some [0x00B40006] := by decide +kernel
theorem test_assemble_refuses : assembleText "GETPIXEL 16, 0".toList = none := by decide +kernel
theorem test_assemble_fill :
    assembleText "FILL 0xFFFFFF".toList = some (0x00000001 :: List.replicate 64 0x00FFFFFF) := by decide +kernel

/-! ## ROMs and encoder (V2.1 to V2.5) -/

theorem test_thresholds_4 : computeThresholds 4 = [0, 63, 126, 189] := by decide
theorem test_thresholds_6 : computeThresholds 6 = [0, 42, 84, 126, 168, 210] := by decide

/-- V2.2, column d = 45. -/
theorem test_rotation_rom : buildRotationMaps.toList.map (fun page => page.get 45) = [45, 21, 18, 42] := by
  decide +kernel

/-- V2.3: v = t and v = t + 1. -/
theorem test_active_edge : active 126 126 = true ∧ active 127 126 = false ∧ active 255 254 = false := by decide

/-- V2.4, image I: source row 0 of reds, green and blue 0; every other cell white. -/
def rampImage : Image :=
  Vector.ofFn fun j =>
    ([0x000000, 0x3F0000, 0x400000, 0x7E0000, 0x7F0000, 0xBD0000, 0xBE0000, 0xFF0000] : List Pixel).getD j.val 0xFFFFFF

theorem test_encodeRow_0 : encodeRow rampImage (buildRotationMaps.get 0) 63 0 = 0xC0FFFF01 := by decide +kernel
theorem test_encodeRow_90 : encodeRow rampImage (buildRotationMaps.get 1) 126 3 = 0x01010108 := by decide +kernel
theorem test_encodeRow_180 : encodeRow rampImage (buildRotationMaps.get 2) 189 7 = 0x3FFFFF80 := by decide +kernel
theorem test_encodeRow_270 : encodeRow rampImage (buildRotationMaps.get 3) 63 5 = 0x00808020 := by decide +kernel

/-- V2.4, the single pixel: R = 63, G = 64, B = 200; the planes are in the order red, blue, green. -/
theorem test_encodeRow_planes :
    encodeRow ((Vector.replicate 64 0xFFFFFF).set 0 0x3F40C8) (buildRotationMaps.get 0) 126 0 = 0x80008001 := by
  decide +kernel

/-- V2.5: the row rebuilt for x = 2, y = 5 under each page. -/
theorem test_pixelRow : buildRotationMaps.toList.map (fun page => pixelRow page 2 5) = [5, 2, 2, 5] := by
  decide +kernel

/-! ## States: one shade (the configuration of P5), with and without the lock -/

/-- REFCFG with N = 1 (P5). -/
def cfg1 : Config := { Config.refcfg with shadeCount := 1 }

/-- The same with SHADE_LOCK. -/
def cfgLocked : Config := { cfg1 with shadeLock := true }

/-- The shade store of the black image for N = 1: THRESH[0] = 0, so every lane of every colour is active (R120). -/
def blackStore : List Word :=
  [0xFFFFFF01, 0xFFFFFF02, 0xFFFFFF04, 0xFFFFFF08, 0xFFFFFF10, 0xFFFFFF20, 0xFFFFFF40, 0xFFFFFF80]

/-- After reset: IDLE, FETCH (0,0). -/
def idle1 : State := { State.resetWith cfg1 with sb := blackStore }

/-- After reset with SHADE_LOCK: every lock FREE. -/
def idleLocked : State := { State.resetWith cfgLocked with sb := blackStore }

/-- In APPLY with a command's words. -/
def applying (ws : List Word) : State := idle1.loadCommand ws

/-- In RESPOND with every slot to write. -/
def pending1 : State := { idle1 with exPhase := .respond, exPend := allSlots 1, exRsp := [0] }

/-- In RESPOND with the write of slot (0, 3) in flight, from the black row to a row with cell 24 white. -/
def inflight1 : State :=
  { idle1 with
    exPhase := .respond
    exRsp := [0]
    inflight := (List.replicate 8 none).set 3 (some { old := 0xFFFFFF08, new := 0x7F7F7F08 }) }

/-- With SHADE_LOCK: every slot to write, the lock HELD. -/
def locked1 : State :=
  { idleLocked with exPhase := .respond, exPend := allSlots 1, exRsp := [0], lock := [.held] }

/-- In EMIT with a row-word latched. -/
def emitting1 : State := { idle1 with schPhase := .emit, schW := 0x80008001, schP := 2 }

/-- V2.12: the store after reset. -/
theorem test_reset_black : (State.resetWith cfg1).sb = blackStore := by decide +kernel

theorem inv_idle1 : idle1.Inv := State.Checked.inv (by decide +kernel) ⟨rfl, rfl⟩
theorem inv_applying_getrot : (applying [0x7]).Inv := State.Checked.inv (by decide +kernel) ⟨rfl, rfl⟩
theorem inv_applying_setrot : (applying [0x005A0005]).Inv := State.Checked.inv (by decide +kernel) ⟨rfl, rfl⟩
theorem inv_pending1 : pending1.Inv := State.Checked.inv (by decide +kernel) ⟨rfl, rfl⟩
theorem inv_inflight1 : inflight1.Inv := State.Checked.inv (by decide +kernel) ⟨rfl, rfl⟩
theorem inv_locked1 : locked1.Inv := State.Checked.inv (by decide +kernel) ⟨rfl, rfl⟩
theorem inv_emitting1 : emitting1.Inv := State.Checked.inv (by decide +kernel) ⟨rfl, rfl⟩
theorem inv_idle_locked : idleLocked.Inv := State.Checked.inv (by decide +kernel) ⟨rfl, rfl⟩

/-- A field of the state a step answers. -/
def fieldOf {α : Type} (f : State → α) : Host.Outcome State Fault Refusal → Option α
  | .next s => some (f s)
  | .fault _ => none
  | .refused _ => none

/-! ## The commands, one APPLY each (V2.5, V2.6, V2.8) -/

theorem test_setpixels_pb :
    fieldOf (fun s => s.pb.get 9) (exec (.setpixels (Vector.replicate 64 0x123456)) idle1) = some 0x123456 := by decide
theorem test_setpixels_pend :
    fieldOf (fun s => s.exPend.length) (exec (.setpixels (Vector.replicate 64 0)) State.reset) = some 32 := by
  decide +kernel
theorem test_getpixels_results :
    fieldOf (fun s => s.exRsp) (exec .getpixels idle1) = some (List.replicate 65 0) := by decide +kernel
theorem test_setpixel_cell :
    fieldOf (fun s => (s.pb.get 42, s.pb.get 21)) (exec (.setpixel 2 5 0xFFFFFF) idle1) = some (0xFFFFFF, 0) := by
  decide
theorem test_setpixel_row :
    fieldOf (fun s => s.exPend) (exec (.setpixel 2 5 0) { idle1 with rotK := 1 }) = some [{ shade := 0, row := 2 }] := by
  decide +kernel
theorem test_getpixel_result :
    fieldOf (fun s => s.exRsp) (exec (.getpixel 7 0) { idle1 with pb := idle1.pb.set 7 0x123456 }) =
      some [0, 0x00123456] := by decide
theorem test_getpixel_bounds : fieldOf (fun s => s.rsp) (exec (.getpixel 8 0) idle1) = some [2] := by decide
theorem test_setrot_90 :
    fieldOf (fun s => (s.rotK, s.exPend.length)) (exec (.setrot 90) idle1) = some (1, 8) := by decide
theorem test_setrot_45 :
    fieldOf (fun s => (s.rotK, s.rsp)) (exec (.setrot 45) { idle1 with rotK := 3 }) = some (3, [1]) := by decide
theorem test_setrotnr_180 :
    fieldOf (fun s => (s.rotK, s.exPend)) (exec (.setrotnr 180) idle1) = some (2, []) := by decide
theorem test_getrot_270 :
    fieldOf (fun s => s.exRsp) (exec .getrot { idle1 with rotK := 3 }) = some [0, 0x0000010E] := by decide

/-! ## Steps of the agents -/

/-- withFetchWord: the next step runs the command (SETROT 90 from reset). -/
theorem test_withFetchWord :
    fieldOf (fun s => s.rotK) (step (State.reset.withFetchWord 32 0x005A0005)) = some 1 := by decide +kernel

/-- V2.12: slots after reset under REFCFG. -/
theorem test_reset_store : State.reset.sbAt { shade := 2, row := 3 } = some 0xFFFFFF08 := by decide +kernel

/-- V2.12: configurations that are refused. -/
theorem test_refused_configurations :
    [0, 256].map (fun n => ({ cfg1 with shadeCount := n } : Config).admitted) = [false, false] ∧
      ({ cfg1 with queueDepth := 0 } : Config).admitted = false ∧
      ({ cfg1 with passMask := #v[0x00FFFF01, 0, 0] } : Config).admitted = false := by decide

/-- R170: IDLE takes the header. -/
theorem test_idle_takes_header :
    fieldOf (fun s => (s.exHdr, s.exPhase, s.port)) (moveStep (.executor 0) { idle1 with port := [0x7, 0x2] }) =
      some (0x7, .collect, [0x2]) := by decide

/-- R170: an illegal header answers code 3 and returns to IDLE. -/
theorem test_apply_illegal :
    fieldOf (fun s => (s.rsp, s.exPhase)) (step (applying [0x0000000A])) = some ([3], .idle) := by decide +kernel

/-- V2.9: a torn read takes each differing bit from old or new. -/
theorem test_torn_values :
    [0x00000000, 0xFFFFFFFF, 0x80000000, 0x00008000].map (tornWord 0x80808001 0x00000001) =
      [0x80808001, 0x00000001, 0x00808001, 0x80800001] := by decide

/-- R59: a begin event leaves the slot's value, an end event writes it. -/
theorem test_begin_then_end :
    fieldOf (fun s => (s.sbAt { shade := 0, row := 0 }, (s.inflightAt { shade := 0, row := 0 }).isSome))
      (moveStep (.executor 0) pending1) = some (some 0xFFFFFF01, true) ∧
    fieldOf (fun s => (s.sbAt { shade := 0, row := 3 }, s.inflightAt { shade := 0, row := 3 }))
      (moveStep (.executor 0) inflight1) = some (some 0x7F7F7F08, none) := by decide +kernel

/-- R60: a FETCH of a HELD shade waits. -/
theorem test_locked_fetch_waits :
    fieldOf (fun s => s.schPhase) (moveStep (.scheduler 0 false) locked1) = some .fetch := by decide +kernel

/-- R143's worked example, the pass p = 2, and R144's next row. -/
theorem test_emit :
    fieldOf (fun s => (s.q, s.schP, s.schR, s.schPhase)) (moveStep (.scheduler 0 false) emitting1) =
      some ([0xFF00FF01], 0, 1, .fetch) := by decide +kernel

/-- V2.11, step 1: the engine sends the idle word. -/
theorem test_engine_idle : fieldOf (fun s => s.out) (moveStep .engine idle1) = some [0x00000000] := by decide

/-- V2.11: the bits of 0x80FFFF01, first to last. -/
theorem test_serial_bits :
    (serialBits 0x80FFFF01).map Bool.toNat =
      [1, 0, 0, 0, 0, 0, 0, 0, 1, 1, 1, 1, 1, 1, 1, 1, 1, 1, 1, 1, 1, 1, 1, 1, 0, 0, 0, 0, 0, 0, 0, 1] := by decide

/-! ## Witnesses: the hypotheses of the statements can be met -/

theorem witness_DecodeOfEncode : (Instr.setpixel 15 8 0x0000BE).wf = true ∧ (Instr.setrot 65535).wf = true := by decide

theorem witness_EncodeOfDecode :
    decodeCommand 0x00000F83 (Vector.replicate 64 0xAB00FF00) = .ok (.setpixel 8 15 0x00FF00) := by rfl

theorem witness_IllegalCommandExactly :
    [0x00000000, 0x0000000F, 0x80000001, 0x00000012, 0x00010083, 0x00001004, 0x00000015, 0x00001006].all
        (fun h : Word => decide (checkHeader h = .illegalCommand)) = true ∧
      (IllegalHeader (applying [0x0000000F]).exHdr) ∧ IllegalHeader (applying [0x80000001]).exHdr ∧
      IllegalHeader (applying [0x00001004]).exHdr ∧ IllegalHeader (applying [0x00001006]).exHdr ∧
      ¬ IllegalHeader (applying [0xFFFF0005]).exHdr := by
  simp only [IllegalHeader]
  refine ⟨by decide, ?_, ?_, ?_, ?_, ?_⟩ <;> decide

theorem witness_CommandLengthByOpAlone :
    ∃ hdr : Word, hdr.toNat % 16 = 1 ∧ ([] : List Word).length < 64 ∧ 64 ≤ (List.replicate 64 (0 : Word)).length :=
  ⟨0x11, by decide, by decide, by simp⟩

theorem witness_RotationInverseMaps : romEntry 1 2 2 = 8 * 5 + 2 ∧ ((2 : Fin 8), (2 : Fin 8)) = displayCell 1 5 2 := by
  decide +kernel

theorem witness_EncodePixelRowShowsCell :
    idle1.rotMap = buildRotationMaps ∧ (3 : Fin 8) ≠ pixelRow idle1.page 2 5 := by decide +kernel

theorem witness_OnlyAdmittedConfigurationsRun :
    (State.construct { cfg1 with shadeCount := 256 }).isSome = false ∧ (State.construct { cfg1 with shadeCount := 255 }).isSome = true := by
  decide +kernel

theorem witness_admitted : cfg1.admitted = true ∧ cfgLocked.admitted = true ∧ Config.refcfg.admitted = true := by decide

theorem witness_StepKeepsInvariant :
    ∃ s t, State.Inv s ∧ step s = .next t :=
  ⟨applying [0x7], _, inv_applying_getrot, rfl⟩

theorem witness_RowSelectAtEveryInstant :
    ∃ ms s, cfg1.admitted = true ∧ runMoves ms (State.resetWith cfg1) = .next s ∧ ms ≠ [] :=
  ⟨[.scheduler 0 false], _, by decide, rfl, by decide⟩

theorem witness_StepRunsDecodedCommand :
    (applying [0x774]).cfg.admitted = true ∧ (applying [0x774]).nextMove = .executor 0 ∧
      (applying [0x774]).exPhase = .apply ∧
      decodeCommand (applying [0x774]).exHdr (applying [0x774]).exData = .ok (.getpixel 7 7) :=
  ⟨by decide, rfl, rfl, rfl⟩

/-- One header for each clause: bits 31:12 not zero, x = 8, an angle of 91, none. -/
theorem witness_ApplyAnswersCheck :
    (applying [0x1084]).exPhase = .apply ∧ IllegalHeader (applying [0x1084]).exHdr ∧
      ¬ IllegalHeader (applying [0x84]).exHdr ∧ (0x84 % 16 = 4 ∧ 8 ≤ ((0x84 : Word).extractLsb' 4 4).toNat) ∧
      ¬ IllegalHeader (applying [0x5B0005]).exHdr ∧ ((0x5B0005 : Word).extractLsb' 16 16).toNat ∉ [0, 90, 180, 270] ∧
      ¬ IllegalHeader (applying [0x74]).exHdr ∧ ¬ 8 ≤ ((0x74 : Word).extractLsb' 4 4).toNat ∧
      ¬ 8 ≤ ((0x74 : Word).extractLsb' 8 4).toNat := by
  simp only [IllegalHeader]
  refine ⟨rfl, ?_, ?_, ?_, ?_, ?_, ?_, ?_, ?_⟩ <;> decide

theorem witness_CheckFunctionDecides :
    checkHeader (applying [0x84]).exHdr = .boundsError ∧ checkHeader (applying [0x5B0006]).exHdr = .invalidRotation ∧
      checkHeader (applying [0x1001]).exHdr = .illegalCommand ∧ checkHeader (applying [0x74]).exHdr = .ok := by
  decide +kernel

/-- An illegal SETPIXEL (bits 31:12 not zero) with a beat whose bits 31:24 are set, and a SETPIXEL with such a beat. -/
theorem witness_CommandIsTakenFromPort :
    ∃ (s s' : State) (hdr hdr' : Word) (data rest : List Word) (picks : List Nat), s.exPhase = .idle ∧
      s.port = hdr :: (data ++ rest) ∧ data.length = beatsOf hdr ∧ picks.length = data.length + 2 ∧
      IllegalHeader hdr ∧ rest ≠ [] ∧ s'.exPhase = .idle ∧ s'.port = hdr' :: (data ++ rest) ∧
      data.length = beatsOf hdr' ∧ ¬ IllegalHeader hdr' := by
  refine ⟨{ idle1 with port := [0x10000523, 0xAB00FF00, 0x7] }, { idle1 with port := [0x523, 0xAB00FF00, 0x7] },
    0x10000523, 0x523, [0xAB00FF00], [0x7], [0, 0, 0], ?_⟩
  simp only [IllegalHeader]
  decide

/-- R79, R205: the beat of the illegal SETPIXEL is taken, and the next header after it. -/
theorem test_illegal_beat_discarded :
    fieldOf (fun s => (s.rsp, s.port, s.exPhase)) (runMoves (List.replicate 4 (.executor 0))
      { idle1 with port := [0x10000523, 0xAB00FF00, 0x7] }) = some ([3], [0x7], .idle) := by decide +kernel

theorem witness_ExecutorWaitsForHost :
    idle1.port = [] ∧ idle1.exPhase = .idle ∧
      ({ idle1 with exPhase := .collect, exHdr := 0x1 } : State).exCnt.toNat < beats (opField 0x1) := by decide

theorem witness_SetpixelApplies :
    pixelRow ({ idle1 with rotK := 1 } : State).page 2 5 = 2 ∧ (cell 7 7).val = 63 ∧ (cell 0 0).val = 0 := by
  decide +kernel

theorem witness_BoundsErrorChangesNothing : (8 ≤ (8 : Nat) ∨ 8 ≤ (7 : Nat)) ∧ (8 ≤ (0 : Nat) ∨ 8 ≤ (15 : Nat)) := by
  decide

theorem witness_InvalidRotationChangesNothing :
    (360 : Nat) ≠ 0 ∧ (360 : Nat) ≠ 90 ∧ (360 : Nat) ≠ 180 ∧ (360 : Nat) ≠ 270 := by decide

/-- The phase a run ends in. -/
def phaseAfter (ms : List Move) (s : State) : Option ExPhase := fieldOf State.exPhase (runMoves ms s)

/-- A run whose prefixes are not in IDLE and whose end is, as CompletesBy asks. -/
theorem completes_of_phases {ms : List Move} {s : State} (h : phaseAfter ms s = some .idle)
    (hp : ∀ k < ms.length, phaseAfter (ms.take k) s ≠ some .idle) : ∃ u, CompletesBy s ms u := by
  unfold phaseAfter at h
  cases hr : runMoves ms s with
  | next u =>
    rw [hr] at h
    refine ⟨u, hr, by simpa [fieldOf] using h, fun k v hk hv hi => hp k hk ?_⟩
    simp [phaseAfter, hv, fieldOf, hi]
  | fault e => rw [hr] at h; cases h
  | refused e => rw [hr] at h; cases h

/-- GETROT: APPLY, two response words. -/
theorem witness_CommandRunsToItsRule :
    ∃ (s : State) (i : Instr) (ms : List Move) (u : State), s.Inv ∧ s.exPhase = .apply ∧
      decodeCommand s.exHdr s.exData = .ok i ∧ CompletesBy s ms u := by
  obtain ⟨u, hu⟩ := completes_of_phases (s := applying [0x7])
    (ms := [.executor 0, .scheduler 0 false, .executor 1, .executor 0]) (by decide +kernel) (by decide +kernel)
  exact ⟨_, .getrot, _, u, inv_applying_getrot, rfl, rfl, hu⟩

/-- SETROT 90: APPLY, eight begins and eight ends in an order of the picks, one response word. -/
theorem witness_CommandsKeepConsistency :
    ∃ (s : State) (ms : List Move) (u : State), s.Inv ∧ s.Consistent ∧ s.exPhase = .apply ∧
      decodeCommand s.exHdr s.exData = .ok (.setrot 90) ∧ anglePage 90 = some 1 ∧ CompletesBy s ms u := by
  obtain ⟨u, hu⟩ := completes_of_phases (s := applying [0x005A0005])
    (ms := (List.range 18).map fun n => .executor (3 * n)) (by decide +kernel) (by decide +kernel)
  exact ⟨_, _, u, inv_applying_setrot, (State.consistent_iff _).2 (by decide +kernel), rfl, rfl, rfl, hu⟩

/-- A run that serves the words on the port, from its end: the phase, the port and the responses. -/
theorem serves_of_end {ws rsp : List Word} {ms : List Move} {s : State} (hc : s.Checked) (hr : s.RomsBuilt)
    (hi : s.exPhase = .idle) (hp : s.port = ws) (hs : ms.all (fun m => !isHostSendMove m) = true)
    (he : fieldOf (fun u => (u.exPhase, u.port, u.rsp)) (runMoves ms s) = some (.idle, [], rsp)) :
    ∃ u, Serves ws ms s u ∧ u.rsp = rsp := by
  cases h : runMoves ms s with
  | next u =>
    rw [h] at he
    obtain ⟨h1, h2, h3⟩ : u.exPhase = .idle ∧ u.port = [] ∧ u.rsp = rsp := by simpa [fieldOf] using he
    exact ⟨u, ⟨hc.inv hr, hi, hp, fun m hm => by simpa using List.all_eq_true.1 hs m hm, h, h1, h2⟩, h3⟩
  | fault e => rw [h] at he; cases he
  | refused e => rw [h] at he; cases he

/-- IDLE with words on the port. -/
def waiting1 (ws : List Word) : State := { idle1 with port := ws }

/-- A GETROT, an illegal SETPIXEL with its beat and a GETPIXEL out of range on the port, taken and answered. -/
theorem witness_CommandSequenceAnswers :
    ∃ (s u : State) (cs : List PortCommand) (ms : List Move), (∀ c ∈ cs, c.whole) ∧
      Serves (cs.flatMap PortCommand.words) ms s u ∧ u.rsp = [0, 0, 3, 2] := by
  obtain ⟨u, hu⟩ := serves_of_end (s := waiting1 [0x7, 0x10000523, 0xAB00FF00, 0x84]) (rsp := [0, 0, 3, 2])
    (ms := List.replicate 12 (.executor 0)) (by decide +kernel) ⟨rfl, rfl⟩ rfl rfl (by decide) (by decide +kernel)
  refine ⟨_, u, [{ hdr := 0x7, data := [] }, { hdr := 0x10000523, data := [0xAB00FF00] }, { hdr := 0x84, data := [] }],
    _, ?_, hu⟩
  simp only [PortCommand.whole]
  decide

theorem witness_ofInstr : (Instr.setpixel 15 8 0x0000BE).wf = true ∧ (Instr.getpixel 0 15).wf = true := by decide

/-- SETPIXEL 2, 5, white then GETPIXEL of the same cell: with N = 1, one begin and one end between them. -/
theorem witness_PixelRoundTrips :
    ∃ (s : State) (ms : List Move) (u : State),
      Serves (encode (.setpixel 2 5 0xFFFFFF) ++ encode (.getpixel 2 5)) ms s u ∧ u.rsp = [0, 0, 0x00FFFFFF] :=
  ⟨waiting1 [0x523, 0x00FFFFFF, 0x524], List.replicate 12 (.executor 0),
    serves_of_end (by decide +kernel) ⟨rfl, rfl⟩ rfl (by decide) (by decide) (by decide +kernel)⟩

/-- SETPIXELS then GETPIXELS. -/
theorem witness_PixelRoundTrips_image :
    ∃ (s : State) (ms : List Move) (u : State),
      Serves (encode (.setpixels (Vector.replicate 64 0x123456)) ++ encode .getpixels) ms s u ∧
        u.rsp = 0 :: 0 :: List.replicate 64 0x00123456 :=
  ⟨waiting1 (encode (.setpixels (Vector.replicate 64 0x123456)) ++ encode .getpixels), List.replicate 152 (.executor 0),
    serves_of_end (by decide +kernel) ⟨rfl, rfl⟩ rfl rfl (by decide +kernel) (by decide +kernel)⟩

theorem witness_HostLawsOfTheStore_invalid :
    ∃ (s : State) (ms : List Move) (u : State), Serves (encode (.setrot 45)) ms s u ∧ u.rsp = [1] :=
  ⟨waiting1 [0x002D0005], List.replicate 3 (.executor 0),
    serves_of_end (by decide +kernel) ⟨rfl, rfl⟩ rfl (by decide) (by decide) (by decide +kernel)⟩

/-- FILL of black, which is SETPIXELS of black: the image J of black too. -/
theorem witness_HostLawsOfTheStore_fill :
    assembleLine (.fill 0) = some (encode (.setpixels (Vector.replicate 64 0))) ∧
      ∃ (s : State) (ms : List Move) (u : State),
        Serves (encode (.setpixels (Vector.replicate 64 0))) ms s u ∧ u.rsp = [0] :=
  ⟨by decide +kernel, waiting1 (encode (.setpixels (Vector.replicate 64 0))), List.replicate 84 (.executor 0),
    serves_of_end (by decide +kernel) ⟨rfl, rfl⟩ rfl rfl (by decide +kernel) (by decide +kernel)⟩

/-- SETPIXELS of black then SETROT 90, from ROT_K = 0. -/
theorem witness_HostLawsOfTheStore_rotate :
    ∃ (s : State) (ms : List Move) (u : State),
      Serves (encode (.setpixels (Vector.replicate 64 0)) ++ encode (.setrot 90)) ms s u ∧ u.rsp = [0, 0] :=
  ⟨waiting1 (encode (.setpixels (Vector.replicate 64 0)) ++ encode (.setrot 90)), List.replicate 104 (.executor 0),
    serves_of_end (by decide +kernel) ⟨rfl, rfl⟩ rfl rfl (by decide +kernel) (by decide +kernel)⟩

/-- A fair schedule: executor, scheduler and engine in turn. -/
def roundRobin (n : Nat) : Move :=
  match n % 3 with
  | 0 => .executor n
  | 1 => .scheduler 0 false
  | _ => .engine

theorem fair_roundRobin : FairSchedule roundRobin := by
  refine ⟨fun n => ⟨3 * n, by omega, ?_⟩, fun n => ⟨3 * n + 1, by omega, ?_⟩, fun n => ⟨3 * n + 2, by omega, ?_⟩⟩
  · have h : (3 * n) % 3 = 0 := by omega
    simp [roundRobin, h, isExecutorMove]
  · have h : (3 * n + 1) % 3 = 1 := by omega
    simp [roundRobin, h, leavesGapMove]
  · have h : (3 * n + 2) % 3 = 2 := by omega
    simp [roundRobin, h, isEngineMove]

theorem witness_EveryCommandCompletes :
    ∃ (s : State) (sched : Nat → Move), s.Inv ∧ s.exPhase = .respond ∧ FairSchedule sched :=
  ⟨pending1, roundRobin, inv_pending1, rfl, fair_roundRobin⟩

theorem witness_FairRunAnswersEveryCommand :
    ∃ (s : State) (cs : List PortCommand) (sched : Nat → Move), s.Inv ∧ s.exPhase = .idle ∧ (∀ c ∈ cs, c.whole) ∧
      s.port = cs.flatMap PortCommand.words ∧ cs ≠ [] ∧ (∀ n, isHostSendMove (sched n) = false) ∧
      FairSchedule sched := by
  refine ⟨{ idle1 with port := [0x7] }, [{ hdr := 0x7, data := [] }], roundRobin,
    State.Checked.inv (by decide +kernel) ⟨rfl, rfl⟩, rfl, ?_, rfl, by decide, ?_, fair_roundRobin⟩
  · simp only [PortCommand.whole]
    decide
  · intro n
    unfold roundRobin
    split <;> rfl

theorem witness_ReadsOfTheStore :
    inflight1.sbAt { shade := 0, row := 2 } = some 0xFFFFFF04 ∧ inflight1.inflightAt { shade := 0, row := 2 } = none ∧
      inflight1.sbAt { shade := 0, row := 3 } = some 0xFFFFFF08 ∧
      inflight1.inflightAt { shade := 0, row := 3 } = some { old := 0xFFFFFF08, new := 0x7F7F7F08 } := by
  decide +kernel

theorem witness_SlotWriteEvents :
    pending1.Inv ∧ pending1.exPhase = .respond ∧ { shade := 0, row := 7 } ∈ pending1.exPend ∧
      pending1.cfg.shadeLock = false ∧ locked1.Inv ∧ { shade := 0, row := 0 } ∈ locked1.exPend ∧
      locked1.lockHeld 0 = true ∧ inflight1.Inv ∧
      inflight1.inflightAt { shade := 0, row := 3 } = some { old := 0xFFFFFF08, new := 0x7F7F7F08 } :=
  ⟨inv_pending1, rfl, by decide, rfl, inv_locked1, by decide, rfl, inv_inflight1, rfl⟩

/-- A FREE lock with a slot to write, and a HELD one with none to write and none in flight. -/
theorem witness_SlotWriteEvents_lock :
    ∃ s s' : State, s.Inv ∧ s.exPhase = .respond ∧ s.cfg.shadeLock = true ∧ s.lockHeld 0 = false ∧
      (∃ sl ∈ s.exPend, sl.shade = 0) ∧ s'.Inv ∧ s'.exPhase = .respond ∧ s'.cfg.shadeLock = true ∧
      s'.lockHeld 0 = true ∧ s'.exPend = [] ∧ s'.inflight.all (fun o => o.isNone) = true :=
  ⟨{ locked1 with lock := [.free] }, { locked1 with exPend := [] },
    State.Checked.inv (by decide +kernel) ⟨rfl, rfl⟩, rfl, rfl, by decide, by decide,
    State.Checked.inv (by decide +kernel) ⟨rfl, rfl⟩, rfl, rfl, by decide, rfl, by decide⟩

theorem witness_LockExcludesTearing :
    locked1.Inv ∧ locked1.cfg.shadeLock = true ∧ locked1.schPhase = .fetch ∧ locked1.lockHeld 0 = true ∧
      SlotEvent.beginSlot { shade := 0, row := 4 } ∈ locked1.slotEvents ∧
      SlotEvent.acquire 0 ∈ ({ locked1 with lock := [.free] } : State).slotEvents ∧
      SlotEvent.release 0 ∈ ({ locked1 with exPend := [] } : State).slotEvents ∧
      idleLocked.lockHeld 0 = false :=
  ⟨inv_locked1, rfl, rfl, rfl, by decide +kernel, by decide +kernel, by decide +kernel, rfl⟩

theorem witness_FetchLatchesSlot :
    idle1.Inv ∧ idle1.schPhase = .fetch ∧ idle1.cfg.shadeLock = false ∧ idleLocked.Inv ∧
      idleLocked.lockHeld 0 = false ∧ locked1.Inv ∧ locked1.schPhase = .fetch ∧ locked1.lockHeld 0 = true :=
  ⟨inv_idle1, rfl, rfl, inv_idle_locked, rfl, inv_locked1, rfl, rfl⟩

/-- Each clause of the advance at a boundary: a full queue, a pass, a row, a shade, the end of the cycle. -/
theorem witness_EmitPushesAndAdvances :
    emitting1.schPhase = .emit ∧ emitting1.schP.toNat = (2 : Fin 3).val ∧ emitting1.q.length < emitting1.cfg.queueDepth ∧
      emitting1.schR.toNat < 7 ∧ emitting1.cfg.queueDepth ≤ ([1, 1, 1, 1] : List Word).length ∧
      ({ emitting1 with schP := 1 } : State).schP.toNat = (1 : Fin 3).val ∧
      ({ emitting1 with schR := 7 } : State).schR.toNat = 7 ∧ emitting1.cfg.shadeCount ≤ emitting1.schS.toNat + 1 ∧
      ({ emitting1 with cfg := Config.refcfg } : State).schS.toNat + 1 < 4 := by decide

theorem witness_GapStaysOrLeaves : ({ idle1 with schPhase := .gap } : State).schPhase = .gap := rfl

/-- The executor runs a GETROT while the scheduler pushes. -/
theorem witness_CycleIsStreamed :
    ∃ s ms t, s.Inv ∧ s.schPhase = .fetch ∧ s.schS = 0 ∧ s.schR = 0 ∧ quietRun ms s = true ∧
      runMoves ms s = .next t ∧ t.q = [0xFFFFFF01] ∧ t.exPhase = .apply :=
  ⟨{ idle1 with port := [0x7] },
    [.executor 0, .scheduler 0 false, .executor 0, .scheduler 0 false], _,
    State.Checked.inv (by decide +kernel) ⟨rfl, rfl⟩, rfl, rfl, rfl, by decide +kernel, rfl, by decide +kernel, rfl⟩

theorem witness_OutIsThePushSequence :
    ∃ ms t, idle1.Inv ∧ runMoves ms idle1 = .next t ∧ t.out = [0, 0xFFFFFF01] :=
  ⟨[.engine, .scheduler 0 false, .scheduler 0 false, .engine], _, inv_idle1, rfl, by decide +kernel⟩

theorem witness_EngineTakesHeadOrIdle :
    ({ idle1 with q := [0xFFFFFF01] } : State).q = 0xFFFFFF01 :: [] ∧ idle1.q = [] := ⟨rfl, rfl⟩

theorem witness_PropagationDelay :
    ∃ ms t, idle1.Inv ∧ idle1.Consistent ∧ quietRun ms idle1 = true ∧ runMoves ms idle1 = .next t ∧ ms ≠ [] :=
  ⟨[.scheduler 0 false], _, inv_idle1, (State.consistent_iff _).2 (by decide +kernel), by decide +kernel, rfl,
    by decide⟩

theorem witness_AgentsWriteOnlyTheirOwn :
    ∃ t, executorStep 0 pending1 = .next t ∧ ∃ u, schedulerStep 0 false idle1 = .next u := ⟨_, rfl, _, rfl⟩

theorem witness_AssemblerAcceptsAndEncodes :
    assembleLine (.setrot 65535) = some [0xFFFF0005] ∧ assembleLine (.setrot 65536) = none ∧
      assembleLine (.getpixel 15 15) = some [0x00000FF4] ∧
      assembleLine (.setpixels (List.replicate 63 0)) = none := by decide +kernel

theorem witness_BeatsGivePixels : headerXY 0x3 15 15 = 0x00000FF3 ∧ headerXY 0x3 0 0 = 0x00000003 := by decide

theorem witness_ThresholdsOfEveryN : (1 ≤ 1 ∧ 1 ≤ 255) ∧ (computeThresholds 255)[254]? = some 254 := by decide +kernel

end Sys2Proof.Tests
end

/-! Settles the statement of R24. Only the begin and end events of a slot write (R59) touch the shade store and its
in-flight records; both keep the row-select bytes, and so does every run from reset. -/

namespace Sys2Proof.Machine

/-! ## The shade store after reset -/

/-- Entry `8*i + r` of rows laid out eight to a shade is row r of shade i (R23). -/
theorem getElem?_flatMap_rows {α β : Type} (f : α → Fin 8 → β) (l : List α) (i : Nat) (r : Fin 8) :
    (l.flatMap fun a => (List.finRange 8).map (f a))[8 * i + r.val]? = l[i]?.map fun a => f a r := by
  induction l generalizing i with
  | nil => rfl
  | cons a l ih =>
    rw [List.flatMap_cons]
    cases i with
    | zero => rw [List.getElem?_append_left (by simp)]; simp
    | succ i =>
      have hi : 8 * (i + 1) + r.val - 8 = 8 * i + r.val := by omega
      rw [List.getElem?_append_right (by simp; omega), List.length_map, List.length_finRange, hi]
      simpa using ih i

/-- R231 step 4: after reset every slot holds its encoded word. -/
theorem State.sbAt_resetWith (c : Config) (sl : Slot) :
    (State.resetWith c).sbAt sl = (State.resetWith c).encoded sl :=
  getElem?_flatMap_rows (fun t r => encodeRow c.resetImage (buildRotationMaps.get 0) t r) _ sl.shade sl.row

/-- R231: after reset no write is in flight. -/
theorem State.inflightAt_resetWith (c : Config) (sl : Slot) : (State.resetWith c).inflightAt sl = none := by
  simp only [State.inflightAt, State.resetWith, List.getElem?_replicate]
  split <;> rfl

theorem State.sized_resetWith (c : Config) : (State.resetWith c).Sized := by
  refine ⟨?_, List.length_replicate, ?_⟩
  · simp [State.resetWith, resetStore, computeThresholds, Function.comp_def, Nat.mul_comm]
  · cases h : c.shadeLock <;> simp [State.resetWith, h]

/-- R24 at reset. -/
theorem State.storeOneHot_resetWith (c : Config) : (State.resetWith c).StoreOneHot := fun sl =>
  ⟨fun _ hw => State.rowSelected_encoded (State.sbAt_resetWith c sl ▸ hw),
    fun rec hrec => by rw [State.inflightAt_resetWith] at hrec; cases hrec⟩

/-! ## The moves that touch no slot -/

/-- `t` has the configuration, the slots and the in-flight records of `s`, and as many locks. -/
structure State.SameSlots (s t : State) : Prop where
  cfg        : t.cfg = s.cfg
  sb         : t.sb = s.sb
  inflight   : t.inflight = s.inflight
  lockLength : t.lock.length = s.lock.length

variable {s t : State}

@[refl] theorem State.SameSlots.refl (s : State) : s.SameSlots s := ⟨rfl, rfl, rfl, rfl⟩

theorem State.idleStep_sameSlots (s : State) : s.SameSlots s.idleStep := by
  rcases s.idleStep_cases with ⟨-, h⟩ | ⟨w, ws, -, h⟩
  · rw [h]
  · rw [h]
    exact ⟨rfl, rfl, rfl, rfl⟩

theorem State.collectStep_sameSlots (s : State) : s.SameSlots s.collectStep := by
  rcases s.collectStep_cases with ⟨-, -, h⟩ | ⟨w, ws, -, -, h⟩ | ⟨-, h⟩ <;> rw [h] <;> exact ⟨rfl, rfl, rfl, rfl⟩

/-- APPLY only names the slots a command has still to write (R170); it writes none. -/
theorem State.applyStep_sameSlots (h : s.applyStep = .next t) : s.SameSlots t := by
  rcases s.applyStep_cases with ⟨c, -, h'⟩ | ⟨i, pb, rotK, res, -, -, h'⟩ <;> cases h'.symm.trans h <;>
    exact ⟨rfl, rfl, rfl, rfl⟩

theorem State.sendResponse_sameSlots (s : State) : s.SameSlots s.sendResponse := by
  rcases s.sendResponse_cases with ⟨-, h⟩ | ⟨w, -, h⟩ | ⟨w, w', ws, -, h⟩ <;> rw [h] <;> exact ⟨rfl, rfl, rfl, rfl⟩

theorem State.hostConsume_sameSlots (s : State) : s.SameSlots s.hostConsume := by
  rcases s.hostConsume_cases with ⟨-, h⟩ | h
  · rw [h]
    exact ⟨rfl, rfl, rfl, rfl⟩
  · rw [h]

theorem State.advance_sameSlots (s : State) : s.SameSlots s.advance := by
  unfold State.advance
  split_ifs <;> exact ⟨rfl, rfl, rfl, rfl⟩

theorem engineStep_sameSlots (s : State) : s.SameSlots (engineStep s) := by
  rcases engineStep_cases s with ⟨w, ws, -, h⟩ | ⟨-, h⟩ <;> rw [h] <;> exact ⟨rfl, rfl, rfl, rfl⟩

/-- The scheduler reads the shade store and never writes it (R56). -/
theorem schedulerStep_sameSlots {mask : Word} {stay : Bool} (h : schedulerStep mask stay s = .next t) :
    s.SameSlots t := by
  unfold schedulerStep at h
  split at h
  · rcases State.fetchStep_cases h with ⟨-, rfl⟩ | ⟨w, -, -, rfl⟩ <;> exact ⟨rfl, rfl, rfl, rfl⟩
  · rcases State.emitStep_cases h with ⟨-, rfl⟩ | ⟨m, -, -, rfl⟩
    · rfl
    · obtain ⟨cfg, sb, inflight, lockLength⟩ := (s.enqueue (s.schW ||| m)).advance_sameSlots
      exact ⟨cfg, sb, inflight, lockLength⟩
  · rcases State.gapStep_cases h with rfl | rfl <;> exact ⟨rfl, rfl, rfl, rfl⟩

/-! ## What a move can do to the slots -/

/-- R59, R60: the two lock events write no slot. -/
theorem State.runEvent_slots_cases {e : SlotEvent} (h : s.runEvent e = some t) :
    s.SameSlots t ∨ ∃ sl, s.beginWrite sl = some t ∨ s.endWrite sl = some t := by
  cases e with
  | acquire shade => cases h; exact .inl ⟨rfl, rfl, rfl, List.length_set⟩
  | beginSlot sl => exact .inr ⟨sl, .inl h⟩
  | endSlot sl => exact .inr ⟨sl, .inr h⟩
  | release shade => cases h; exact .inl ⟨rfl, rfl, rfl, List.length_set⟩

theorem executorStep_slots_cases {pick : Nat} (h : executorStep pick s = .next t) :
    s.SameSlots t ∨ ∃ sl, s.beginWrite sl = some t ∨ s.endWrite sl = some t := by
  rcases executorStep_cases h with ⟨-, rfl⟩ | ⟨-, rfl⟩ | ⟨-, h⟩ | ⟨-, h⟩
  · exact .inl (State.idleStep_sameSlots _)
  · exact .inl (State.collectStep_sameSlots _)
  · exact .inl (State.applyStep_sameSlots h)
  · rcases State.respondStep_cases h with ⟨e, -, he⟩ | ⟨-, -, rfl⟩ | ⟨-, -, rfl⟩
    · exact State.runEvent_slots_cases he
    · exact .inl (State.sendResponse_sameSlots _)
    · exact .inl (.refl _)

/-- R56, R59: a move leaves every slot and record alone, or is the begin or the end of one slot write. -/
theorem moveStep_slots_cases {m : Move} (h : moveStep m s = .next t) :
    s.SameSlots t ∨ ∃ sl, s.beginWrite sl = some t ∨ s.endWrite sl = some t := by
  cases m with
  | host w => cases h; exact .inl ⟨rfl, rfl, rfl, rfl⟩
  | consume => cases h; exact .inl s.hostConsume_sameSlots
  | executor pick => exact executorStep_slots_cases h
  | scheduler mask stay => exact .inl (schedulerStep_sameSlots h)
  | engine => cases h; exact .inl (engineStep_sameSlots s)

/-! ## What the moves keep -/

theorem State.SameSlots.sized (h : s.SameSlots t) (hs : s.Sized) : t.Sized := by
  unfold State.Sized
  rw [h.cfg, h.sb, h.inflight, h.lockLength]
  exact hs

theorem State.SameSlots.storeOneHot (h : s.SameSlots t) (ho : s.StoreOneHot) : t.StoreOneHot := by
  unfold State.StoreOneHot State.sbAt State.inflightAt
  rw [h.sb, h.inflight]
  exact ho

theorem State.cfg_of_beginWrite {sl : Slot} (h : s.beginWrite sl = some t) : t.cfg = s.cfg := by
  obtain ⟨old, new, -, -, rfl⟩ := State.beginWrite_eq_some.1 h
  rfl

theorem State.cfg_of_endWrite {sl : Slot} (h : s.endWrite sl = some t) : t.cfg = s.cfg := by
  obtain ⟨rec, -, rfl⟩ := State.endWrite_eq_some.1 h
  rfl

theorem State.Sized.beginWrite {sl : Slot} (hs : s.Sized) (h : s.beginWrite sl = some t) : t.Sized := by
  obtain ⟨hsb, hinf, hlock⟩ := hs
  obtain ⟨old, new, -, -, rfl⟩ := State.beginWrite_eq_some.1 h
  exact ⟨hsb, List.length_set.trans hinf, hlock⟩

theorem State.Sized.endWrite {sl : Slot} (hs : s.Sized) (h : s.endWrite sl = some t) : t.Sized := by
  obtain ⟨hsb, hinf, hlock⟩ := hs
  obtain ⟨rec, -, rfl⟩ := State.endWrite_eq_some.1 h
  exact ⟨List.length_set.trans hsb, List.length_set.trans hinf, hlock⟩

/-- Only a slot that exists has a value. -/
theorem State.shade_lt_of_sbAt (hs : s.Sized) {sl : Slot} {w : Word} (h : s.sbAt sl = some w) :
    sl.shade < s.cfg.shadeCount := by
  by_contra hlt
  rw [State.sbAt_eq_none hs hlt] at h
  cases h

/-- R24 at a begin event: the old word is the slot's, the new word an encoded one of the same row. -/
theorem State.StoreOneHot.beginWrite {sl : Slot} (ho : s.StoreOneHot) (hs : s.Sized)
    (h : s.beginWrite sl = some t) : t.StoreOneHot := by
  obtain ⟨old, new, hold, hnew, rfl⟩ := State.beginWrite_eq_some.1 h
  refine fun x => ⟨(ho x).1, fun rec hrec => ?_⟩
  rw [State.inflightAt, State.inflightAt_set hs (State.shade_lt_of_sbAt hs hold)] at hrec
  split at hrec
  · next hx =>
    subst hx
    cases hrec
    exact ⟨(ho sl).1 old hold, State.rowSelected_encoded hnew⟩
  · exact (ho x).2 rec hrec

/-- R24 at an end event: the slot takes the new word of its record, and the record is gone. -/
theorem State.StoreOneHot.endWrite {sl : Slot} (ho : s.StoreOneHot) (hs : s.Sized)
    (h : s.endWrite sl = some t) : t.StoreOneHot := by
  obtain ⟨rec, hrec, rfl⟩ := State.endWrite_eq_some.1 h
  have hlt := State.shade_lt_of_inflight hs hrec
  refine fun x => ⟨fun w hw => ?_, fun r hr => ?_⟩
  · rw [State.sbAt, State.sbAt_set hs hlt] at hw
    split at hw
    · next hx =>
      subst hx
      cases hw
      exact ((ho sl).2 rec hrec).2
    · exact (ho x).1 w hw
  · rw [State.inflightAt, State.inflightAt_set hs hlt] at hr
    split at hr
    · cases hr
    · exact (ho x).2 r hr

/-! ## Every run -/

theorem cfg_of_moveStep {m : Move} (h : moveStep m s = .next t) : t.cfg = s.cfg := by
  rcases moveStep_slots_cases h with hsame | ⟨sl, hbegin | hend⟩
  · exact hsame.cfg
  · exact State.cfg_of_beginWrite hbegin
  · exact State.cfg_of_endWrite hend

theorem State.Sized.moveStep {m : Move} (hs : s.Sized) (h : moveStep m s = .next t) : t.Sized := by
  rcases moveStep_slots_cases h with hsame | ⟨sl, hbegin | hend⟩
  · exact hsame.sized hs
  · exact hs.beginWrite hbegin
  · exact hs.endWrite hend

theorem State.StoreOneHot.moveStep {m : Move} (ho : s.StoreOneHot) (hs : s.Sized) (h : moveStep m s = .next t) :
    t.StoreOneHot := by
  rcases moveStep_slots_cases h with hsame | ⟨sl, hbegin | hend⟩
  · exact hsame.storeOneHot ho
  · exact ho.beginWrite hs hbegin
  · exact ho.endWrite hs hend

/-- R24: every run from reset keeps the configuration, the sizes of the arrays and the row-select bytes. -/
theorem storeOneHot_of_run_resetWith {c : Config} {ms : List Move} (h : runMoves ms (State.resetWith c) = .next s) :
    s.cfg = c ∧ s.Sized ∧ s.StoreOneHot := by
  refine runMoves_induction (P := fun u => u.cfg = c ∧ u.Sized ∧ u.StoreOneHot) ?_
    ⟨rfl, State.sized_resetWith c, State.storeOneHot_resetWith c⟩ h
  rintro m u v ⟨hc, hs, ho⟩ hm
  exact ⟨(cfg_of_moveStep hm).trans hc, hs.moveStep hm, ho.moveStep hs hm⟩

/-- R57, R58: a read of a slot that has a value gives one. -/
theorem State.exists_readSb {sl : Slot} {v : Word} (h : s.sbAt sl = some v) (mask : Word) :
    ∃ w, s.readSb sl mask = some w := by
  cases hrec : s.inflightAt sl with
  | none => exact ⟨v, (State.readSb_committed hrec mask).trans h⟩
  | some rec => exact ⟨_, State.readSb_torn hrec h mask⟩

/-- Settles O24: the row-select bytes hold after reset, and each begin and end event keeps them. -/
theorem rowSelectAtEveryInstant : Obligations.RowSelectAtEveryInstant := by
  intro c ms s _ hrun sl mask hsl
  obtain ⟨hc, hs, ho⟩ := storeOneHot_of_run_resetWith hrun
  obtain ⟨v, hv⟩ := State.sbAt_of_lt hs (sl := sl) (by rw [hc]; exact hsl)
  obtain ⟨w, hw⟩ := State.exists_readSb hv mask
  exact ⟨v, w, hv, hw, (ho sl).1 v hv, State.rowSelected_readSb ho hw⟩

end Sys2Proof.Machine

/-! Settles the statements of R79, R80 and R87: the length of a command, the pixels of its beats, and FILL. -/

namespace Sys2Proof

/-! ## The length of a command -/

/-- R85: a header whose beats have not all arrived is no command yet. -/
theorem decodeStream_incomplete {hdr : Word} {rest : List Word} (h : rest.length < beats (opField hdr)) :
    decodeStream (hdr :: rest) = .incomplete := by
  simp [decodeStream, h]

/-- R79, R85: once its beats have arrived, a header is told from them alone, and the words after them are left. -/
theorem decodeStream_complete {hdr : Word} {rest : List Word} (h : beats (opField hdr) ≤ rest.length) :
    (∃ i, decodeStream (hdr :: rest) = .command i (rest.drop (beats (opField hdr)))) ∨
      ∃ e, decodeStream (hdr :: rest) = .illegal e (rest.drop (beats (opField hdr))) := by
  have hcons := decodeStream_cons hdr (rest.take (beats (opField hdr))) (rest.drop (beats (opField hdr)))
    (List.length_take_of_le h)
  rw [List.take_append_drop] at hcons
  cases hdec : decodeCommand hdr (beatVector (rest.take (beats (opField hdr)))) with
  | ok i => exact .inl ⟨i, by rw [hcons, hdec]⟩
  | error e => exact .inr ⟨e, by rw [hcons, hdec]⟩

/-! ## Headers with coordinates -/

/-- R77: X is the second hexadecimal digit of a header. -/
theorem xField_toNat (hdr : Word) : (xField hdr).toNat = hdr.toNat / 16 % 16 := by
  simp [xField, Nat.shiftRight_eq_div_pow]

/-- R77: Y is the third hexadecimal digit of a header. -/
theorem yField_toNat (hdr : Word) : (yField hdr).toNat = hdr.toNat / 256 % 16 := by
  simp [yField, Nat.shiftRight_eq_div_pow]

/-- R77, R86: OP, X and Y are the hexadecimal digits of a header with coordinates. -/
theorem headerXY_toNat {op : Word} {x y : Nat} (hop : op.toNat < 16) (hx : x < 16) (hy : y < 16) :
    (headerXY op x y).toNat = 256 * y + 16 * x + op.toNat := by
  have hY : (BitVec.ofNat 32 y <<< 8).toNat = y <<< 8 := by
    rw [BitVec.toNat_shiftLeft, BitVec.toNat_ofNat, Nat.shiftLeft_eq, Nat.shiftLeft_eq]
    omega
  have hX : (BitVec.ofNat 32 x <<< 4).toNat = x <<< 4 := by
    rw [BitVec.toNat_shiftLeft, BitVec.toNat_ofNat, Nat.shiftLeft_eq, Nat.shiftLeft_eq]
    omega
  have hlow : x <<< 4 + op.toNat < 2 ^ 8 := by
    rw [Nat.shiftLeft_eq]
    omega
  calc (headerXY op x y).toNat
    _ = y <<< 8 ||| (x <<< 4 ||| op.toNat) := by
      rw [headerXY, BitVec.toNat_or, BitVec.toNat_or, hY, hX, Nat.or_assoc]
    _ = y <<< 8 + (x <<< 4 + op.toNat) := by
      rw [← Nat.shiftLeft_add_eq_or_of_lt (b := op.toNat) (i := 4) hop, Nat.shiftLeft_add_eq_or_of_lt hlow]
    _ = 256 * y + 16 * x + op.toNat := by
      rw [Nat.shiftLeft_eq, Nat.shiftLeft_eq]
      omega

section
variable {op : Word} {x y : Nat} (hop : op.toNat < 16) (hx : x < 16) (hy : y < 16)
include hop hx hy

theorem opField_headerXY : opField (headerXY op x y) = op.setWidth 4 := by
  apply BitVec.eq_of_toNat_eq
  rw [opField_toNat, headerXY_toNat hop hx hy, BitVec.toNat_setWidth]
  omega

theorem xField_headerXY : (xField (headerXY op x y)).toNat = x := by
  rw [xField_toNat, headerXY_toNat hop hx hy]
  omega

theorem yField_headerXY : (yField (headerXY op x y)).toNat = y := by
  rw [yField_toNat, headerXY_toNat hop hx hy]
  omega

/-- R77: RSV and ANG of a header with coordinates are zero. -/
theorem headerXY_high : (headerXY op x y).extractLsb' 12 20 = 0 := by
  apply BitVec.eq_of_toNat_eq
  rw [BitVec.extractLsb'_toNat, headerXY_toNat hop hx hy, Nat.shiftRight_eq_div_pow, Nat.div_eq_of_lt (by omega)]
  rfl

end

/-! ## The pixels of the beats -/

theorem decodeCommand_setpixels (data : Vector Word 64) :
    decodeCommand 0x00000001 data = .ok (.setpixels (imageOfBeats data)) := by
  rw [decodeCommand_legal (row := ⟨1, 0xFFFFFFFF, 0x00000001, 64⟩) data (by decide) (by decide)]
  rfl

/-- R80, R172: cell j of the image is the pixel of beat j. -/
theorem imageOfBeats_get (data : Vector Word 64) (j : Fin 64) :
    (imageOfBeats data).get j = beatPixel (data.get j) := by
  simp [imageOfBeats, Vector.get_eq_getElem]

/-- R83, R174: a SETPIXEL header passes its mask whatever its coordinates, the out of range ones included. -/
theorem decodeCommand_setpixel (data : Vector Word 64) {x y : Nat} (hx : x < 16) (hy : y < 16) :
    decodeCommand (headerXY 0x3 x y) data = .ok (.setpixel x y (beatPixel (data.get 0))) := by
  have hop : (0x3 : Word).toNat < 16 := by decide
  have hfield : opField (headerXY 0x3 x y) = 3 := opField_headerXY hop hx hy
  have hrow : opRow (opField (headerXY 0x3 x y)) = some ⟨3, 0xFFFFF00F, 0x00000003, 1⟩ := by rw [hfield]; decide
  have hmask : headerXY 0x3 x y &&& 0xFFFFF00F = 0x00000003 :=
    (maskHXY_iff _ 3).2 ⟨hfield, headerXY_high hop hx hy⟩
  rw [decodeCommand_legal data hrow hmask, buildInstr, hfield, xField_headerXY hop hx hy, yField_headerXY hop hx hy]
  rfl

end Sys2Proof

namespace Sys2Proof.Machine

/-! ## The words of SETPIXELS and FILL -/

/-- R86: a colour in range fills its beat, so zero extension gives the operand itself. -/
theorem pixelBeat_ofNat {c : Nat} (h : c < 2 ^ 24) : pixelBeat (BitVec.ofNat 24 c) = BitVec.ofNat 32 c := by
  apply BitVec.eq_of_toNat_eq
  rw [pixelBeat, BitVec.toNat_setWidth, BitVec.toNat_ofNat, BitVec.toNat_ofNat, Nat.mod_eq_of_lt h]

/-- R86: 64 colours in range encode to the SETPIXELS header and the colours themselves. -/
theorem encode_imageOfColours {cs : List Nat} (hlen : cs.length = 64) (hcs : ∀ c ∈ cs, c < 2 ^ 24) :
    encode (.setpixels (imageOfColours cs)) = 0x00000001 :: cs.map (BitVec.ofNat 32) := by
  refine congrArg (List.cons 0x00000001) (List.ext_getElem (by simp [hlen]) fun j hj hj' => ?_)
  have hcj : j < cs.length := by simpa using hj'
  have hbeat := pixelBeat_ofNat (hcs cs[j] (List.getElem_mem hcj))
  simpa [imageOfColours, hcj] using hbeat

/-- R86: 64 copies of a colour are accepted exactly when the colour is. -/
theorem accepted_setpixels_replicate (c : Nat) :
    (AsmLine.setpixels (List.replicate 64 c)).accepted = colourOk c := by
  simp [AsmLine.accepted]

/-- R87: FILL and its 64 copies are one command, accepted alike. -/
theorem assembleLine_fill (c : Nat) :
    assembleLine (.fill c) = assembleLine (.setpixels (List.replicate 64 c)) := by
  rw [assembleLine, assembleLine, accepted_setpixels_replicate]
  rfl

/-- Settles O5: the decoder tells a command's length by `beats`, which R79's table gives by OP alone. -/
theorem commandLengthByOpAlone : Obligations.CommandLengthByOpAlone := by
  rintro hdr rest n hn
  obtain rfl : n = beats (opField hdr) := hn.trans (beats_opField hdr).symm
  exact ⟨decodeStream_incomplete, decodeStream_complete⟩

/-- Settles O6: the two headers pass their masks, and both commands take their pixels by `beatPixel`. -/
theorem beatsGivePixels : Obligations.BeatsGivePixels := fun data =>
  ⟨⟨imageOfBeats data, decodeCommand_setpixels data, imageOfBeats_get data⟩,
    fun _ _ hx hy => decodeCommand_setpixel data hx hy⟩

/-- Settles O8: FILL is SETPIXELS of a constant list, whose words are the general ones of SETPIXELS. -/
theorem fillIsSetpixels : Obligations.FillIsSetpixels := by
  refine fun c => ⟨assembleLine_fill c, fun hc => ?_⟩
  have hlt : c < 2 ^ 24 := by omega
  have hok : (AsmLine.fill c).accepted = true := decide_eq_true hlt
  have henc := encode_imageOfColours (cs := List.replicate 64 c) List.length_replicate
    fun d hd => List.eq_of_mem_replicate hd ▸ hlt
  rw [List.map_replicate] at henc
  rw [assembleLine, if_pos hok]
  exact congrArg some henc

end Sys2Proof.Machine

/-! Settles the statements of R100, R101 and R104 to R109: the contents of the two ROMs. A threshold is known by its
index; a page of the rotation ROM is the quarter turn of R105, taken as often as the page's number says. -/

namespace Sys2Proof.Machine

/-! ## The threshold ROM -/

theorem length_computeThresholds (n : Nat) : (computeThresholds n).length = n := by
  simp [computeThresholds]

/-- R101: no threshold reaches 255, so each is kept whole by its 8 bits. -/
theorem threshold_lt {n s : Nat} (h : s < n) : s * (255 / n) < 255 := by
  have hn : n * (255 / n) ≤ 255 := Nat.mul_div_le 255 n
  rcases Nat.eq_zero_or_pos (255 / n) with h0 | hpos
  · rw [h0, Nat.mul_zero]
    decide
  · exact lt_of_lt_of_le (Nat.mul_lt_mul_of_pos_right h hpos) hn

theorem toNat_threshold {n s : Nat} (h : s < n) : (BitVec.ofNat 8 (s * (255 / n))).toNat = s * (255 / n) :=
  Nat.mod_eq_of_lt ((threshold_lt h).trans (by decide))

/-- R100: the threshold ROM, entry by entry. -/
theorem getElem?_computeThresholds_eq_some {n s : Nat} {t : Chan} :
    (computeThresholds n)[s]? = some t ↔ s < n ∧ t.toNat = s * (255 / n) := by
  rcases Nat.lt_or_ge s n with h | h
  · have hget : (computeThresholds n)[s]? = some (BitVec.ofNat 8 (s * (255 / n))) := by
      simp [computeThresholds, thresholdStep, channelRange, h]
    rw [hget, Option.some_inj, ← BitVec.toNat_inj, toNat_threshold h]
    simp [h, eq_comm]
  · simp [computeThresholds, h]

theorem mem_computeThresholds {n : Nat} {t : Chan} :
    t ∈ computeThresholds n ↔ ∃ s, s < n ∧ t.toNat = s * (255 / n) := by
  simp only [List.mem_iff_getElem?, getElem?_computeThresholds_eq_some]

/-- Settles O9: the entry is the word of its value, which 8 bits hold unreduced. -/
theorem thresholdValues : Obligations.ThresholdValues := fun n _ _ =>
  ⟨length_computeThresholds n, fun _ hs =>
    ⟨_, getElem?_computeThresholds_eq_some.2 ⟨hs, toNat_threshold hs⟩, toNat_threshold hs⟩⟩

/-- Settles O10: each clause reads the entries by their indices. -/
theorem thresholdsStrictlyIncrease : Obligations.ThresholdsStrictlyIncrease := by
  intro n h1 h255
  refine ⟨getElem?_computeThresholds_eq_some.2 ⟨h1, by simp⟩, Nat.div_pos h255 h1, ?_, ?_⟩
  · intro s a b ha hb
    rw [(getElem?_computeThresholds_eq_some.1 ha).2, (getElem?_computeThresholds_eq_some.1 hb).2, Nat.succ_mul]
  · intro t ht
    obtain ⟨s, hs, hval⟩ := mem_computeThresholds.1 ht
    exact hval ▸ threshold_lt hs

/-! ## Cells and the quarter turn -/

@[simp] theorem cell_val (r c : Fin 8) : (cell r c).val = 8 * r.val + c.val := rfl

@[simp] theorem flip8_val (n : Fin 8) : (flip8 n).val = 7 - n.val := rfl

@[simp] theorem flip8_flip8 (n : Fin 8) : flip8 (flip8 n) = n := by
  ext
  simp only [flip8_val]
  omega

@[simp] theorem cellRow_cell (r c : Fin 8) : cellRow (cell r c) = r := by
  ext
  simp only [cellRow, cell_val]
  omega

@[simp] theorem cellCol_cell (r c : Fin 8) : cellCol (cell r c) = c := by
  ext
  simp only [cellCol, cell_val]
  omega

@[simp] theorem cell_cellRow_cellCol (d : Fin 64) : cell (cellRow d) (cellCol d) = d :=
  Fin.ext (Nat.div_add_mod d.val 8)

theorem cell_inj {r c r' c' : Fin 8} : cell r c = cell r' c' ↔ (r, c) = (r', c') := by
  refine ⟨fun h => ?_, fun h => by cases h; rfl⟩
  have hr : r = r' := by simpa using congrArg cellRow h
  have hc : c = c' := by simpa using congrArg cellCol h
  rw [hr, hc]

/-- R105: the display cell of the previous page whose entry the next page holds at display cell `d`. -/
def quarterTurn (d : Fin 64) : Fin 64 := cell (flip8 (cellCol d)) (cellRow d)

@[simp] theorem quarterTurn_cell (r c : Fin 8) : quarterTurn (cell r c) = cell (flip8 c) r := by
  simp [quarterTurn]

theorem nextPage_get (page : RotPage) (d : Fin 64) : (nextPage page).get d = page.get (quarterTurn d) := by
  simp [nextPage, quarterTurn, Vector.get_eq_getElem]

/-- R105 taken n times is n quarter turns. -/
theorem nextPage_iterate_get (n : Nat) (page : RotPage) (d : Fin 64) :
    (nextPage^[n] page).get d = page.get (quarterTurn^[n] d) := by
  induction n generalizing d with
  | zero => rfl
  | succ n ih => rw [Function.iterate_succ_apply', nextPage_get, ih, Function.iterate_succ_apply]

/-- R109: rotation is cyclic of order 4. -/
theorem quarterTurn_iterate_four (d : Fin 64) : quarterTurn^[4] d = d := by
  have hcell : ∀ r c : Fin 8, quarterTurn^[4] (cell r c) = cell r c := by simp
  simpa only [cell_cellRow_cellCol] using hcell (cellRow d) (cellCol d)

theorem quarterTurn_bijective : Function.Bijective quarterTurn :=
  Function.bijective_iff_has_inverse.2 ⟨quarterTurn^[3], quarterTurn_iterate_four, quarterTurn_iterate_four⟩

/-! ## The rotation ROM -/

theorem sourceCell_rotPage0 (d : Fin 64) : sourceCell (rotPage0.get d) = d :=
  Fin.ext (by simp [sourceCell, rotPage0, Vector.get_eq_getElem])

/-- R103: page k is derived from the identity k times. -/
theorem buildRotationMaps_get (k : Fin 4) : buildRotationMaps.get k = nextPage^[k.val] rotPage0 := by
  fin_cases k <;> rfl

/-- R104, R105: page k shows at display cell `d` the source cell that k quarter turns reach from it. -/
theorem sourceCell_rotationMap (k : Fin 4) (d : Fin 64) :
    sourceCell ((buildRotationMaps.get k).get d) = quarterTurn^[k.val] d := by
  rw [buildRotationMaps_get, nextPage_iterate_get, sourceCell_rotPage0]

theorem romEntry_eq (k : Fin 4) (r c : Fin 8) : romEntry k r c = (quarterTurn^[k.val] (cell r c)).val :=
  congrArg Fin.val (sourceCell_rotationMap k (cell r c))

/-- R107: k quarter turns lead from the display cell of a source cell to that source cell. -/
theorem quarterTurn_iterate_displayCell (k : Fin 4) (y x : Fin 8) :
    quarterTurn^[k.val] (cell (displayCell k y x).1 (displayCell k y x).2) = cell y x := by
  fin_cases k <;> simp [displayCell]

/-- Settles O13: every page is a power of the quarter turn, a bijection whose fourth power is the identity. -/
theorem rotationPagesProperties : Obligations.RotationPagesProperties := by
  refine ⟨fun k => ?_, fun page => ?_, sourceCell_rotationMap 0, fun d => ?_⟩
  · simp only [sourceCell_rotationMap]
    exact quarterTurn_bijective.iterate k.val
  · exact Vector.ext fun d hd => (nextPage_iterate_get 4 page ⟨d, hd⟩).trans
      (congrArg page.get (quarterTurn_iterate_four ⟨d, hd⟩))
  · simp only [sourceCell_rotationMap]
    exact quarterTurn_iterate_four d

/-- Settles O11: one more page is one more quarter turn, and the closed forms follow turn by turn. -/
theorem rotationRomContents : Obligations.RotationRomContents := by
  refine ⟨fun r c => romEntry_eq 0 r c, fun k k' row col hk => ?_, fun r c => ⟨romEntry_eq 0 r c, ?_, ?_, ?_⟩⟩
  · rw [romEntry_eq, romEntry_eq, hk, Function.iterate_succ_apply, quarterTurn_cell]
    rfl
  · simp [romEntry_eq]
  · have hturns : romEntry 2 r c = 8 * (7 - r.val) + (7 - c.val) := by simp [romEntry_eq]
    rw [hturns]
    omega
  · simp [romEntry_eq]

/-- Settles O12: the display cell of the table reaches the source cell, and by injectivity no other one does. -/
theorem rotationInverseMaps : Obligations.RotationInverseMaps := by
  intro k y x r c
  rw [romEntry_eq, ← cell_val, Fin.val_inj, ← quarterTurn_iterate_displayCell k y x,
    (quarterTurn_bijective.injective.iterate k.val).eq_iff, cell_inj]

end Sys2Proof.Machine

/-! Settles the statements of R120 to R122: the threshold comparator and the bits of an encoded row. The scan of R121
shifts one comparator output a lane into each plane, so that the lane scanned last stands in bit 0. -/

namespace Sys2Proof.Machine

/-! ## The comparator -/

theorem active_iff {v t : Chan} : active v t = true ↔ v.toNat ≤ t.toNat := decide_eq_true_iff

theorem active_zero (t : Chan) : active 0 t = true := active_iff.2 (Nat.zero_le _)

theorem active_255_of_lt {t : Chan} (h : t.toNat < 255) : active 255 t = false :=
  decide_eq_false (Nat.not_le.2 h)

/-- R100: the last threshold of the ROM is its largest. -/
theorem toNat_le_last_of_mem_computeThresholds {n : Nat} {t : Chan} (h : t ∈ computeThresholds n) :
    t.toNat ≤ (n - 1) * (255 / n) := by
  obtain ⟨s, hs, hval⟩ := mem_computeThresholds.1 h
  exact hval ▸ Nat.mul_le_mul_right _ (Nat.le_sub_one_of_lt hs)

/-- Settles O15: the corners are the bounds of the threshold ROM, and a count is all of it or none. -/
theorem comparatorRule : Obligations.ComparatorRule := by
  refine ⟨fun _ _ => active_iff, fun n h1 h255 => ⟨fun t ht => ?_, ?_, fun v hv => ?_⟩⟩
  · obtain ⟨-, -, -, hlt⟩ := thresholdsStrictlyIncrease n h1 h255
    exact ⟨active_zero t, active_255_of_lt (hlt t ht)⟩
  · rw [List.countP_eq_length.2 fun t _ => active_zero t, length_computeThresholds]
  · refine List.countP_eq_zero.2 fun t ht hact => ?_
    exact absurd (active_iff.1 hact)
      (Nat.not_le.2 ((toNat_le_last_of_mem_computeThresholds ht).trans_lt hv))

/-! ## The scan of a row -/

theorem getLsbD_shiftIn_zero (plane : Chan) (bit : Bool) : (shiftIn plane bit).getLsbD 0 = bit := by
  cases bit <;> simp [shiftIn]

theorem getLsbD_shiftIn_succ (plane : Chan) (bit : Bool) {i : Nat} (hi : i + 1 < 8) :
    (shiftIn plane bit).getLsbD (i + 1) = plane.getLsbD i := by
  have hbit : (BitVec.ofNat 8 bit.toNat).getLsbD (i + 1) = false := by cases bit <;> simp
  rw [shiftIn, BitVec.getLsbD_or, hbit, Bool.or_false, BitVec.getLsbD_shiftLeft]
  simp [hi]

/-- R121: the plane that the outputs of a list of lanes are shifted into, first lane first. -/
def scanPlane (out : Fin 8 → Bool) (lanes : List (Fin 8)) : Chan :=
  lanes.foldl (fun plane c => shiftIn plane (out c)) 0

theorem scanPlane_concat (out : Fin 8 → Bool) (lanes : List (Fin 8)) (c : Fin 8) :
    scanPlane out (lanes ++ [c]) = shiftIn (scanPlane out lanes) (out c) :=
  List.foldl_concat ..

/-- Counted from the last lane scanned, lane i has its output in bit i. -/
theorem getLsbD_scanPlane (out : Fin 8 → Bool) (lanes : List (Fin 8)) {i : Nat} (hi : i < 8) :
    (scanPlane out lanes).getLsbD i = (lanes.reverse[i]?.map out).getD false := by
  induction lanes using List.reverseRecOn generalizing i with
  | nil => simp [scanPlane]
  | append_singleton lanes c ih =>
    rw [scanPlane_concat, List.reverse_concat]
    cases i with
    | zero => rw [getLsbD_shiftIn_zero]; rfl
    | succ i => rw [getLsbD_shiftIn_succ _ _ hi, ih (by omega), List.getElem?_cons_succ]

/-- R121: the scan order leaves lane b in bit b. -/
theorem getLsbD_scanPlane_scanOrder (out : Fin 8 → Bool) (b : Fin 8) :
    (scanPlane out scanOrder).getLsbD b.val = out b := by
  have hrev : scanOrder.reverse = List.finRange 8 := by decide
  rw [getLsbD_scanPlane out scanOrder b.isLt, hrev]
  simp

section
variable (img : Image) (page : RotPage) (t : Chan) (r : Fin 8)

/-- R121: the comparator output of one colour of the pixel that lane `c` of row `r` reads. -/
def laneOutput (colour : Pixel → Chan) (c : Fin 8) : Bool :=
  active (colour (shownPixel img page (cell r (flip8 c)))) t

/-- R121: the three planes of an encoded row, each the scan of its own colour. -/
theorem encodeRow_eq_packRow : encodeRow img page t r = packRow
    { red   := scanPlane (laneOutput img page t r redOf) scanOrder
      green := scanPlane (laneOutput img page t r greenOf) scanOrder
      blue  := scanPlane (laneOutput img page t r blueOf) scanOrder } r := rfl

end

/-! ## The bits of a row-word -/

/-- R70, R75: the row-select byte `1 << r` has no bit above bit 7. -/
theorem getLsbD_rowSelect_of_le (r : Fin 8) {i : Nat} (hi : 8 ≤ i) : (1#32 <<< r.val).getLsbD i = false := by
  have hr : i - r.val ≠ 0 := by omega
  simp [hr]

section
variable (planes : Planes) (r b : Fin 8)

/-- R70: above bit 7 a row-word holds the three planes only. -/
theorem getLsbD_packRow_of_le {i : Nat} (hi : 8 ≤ i) (h32 : i < 32) : (packRow planes r).getLsbD i =
    (decide (24 ≤ i) && planes.red.getLsbD (i - 24) || decide (16 ≤ i) && planes.blue.getLsbD (i - 16) ||
      planes.green.getLsbD (i - 8)) := by
  have hwidth : ∀ k, i - k < 32 := fun k => by omega
  simp only [packRow, BitVec.getLsbD_or, getLsbD_rowSelect_of_le r hi, BitVec.getLsbD_shiftLeft,
    BitVec.getLsbD_setWidth, h32, hwidth, hi, ← Nat.not_le, decide_not, decide_true, Bool.not_not, Bool.true_and,
    Bool.or_false]

theorem getLsbD_packRow_red : (packRow planes r).getLsbD (24 + b.val) = planes.red.getLsbD b.val := by
  rw [getLsbD_packRow_of_le planes r (by omega) (by omega), BitVec.getLsbD_of_ge planes.blue _ (by omega),
    BitVec.getLsbD_of_ge planes.green _ (by omega)]
  simp

theorem getLsbD_packRow_blue : (packRow planes r).getLsbD (16 + b.val) = planes.blue.getLsbD b.val := by
  have hred : ¬ 24 ≤ 16 + b.val := by omega
  rw [getLsbD_packRow_of_le planes r (by omega) (by omega), BitVec.getLsbD_of_ge planes.green _ (by omega)]
  simp [hred]

theorem getLsbD_packRow_green : (packRow planes r).getLsbD (8 + b.val) = planes.green.getLsbD b.val := by
  have hred : ¬ 24 ≤ 8 + b.val := by omega
  have hblue : ¬ 16 ≤ 8 + b.val := by omega
  rw [getLsbD_packRow_of_le planes r (by omega) (by omega)]
  simp [hred, hblue]

end

/-- Settles O16: a bit of the row-word is a bit of one plane, which the scan took from that lane. -/
theorem encodeRowLanes : Obligations.EncodeRowLanes := by
  intro img page t r
  refine ⟨fun b p hp => ?_, rowSelected_encodeRow img page t r⟩
  have hlane : ∀ colour, (scanPlane (laneOutput img page t r colour) scanOrder).getLsbD b.val = active (colour p) t :=
    fun colour => hp ▸ getLsbD_scanPlane_scanOrder _ b
  rw [encodeRow_eq_packRow, getLsbD_packRow_red, getLsbD_packRow_blue, getLsbD_packRow_green]
  exact ⟨hlane redOf, hlane blueOf, hlane greenOf⟩

end Sys2Proof.Machine

/-! Settles the statements of R150, R151 and R153. What any move can do to the scheduler, the queue and OUT is said
once (`StreamingCase`); from it follow the invariant of the word stream and how the stream grows. -/

namespace Sys2Proof.Machine

variable {s t : State}

/-! ## The engine's word step -/

theorem engineStep_of_cons {w : Word} {ws : List Word} (h : s.q = w :: ws) :
    engineStep s = { s with q := ws, out := s.out ++ [w] } := by
  rcases engineStep_cases s with ⟨w', ws', hq, he⟩ | ⟨hq, -⟩
  · cases hq.symm.trans h
    exact he
  · cases hq.symm.trans h

theorem engineStep_of_nil (h : s.q = []) : engineStep s = { s with out := s.out ++ [idleWord] } := by
  rcases engineStep_cases s with ⟨w, ws, hq, -⟩ | ⟨-, he⟩
  · cases hq.symm.trans h
  · exact he

/-- Settles O54: the two cases of the engine's step. -/
theorem engineTakesHeadOrIdle : Obligations.EngineTakesHeadOrIdle := fun _ =>
  ⟨fun _ _ h => congrArg Host.Outcome.next (engineStep_of_cons h),
    fun h => congrArg Host.Outcome.next (engineStep_of_nil h)⟩

@[simp] theorem length_serialBits (w : Word) : (serialBits w).length = 32 := by simp [serialBits]

theorem getElem?_serialBits (w : Word) {i : Nat} (h : i < 32) : (serialBits w)[i]? = some (w.getLsbD (31 - i)) := by
  simp [serialBits, h]

/-- Settles O55: what the engine adds to the line events is the transmission of its word. -/
theorem wordsGoOutMsbFirst : Obligations.WordsGoOutMsbFirst := by
  rintro s w rfl
  exact ⟨engineStep s, serialBits (s.q.headD 0), rfl, length_serialBits _, fun _ => getElem?_serialBits _,
    engineStep_lineEvents s⟩

/-! ## The moves that touch no part of the word stream -/

/-- `t` has the configuration, the scheduler's registers, the queue and the output of `s`. -/
structure State.SameStreaming (s t : State) : Prop where
  cfg      : t.cfg = s.cfg
  schS     : t.schS = s.schS
  schR     : t.schR = s.schR
  schP     : t.schP = s.schP
  schPhase : t.schPhase = s.schPhase
  schW     : t.schW = s.schW
  q        : t.q = s.q
  out      : t.out = s.out

@[refl] theorem State.SameStreaming.refl (s : State) : s.SameStreaming s := ⟨rfl, rfl, rfl, rfl, rfl, rfl, rfl, rfl⟩

theorem State.hostConsume_sameStreaming (s : State) : s.SameStreaming s.hostConsume := by
  rcases s.hostConsume_cases with ⟨-, h⟩ | h
  · rw [h]
    exact ⟨rfl, rfl, rfl, rfl, rfl, rfl, rfl, rfl⟩
  · rw [h]

theorem State.idleStep_sameStreaming (s : State) : s.SameStreaming s.idleStep := by
  rcases s.idleStep_cases with ⟨-, h⟩ | ⟨w, ws, -, h⟩
  · rw [h]
  · rw [h]
    exact ⟨rfl, rfl, rfl, rfl, rfl, rfl, rfl, rfl⟩

theorem State.collectStep_sameStreaming (s : State) : s.SameStreaming s.collectStep := by
  rcases s.collectStep_cases with ⟨-, -, h⟩ | ⟨w, ws, -, -, h⟩ | ⟨-, h⟩
  · rw [h]
  · rw [h]
    exact ⟨rfl, rfl, rfl, rfl, rfl, rfl, rfl, rfl⟩
  · rw [h]
    exact ⟨rfl, rfl, rfl, rfl, rfl, rfl, rfl, rfl⟩

theorem State.applyStep_sameStreaming (h : s.applyStep = .next t) : s.SameStreaming t := by
  rcases s.applyStep_cases with ⟨c, -, h'⟩ | ⟨i, pb, rotK, res, -, -, h'⟩ <;> cases h'.symm.trans h <;>
    exact ⟨rfl, rfl, rfl, rfl, rfl, rfl, rfl, rfl⟩

theorem State.runEvent_sameStreaming {e : SlotEvent} (h : s.runEvent e = some t) : s.SameStreaming t := by
  cases e with
  | acquire shade => cases h; exact ⟨rfl, rfl, rfl, rfl, rfl, rfl, rfl, rfl⟩
  | beginSlot sl =>
    obtain ⟨old, new, -, -, rfl⟩ := State.beginWrite_eq_some.1 h
    exact ⟨rfl, rfl, rfl, rfl, rfl, rfl, rfl, rfl⟩
  | endSlot sl =>
    obtain ⟨rec, -, rfl⟩ := State.endWrite_eq_some.1 h
    exact ⟨rfl, rfl, rfl, rfl, rfl, rfl, rfl, rfl⟩
  | release shade => cases h; exact ⟨rfl, rfl, rfl, rfl, rfl, rfl, rfl, rfl⟩

theorem State.sendResponse_sameStreaming (s : State) : s.SameStreaming s.sendResponse := by
  rcases s.sendResponse_cases with ⟨-, h⟩ | ⟨w, -, h⟩ | ⟨w, w', ws, -, h⟩ <;>
    (rw [h]; exact ⟨rfl, rfl, rfl, rfl, rfl, rfl, rfl, rfl⟩)

/-- R56: the executor touches neither the scheduler, the queue nor the output. -/
theorem executorStep_sameStreaming {pick : Nat} (h : executorStep pick s = .next t) : s.SameStreaming t := by
  rcases executorStep_cases h with ⟨-, rfl⟩ | ⟨-, rfl⟩ | ⟨-, h⟩ | ⟨-, h⟩
  · exact s.idleStep_sameStreaming
  · exact s.collectStep_sameStreaming
  · exact State.applyStep_sameStreaming h
  · rcases State.respondStep_cases h with ⟨e, -, he⟩ | ⟨-, -, rfl⟩ | ⟨-, -, rfl⟩
    · exact State.runEvent_sameStreaming he
    · exact s.sendResponse_sameStreaming
    · rfl

/-! ## What a move pushes, and what it does to the word stream -/

theorem pushOf_scheduler_of_room {mask m : Word} {stay : Bool} (hphase : s.schPhase = .emit)
    (hroom : s.q.length < s.cfg.queueDepth) (hm : s.passMaskAt s.schP = some m) :
    pushOf (.scheduler mask stay) s = [s.schW ||| m] := by
  simp [pushOf, hphase, hroom, hm]

theorem pushOf_scheduler_of_full {mask : Word} {stay : Bool} (hfull : s.cfg.queueDepth ≤ s.q.length) :
    pushOf (.scheduler mask stay) s = [] := by
  simp [pushOf, Nat.not_lt.2 hfull]

theorem pushOf_scheduler_of_ne_emit {mask : Word} {stay : Bool} (hphase : s.schPhase ≠ .emit) :
    pushOf (.scheduler mask stay) s = [] := by
  simp [pushOf, hphase]

theorem pushesOf_cons {m : Move} {ms : List Move} (h : moveStep m s = .next t) :
    pushesOf (m :: ms) s = pushOf m s ++ pushesOf ms t := by
  simp only [pushesOf, h]

/-- What a move from `s` to `t` can do to the scheduler, the queue and OUT, with the words it pushes: nothing, one of
the scheduler's three steps (R142, R143, R145), or one of the engine's two (R150). -/
inductive State.StreamingCase (s : State) : State → List Word → Prop where
  | same {t : State} (hsame : s.SameStreaming t) : s.StreamingCase t []
  | fetch {mask w : Word} (hphase : s.schPhase = .fetch) (hread : s.readSb s.schSlot mask = some w) :
      s.StreamingCase { s with schW := w, schP := 0, schPhase := .emit } []
  | emit {m : Word} (hphase : s.schPhase = .emit) (hroom : s.q.length < s.cfg.queueDepth)
      (hm : s.passMaskAt s.schP = some m) : s.StreamingCase (s.enqueue (s.schW ||| m)).advance [s.schW ||| m]
  | leaveGap (hphase : s.schPhase = .gap) : s.StreamingCase { s with schPhase := .fetch } []
  | send {w : Word} {ws : List Word} (hq : s.q = w :: ws) :
      s.StreamingCase { s with q := ws, out := s.out ++ [w] } []
  | idle (hq : s.q = []) : s.StreamingCase { s with out := s.out ++ [idleWord] } []

theorem schedulerStep_streamingCase {mask : Word} {stay : Bool} (h : schedulerStep mask stay s = .next t) :
    s.StreamingCase t (pushOf (.scheduler mask stay) s) := by
  unfold schedulerStep at h
  split at h
  · next hphase =>
    rw [pushOf_scheduler_of_ne_emit (by simp [hphase])]
    rcases State.fetchStep_cases h with ⟨-, rfl⟩ | ⟨w, -, hread, rfl⟩
    · exact .same (.refl _)
    · exact .fetch hphase hread
  · next hphase =>
    rcases State.emitStep_cases h with ⟨hfull, rfl⟩ | ⟨m, hroom, hm, rfl⟩
    · rw [pushOf_scheduler_of_full hfull]
      exact .same (.refl _)
    · rw [pushOf_scheduler_of_room hphase hroom hm]
      exact .emit hphase hroom hm
  · next hphase =>
    rw [pushOf_scheduler_of_ne_emit (by simp [hphase])]
    rcases State.gapStep_cases h with rfl | rfl
    · exact .same (.refl _)
    · exact .leaveGap hphase

theorem moveStep_streamingCase {m : Move} (h : moveStep m s = .next t) : s.StreamingCase t (pushOf m s) := by
  cases m with
  | host w => cases h; exact .same ⟨rfl, rfl, rfl, rfl, rfl, rfl, rfl, rfl⟩
  | consume => cases h; exact .same s.hostConsume_sameStreaming
  | executor pick => exact .same (executorStep_sameStreaming h)
  | scheduler mask stay => exact schedulerStep_streamingCase h
  | engine =>
    cases h
    rcases engineStep_cases s with ⟨w, ws, hq, he⟩ | ⟨hq, he⟩ <;> rw [he]
    · exact .send hq
    · exact .idle hq

/-! ## The invariant of the word stream -/

@[simp] theorem State.advance_cfg (s : State) : s.advance.cfg = s.cfg := s.advance_sameSlots.cfg

@[simp] theorem State.advance_q (s : State) : s.advance.q = s.q := by
  unfold State.advance
  split_ifs <;> rfl

@[simp] theorem State.advance_out (s : State) : s.advance.out = s.out := by
  unfold State.advance
  split_ifs <;> rfl

variable {ws : List Word}

/-- R27: what FETCH latches has its row's select byte, and the advance keeps the row while it stays in EMIT. -/
theorem State.SchedulerOk.streamingCase (hs : s.SchedulerOk) (hc : s.cfg.admitted = true) (ho : s.StoreOneHot)
    (h : s.StreamingCase t ws) : t.SchedulerOk := by
  obtain ⟨hS, hP, hW⟩ := hs
  cases h with
  | same hsame =>
    unfold State.SchedulerOk
    rw [hsame.cfg, hsame.schS, hsame.schP, hsame.schPhase, hsame.schW, hsame.schR]
    exact ⟨hS, hP, hW⟩
  | fetch hphase hread => exact ⟨hS, Nat.zero_lt_succ 2, fun _ => State.rowSelected_readSb ho hread⟩
  | @emit m hphase hroom hm =>
    obtain ⟨-, hN, -, -⟩ := (Config.admitted_iff s.cfg).1 hc
    obtain ⟨p, r, sh, ph, hadv, hp, hsh, hrow⟩ := State.advance_cases (s := s.enqueue (s.schW ||| m)) hS hN hP
    rw [hadv]
    refine ⟨hsh, hp, fun hph => ?_⟩
    obtain ⟨-, rfl⟩ := hrow hph
    exact hW hphase
  | leaveGap hphase => exact ⟨hS, hP, fun h => by cases h⟩
  | send hq => exact ⟨hS, hP, hW⟩
  | idle hq => exact ⟨hS, hP, hW⟩

/-- R75: what EMIT pushes has the row-select byte of the latched word, the pass mask's low byte being zero (R9). -/
theorem State.SchedulerOk.schedulerWord_push (hs : s.SchedulerOk) (hc : s.cfg.admitted = true)
    (hphase : s.schPhase = .emit) {m : Word} (hm : s.passMaskAt s.schP = some m) : schedulerWord (s.schW ||| m) := by
  obtain ⟨-, -, hW⟩ := hs
  exact ⟨s.schR.toFin, rowSelected_or_mask (hW hphase) (State.lowByte_passMaskAt hc hm)⟩

theorem State.QueueOk.streamingCase (hQ : s.QueueOk) (hc : s.cfg.admitted = true) (hs : s.SchedulerOk)
    (h : s.StreamingCase t ws) : t.QueueOk := by
  obtain ⟨hlen, hword⟩ := hQ
  cases h with
  | same hsame =>
    unfold State.QueueOk
    rw [hsame.cfg, hsame.q]
    exact ⟨hlen, hword⟩
  | fetch hphase hread => exact ⟨hlen, hword⟩
  | emit hphase hroom hm =>
    refine ⟨by simpa using hroom, fun w hw => ?_⟩
    rw [State.advance_q, State.enqueue_q, List.mem_append, List.mem_singleton] at hw
    rcases hw with hw | rfl
    · exact hword w hw
    · exact hs.schedulerWord_push hc hphase hm
  | leaveGap hphase => exact ⟨hlen, hword⟩
  | send hq =>
    rw [hq] at hlen hword
    exact ⟨Nat.le_of_succ_le hlen, fun w hw => hword w (List.mem_cons_of_mem _ hw)⟩
  | idle hq => exact ⟨hlen, hword⟩

/-- R75, R152: the engine sends a word of the queue, or the idle word. -/
theorem State.OutOk.streamingCase (hO : s.OutOk) (hQ : s.QueueOk) (h : s.StreamingCase t ws) : t.OutOk := by
  obtain ⟨-, hword⟩ := hQ
  cases h with
  | same hsame =>
    unfold State.OutOk
    rw [hsame.out]
    exact hO
  | fetch hphase hread => exact hO
  | emit hphase hroom hm =>
    unfold State.OutOk
    rw [State.advance_out]
    exact hO
  | leaveGap hphase => exact hO
  | @send w ws hq =>
    exact List.forall_mem_append.2 ⟨hO, List.forall_mem_singleton.2 (.inr (hword w (by simp [hq])))⟩
  | idle hq =>
    exact List.forall_mem_append.2 ⟨hO, List.forall_mem_singleton.2 (.inl rfl)⟩

/-- The part of the invariant that the word stream rests on; every move keeps it. -/
structure State.StreamOk (s : State) : Prop where
  admitted  : s.cfg.admitted = true
  sized     : s.Sized
  oneHot    : s.StoreOneHot
  scheduler : s.SchedulerOk
  queue     : s.QueueOk
  output    : s.OutOk

theorem State.Inv.streamOk (h : s.Inv) : s.StreamOk :=
  ⟨h.admitted, h.sized, h.oneHot, h.scheduler, h.queue, h.output⟩

theorem State.StreamOk.moveStep {m : Move} (hs : s.StreamOk) (h : moveStep m s = .next t) : t.StreamOk :=
  have hcase := moveStep_streamingCase h
  { admitted := (cfg_of_moveStep h).symm ▸ hs.admitted
    sized := hs.sized.moveStep h
    oneHot := hs.oneHot.moveStep hs.sized h
    scheduler := hs.scheduler.streamingCase hs.admitted hs.oneHot hcase
    queue := hs.queue.streamingCase hs.admitted hs.scheduler hcase
    output := hs.output.streamingCase hs.queue hcase }

theorem State.StreamOk.runMoves {ms : List Move} (hs : s.StreamOk) (h : runMoves ms s = .next t) : t.StreamOk :=
  runMoves_induction (fun _ _ _ => State.StreamOk.moveStep) hs h

/-! ## How the word stream grows -/

theorem isIdle_of_schedulerWord {w : Word} (h : schedulerWord w) : isIdle w = false := by
  obtain ⟨r, hr⟩ := h
  exact isIdle_of_rowSelected hr

/-- R153: a transmitted queue word stays in the stream, an idle word never enters it, and only a push adds to it. -/
theorem State.StreamingCase.stream (h : s.StreamingCase t ws) (hQ : s.QueueOk) : t.stream = s.stream ++ ws := by
  obtain ⟨-, hword⟩ := hQ
  cases h with
  | same hsame => simp only [State.stream, hsame.out, hsame.q, List.append_nil]
  | fetch hphase hread => exact (List.append_nil _).symm
  | emit hphase hroom hm => simp [State.stream]
  | leaveGap hphase => exact (List.append_nil _).symm
  | @send w ws hq =>
    have hw : isIdle w = false := isIdle_of_schedulerWord (hword w (by simp [hq]))
    simp [State.stream, hq, hw]
  | idle hq =>
    have hidle : isIdle idleWord = true := rfl
    simp [State.stream, hidle]

/-- R153: the stream grows by the pushes of the run, in push order. -/
theorem State.StreamOk.stream_runMoves {ms : List Move} (hs : s.StreamOk) (h : Machine.runMoves ms s = .next t) :
    t.stream = s.stream ++ pushesOf ms s := by
  induction ms generalizing s with
  | nil => cases h; exact (List.append_nil _).symm
  | cons m ms ih =>
    obtain ⟨u, hu, hrun⟩ := runMoves_cons.1 h
    calc t.stream = u.stream ++ pushesOf ms u := ih (hs.moveStep hu) hrun
      _ = s.stream ++ pushOf m s ++ pushesOf ms u := by rw [(moveStep_streamingCase hu).stream hs.queue]
      _ = s.stream ++ pushesOf (m :: ms) s := by rw [pushesOf_cons hu, List.append_assoc]

/-- R153: a word of OUT whose bits 7:0 are zero is the idle word. -/
theorem State.OutOk.eq_idleWord (hO : s.OutOk) {w : Word} (hw : w ∈ s.out) (hlow : lowByte w = 0) : w = idleWord := by
  rcases hO w hw with h | h
  · exact h
  · have hbusy := isIdle_of_schedulerWord h
    simp [isIdle, hlow] at hbusy

/-- Settles O53, by induction on the run: each move adds what it pushes to the stream. -/
theorem outIsThePushSequence : Obligations.OutIsThePushSequence := fun _ _ _ hinv hrun =>
  ⟨hinv.streamOk.stream_runMoves hrun, fun _ => (hinv.streamOk.runMoves hrun).output.eq_idleWord⟩

end Sys2Proof.Machine

/-! Settles the statement of R204. The decoder knows an illegal header by the masks of opcode_table.json, R77 and R84 by
its fields; that the two say the same is proved here once, row by row of the table. -/

namespace Sys2Proof

/-- R78: the row of an OP stands in the table and has that OP. -/
theorem opRow_eq_some {op : BitVec 4} {row : OpRow} (h : opRow op = some row) : row ∈ opRows ∧ row.op = op :=
  ⟨List.mem_of_find?_eq_some h, beq_iff_eq.1 (List.find?_some (p := fun row : OpRow => row.op == op) h)⟩

/-- R83: the decoder has a command for every OP that the table has a row for. -/
theorem exists_buildInstr {hdr : Word} {row : OpRow} (data : Vector Word 64) (h : opRow (opField hdr) = some row) :
    ∃ i, buildInstr hdr data = .ok i := by
  obtain ⟨hmem, hop⟩ := opRow_eq_some h
  rw [buildInstr, ← hop]
  simp only [opRows, List.mem_cons, List.not_mem_nil, or_false] at hmem
  rcases hmem with rfl | rfl | rfl | rfl | rfl | rfl | rfl <;> exact ⟨_, rfl⟩

end Sys2Proof

namespace Sys2Proof.Machine

/-! ## The masks are the fields of R77 -/

theorem illegalHeader_of_unassigned {hdr : Word} (h : opRow (opField hdr) = none) : IllegalHeader hdr := by
  have hop := (opRow_eq_none_iff _).1 h
  rw [← BitVec.toNat_inj, opField_toNat] at hop
  exact .inl hop

/-- R77, R84: a header of a legal OP passes its row's mask exactly when no field its format does not use has a bit. -/
theorem mask_iff_not_illegalHeader {hdr : Word} {row : OpRow} (h : opRow (opField hdr) = some row) :
    hdr &&& row.mask = row.value ↔ ¬ IllegalHeader hdr := by
  obtain ⟨hmem, hop⟩ := opRow_eq_some h
  have hnat : hdr.toNat % 16 = row.op.toNat := by rw [hop, opField_toNat]
  simp only [opRows, List.mem_cons, List.not_mem_nil, or_false] at hmem
  rcases hmem with rfl | rfl | rfl | rfl | rfl | rfl | rfl
  · simpa [IllegalHeader, hnat, ← hop] using maskH0_iff hdr 1
  · simpa [IllegalHeader, hnat, ← hop] using maskH0_iff hdr 2
  · simpa [IllegalHeader, hnat, ← hop] using maskHXY_iff hdr 3
  · simpa [IllegalHeader, hnat, ← hop] using maskHXY_iff hdr 4
  · simpa [IllegalHeader, hnat, ← hop] using maskHA_iff hdr 5
  · simpa [IllegalHeader, hnat, ← hop] using maskHA_iff hdr 6
  · simpa [IllegalHeader, hnat, ← hop] using maskH0_iff hdr 7

/-! ## The decoder on illegal and on legal headers -/

/-- R84, R204: an illegal header does not decode, whatever its beats. -/
theorem decodeCommand_of_illegalHeader {hdr : Word} (h : IllegalHeader hdr) (data : Vector Word 64) :
    ∃ e, decodeCommand hdr data = .error e := by
  cases hrow : opRow (opField hdr) with
  | none => exact ⟨_, decodeCommand_unassigned data hrow⟩
  | some row =>
    have hmask : hdr &&& row.mask ≠ row.value := fun hm => (mask_iff_not_illegalHeader hrow).1 hm h
    exact ⟨_, decodeCommand_illegalField data hrow hmask⟩

/-- R83, R84: every other header decodes to a command, whatever its beats. -/
theorem decodeCommand_of_not_illegalHeader {hdr : Word} (h : ¬ IllegalHeader hdr) (data : Vector Word 64) :
    ∃ i, decodeCommand hdr data = .ok i := by
  cases hrow : opRow (opField hdr) with
  | none => exact absurd (illegalHeader_of_unassigned hrow) h
  | some row =>
    rw [decodeCommand_legal data hrow ((mask_iff_not_illegalHeader hrow).2 h)]
    exact exists_buildInstr data hrow

/-! ## APPLY -/

variable {s : State}

theorem State.applyStep_of_error {e : DecodeError} (h : decodeCommand s.exHdr s.exData = .error e) :
    s.applyStep = .next (s.raiseError .illegalCommand) := by
  rw [State.applyStep, h]

theorem State.applyStep_of_ok {i : Instr} (h : decodeCommand s.exHdr s.exData = .ok i) :
    s.applyStep = exec i s := by
  rw [State.applyStep, h]

/-- R204, R205: APPLY of an illegal header raises IllegalCommand. -/
theorem State.applyStep_of_illegalHeader (h : IllegalHeader s.exHdr) :
    s.applyStep = .next (s.raiseError .illegalCommand) := by
  obtain ⟨e, he⟩ := decodeCommand_of_illegalHeader h s.exData
  exact State.applyStep_of_error he

/-- Settles O4: the decoder fails exactly on the illegal headers, and IllegalCommand's code is 3. -/
theorem illegalCommandExactly : Obligations.IllegalCommandExactly := by
  refine fun s => ⟨State.applyStep_of_illegalHeader, fun hlegal => ?_⟩
  obtain ⟨i, hi⟩ := decodeCommand_of_not_illegalHeader hlegal s.exData
  exact ⟨i, hi, State.applyStep_of_ok hi⟩

end Sys2Proof.Machine

/-! Settles the statements of R230 and R231: which configurations have an initial state, and what reset leaves. -/

namespace Sys2Proof.Machine

/-! ## The configuration check -/

/-- R230: a configuration has an initial state, that of its reset, exactly when it is admitted. -/
theorem State.construct_eq_some {c : Config} {s : State} :
    State.construct c = some s ↔ c.admitted = true ∧ State.resetWith c = s := by
  simp [State.construct]

theorem State.isSome_construct (c : Config) : (State.construct c).isSome = c.admitted := by
  cases h : c.admitted <;> simp [State.construct, h]

/-- Settles O18: the check of construction is the check of every step. -/
theorem onlyAdmittedConfigurationsRun : Obligations.OnlyAdmittedConfigurationsRun := by
  intro c
  rw [State.isSome_construct]
  refine ⟨Config.admitted_iff c, ?_⟩
  rintro s rfl hc
  exact step_of_not_admitted hc

/-! ## The state after reset -/

/-- R231 step 5: after reset no slot is owed, no write is in flight and no lock is held. -/
theorem State.settled_resetWith (c : Config) : (State.resetWith c).settled = true := by
  refine State.settled_iff.2 ⟨rfl, fun _ ho => List.eq_of_mem_replicate ho, fun l hl => ?_⟩
  have hlock : (State.resetWith c).lock = if c.shadeLock then List.replicate c.shadeCount .free else [] := rfl
  rw [hlock] at hl
  split at hl
  · exact List.eq_of_mem_replicate hl
  · cases hl

/-- R231 step 4: the word of a slot that exists, under the page of angle 0. -/
theorem State.exists_sbAt_resetWith {c : Config} {sl : Slot} (h : sl.shade < c.shadeCount) :
    ∃ t, (computeThresholds c.shadeCount)[sl.shade]? = some t ∧
      (State.resetWith c).sbAt sl = some (encodeRow c.resetImage rotPage0 t sl.row) := by
  obtain ⟨t, ht⟩ : ∃ t, (computeThresholds c.shadeCount)[sl.shade]? = some t :=
    ⟨_, List.getElem?_eq_getElem ((length_computeThresholds c.shadeCount).symm ▸ h)⟩
  have hencoded : (State.resetWith c).encoded sl = some (encodeRow c.resetImage rotPage0 t sl.row) :=
    congrArg (Option.map fun t => encodeRow c.resetImage rotPage0 t sl.row) ht
  exact ⟨t, ht, (State.sbAt_resetWith c sl).trans hencoded⟩

/-- Settles O19: the registers are those of `resetWith`; the store, the records and the locks have their own lemmas. -/
theorem resetState : Obligations.ResetState := by
  intro c hc
  have habsent (sl : Slot) (h : c.shadeCount ≤ sl.shade) : (State.resetWith c).sbAt sl = none :=
    State.sbAt_eq_none (State.sized_resetWith c) (Nat.not_lt.2 h)
  exact ⟨State.resetWith c, State.construct_eq_some.2 ⟨hc, rfl⟩, rfl, rfl, rfl, rfl, rfl,
    fun _ => State.exists_sbAt_resetWith, habsent, rfl, rfl, State.inflightAt_resetWith c,
    State.lockHeld_of_settled (State.settled_resetWith c), rfl, rfl, rfl, rfl, rfl, rfl, rfl⟩

end Sys2Proof.Machine

/-! Settles the statement of R56: what the steps of each agent leave alone. What an executor step can do is said once
(`ExecutorCase`), by phase; the steps of the other agents leave everything the executor owns as it is. -/

namespace Sys2Proof.Machine

variable {s t : State}

/-! ## What an executor step can do -/

/-- The next states of an executor step, with what made each of them the next (R170). -/
inductive State.ExecutorCase (s : State) : State → Prop where
  | waitHeader (hphase : s.exPhase = .idle) (hport : s.port = []) : s.ExecutorCase s
  | header {w : Word} {ws : List Word} (hphase : s.exPhase = .idle) (hport : s.port = w :: ws) :
      s.ExecutorCase { s with port := ws, exHdr := w, exCnt := 0, exPhase := .collect }
  | waitBeat (hphase : s.exPhase = .collect) (hcnt : s.exCnt.toNat < beats (opField s.exHdr)) (hport : s.port = []) :
      s.ExecutorCase s
  | beat {w : Word} {ws : List Word} (hphase : s.exPhase = .collect) (hcnt : s.exCnt.toNat < beats (opField s.exHdr))
      (hport : s.port = w :: ws) : s.ExecutorCase
        { s with port := ws, exData := s.exData.setIfInBounds s.exCnt.toNat w, exCnt := s.exCnt + 1 }
  | collected (hphase : s.exPhase = .collect) (hcnt : beats (opField s.exHdr) ≤ s.exCnt.toNat) :
      s.ExecutorCase { s with exPhase := .apply }
  | error {c : Code} (hphase : s.exPhase = .apply) (hstep : s.applyStep = .next (s.raiseError c)) :
      s.ExecutorCase (s.raiseError c)
  | command {i : Instr} {pb : Image} {rotK : BitVec 2} {res : List Word} (hphase : s.exPhase = .apply)
      (hstep : s.applyStep = .next
        ({ s with pb := pb, rotK := rotK }.finishApply ({ s with pb := pb, rotK := rotK }.writeSet i) res)) :
      s.ExecutorCase ({ s with pb := pb, rotK := rotK }.finishApply ({ s with pb := pb, rotK := rotK }.writeSet i) res)
  | event {e : SlotEvent} {t : State} (hphase : s.exPhase = .respond) (hmem : e ∈ s.slotEvents)
      (hrun : s.runEvent e = some t) : s.ExecutorCase t
  | response (hphase : s.exPhase = .respond) (hsettled : s.settled = true) : s.ExecutorCase s.sendResponse
  | waitEvent (hphase : s.exPhase = .respond) (hevents : s.slotEvents = []) (hsettled : s.settled = false) :
      s.ExecutorCase s

theorem State.applyStep_case (hphase : s.exPhase = .apply) (h : s.applyStep = .next t) : s.ExecutorCase t := by
  rcases s.applyStep_cases with ⟨c, -, hstep⟩ | ⟨i, pb, rotK, res, -, -, hstep⟩ <;> cases hstep.symm.trans h
  · exact .error hphase hstep
  · exact .command hphase hstep

theorem State.respondStep_case {pick : Nat} (hphase : s.exPhase = .respond) (h : s.respondStep pick = .next t) :
    s.ExecutorCase t := by
  rcases State.respondStep_cases h with ⟨e, hmem, he⟩ | ⟨-, hsettled, rfl⟩ | ⟨hevents, hsettled, rfl⟩
  · exact .event hphase hmem he
  · exact .response hphase hsettled
  · exact .waitEvent hphase hevents hsettled

theorem executorStep_case {pick : Nat} (h : executorStep pick s = .next t) : s.ExecutorCase t := by
  rcases executorStep_cases h with ⟨hphase, rfl⟩ | ⟨hphase, rfl⟩ | ⟨hphase, h⟩ | ⟨hphase, h⟩
  · rcases s.idleStep_cases with ⟨hport, h⟩ | ⟨w, ws, hport, h⟩ <;> rw [h]
    · exact .waitHeader hphase hport
    · exact .header hphase hport
  · rcases s.collectStep_cases with ⟨hcnt, hport, h⟩ | ⟨w, ws, hcnt, hport, h⟩ | ⟨hcnt, h⟩ <;> rw [h]
    · exact .waitBeat hphase hcnt hport
    · exact .beat hphase hcnt hport
    · exact .collected hphase hcnt
  · exact State.applyStep_case hphase h
  · exact State.respondStep_case hphase h

/-! ## What the executor leaves alone -/

/-- `t` has the ROMs and the count of consumed responses of `s`; RSP has grown at its end, and words have been taken
from the head of the command port (R56, R76). -/
structure State.ExecutorFrame (s t : State) : Prop where
  thresh   : t.thresh = s.thresh
  rotMap   : t.rotMap = s.rotMap
  rspTaken : t.rspTaken = s.rspTaken
  rsp      : ∃ ws, t.rsp = s.rsp ++ ws
  port     : ∃ ws, s.port = ws ++ t.port

theorem State.ExecutorFrame.of_rsp_port (thresh : t.thresh = s.thresh) (rotMap : t.rotMap = s.rotMap)
    (rspTaken : t.rspTaken = s.rspTaken) (rsp : t.rsp = s.rsp) (port : t.port = s.port) : s.ExecutorFrame t :=
  ⟨thresh, rotMap, rspTaken, ⟨[], by rw [rsp, List.append_nil]⟩, [], port.symm⟩

/-- R59, R60: the slot events write the shade store, the records, the locks and EX_PEND only. -/
theorem State.runEvent_frame {e : SlotEvent} (h : s.runEvent e = some t) :
    t = { s with sb := t.sb, exPend := t.exPend, inflight := t.inflight, lock := t.lock } := by
  cases e with
  | acquire shade => cases h; rfl
  | beginSlot sl => obtain ⟨old, new, -, -, rfl⟩ := State.beginWrite_eq_some.1 h; rfl
  | endSlot sl => obtain ⟨rec, -, rfl⟩ := State.endWrite_eq_some.1 h; rfl
  | release shade => cases h; rfl

theorem State.sendResponse_frame (s : State) : s.ExecutorFrame s.sendResponse := by
  rcases s.sendResponse_cases with ⟨-, h⟩ | ⟨w, -, h⟩ | ⟨w, w', ws, -, h⟩ <;> rw [h]
  · exact .of_rsp_port rfl rfl rfl rfl rfl
  · exact ⟨rfl, rfl, rfl, ⟨_, rfl⟩, [], rfl⟩
  · exact ⟨rfl, rfl, rfl, ⟨_, rfl⟩, [], rfl⟩

theorem State.ExecutorCase.frame (h : s.ExecutorCase t) : s.ExecutorFrame t := by
  cases h with
  | waitHeader hphase hport => exact .of_rsp_port rfl rfl rfl rfl rfl
  | @header w ws hphase hport => exact ⟨rfl, rfl, rfl, ⟨[], (List.append_nil _).symm⟩, [w], hport⟩
  | waitBeat hphase hcnt hport => exact .of_rsp_port rfl rfl rfl rfl rfl
  | @beat w ws hphase hcnt hport => exact ⟨rfl, rfl, rfl, ⟨[], (List.append_nil _).symm⟩, [w], hport⟩
  | collected hphase hcnt => exact .of_rsp_port rfl rfl rfl rfl rfl
  | error hphase hstep => exact ⟨rfl, rfl, rfl, ⟨_, rfl⟩, [], rfl⟩
  | command hphase hstep => exact .of_rsp_port rfl rfl rfl rfl rfl
  | event hphase hmem hrun =>
    rw [State.runEvent_frame hrun]
    exact .of_rsp_port rfl rfl rfl rfl rfl
  | response hphase hsettled => exact s.sendResponse_frame
  | waitEvent hphase hevents hsettled => exact .of_rsp_port rfl rfl rfl rfl rfl

/-! ## What the other agents leave alone -/

/-- R144: the advance writes the scheduler's registers only. -/
theorem State.advance_frame (s : State) : s.advance = { s with
    schS := s.advance.schS, schR := s.advance.schR, schP := s.advance.schP, schPhase := s.advance.schPhase } := by
  unfold State.advance
  split_ifs <;> rfl

@[simp] theorem State.advance_schW (s : State) : s.advance.schW = s.schW := by rw [State.advance_frame]

/-- R142 to R145: the scheduler writes its registers and the tail of the queue only. -/
theorem schedulerStep_frame {mask : Word} {stay : Bool} (h : schedulerStep mask stay s = .next t) :
    (∃ ws, t.q = s.q ++ ws) ∧ t = { s with
      schS := t.schS, schR := t.schR, schP := t.schP, schPhase := t.schPhase, schW := t.schW, q := t.q } := by
  unfold schedulerStep at h
  split at h
  · rcases State.fetchStep_cases h with ⟨-, rfl⟩ | ⟨w, -, -, rfl⟩ <;> exact ⟨⟨[], (List.append_nil _).symm⟩, rfl⟩
  · rcases State.emitStep_cases h with ⟨-, rfl⟩ | ⟨m, -, -, rfl⟩
    · exact ⟨⟨[], (List.append_nil _).symm⟩, rfl⟩
    · refine ⟨⟨[s.schW ||| m], State.advance_q _⟩, ?_⟩
      rw [State.advance_schW, State.advance_q]
      exact State.advance_frame _
  · rcases State.gapStep_cases h with rfl | rfl <;> exact ⟨⟨[], (List.append_nil _).symm⟩, rfl⟩

/-- R150: the engine writes the head of the queue and OUT only. -/
theorem engineStep_frame (s : State) :
    (∃ ws, s.q = ws ++ (engineStep s).q) ∧
      engineStep s = { s with q := (engineStep s).q, out := (engineStep s).out } := by
  rcases engineStep_cases s with ⟨w, ws, hq, h⟩ | ⟨hq, h⟩ <;> rw [h]
  · exact ⟨⟨[w], hq⟩, rfl⟩
  · exact ⟨⟨[], rfl⟩, rfl⟩

/-- Settles O25: the frames of the executor's, the scheduler's and the engine's steps. -/
theorem agentsWriteOnlyTheirOwn : Obligations.AgentsWriteOnlyTheirOwn := by
  refine fun s t => ⟨fun pick h => ?_, fun mask stay h => schedulerStep_frame h, ?_, fun w => rfl, fun h => ?_⟩
  · have hstream := executorStep_sameStreaming h
    obtain ⟨thresh, rotMap, rspTaken, rsp, port⟩ := (executorStep_case h).frame
    exact ⟨hstream.cfg, thresh, rotMap, hstream.q, hstream.out, hstream.schS, hstream.schR, hstream.schP,
      hstream.schPhase, hstream.schW, rspTaken, rsp, port⟩
  · rintro rfl
    exact engineStep_frame s
  · cases h
    rcases s.hostConsume_cases with ⟨-, h⟩ | h <;> rw [h]

/-- `t` has the configuration, the ROMs and everything that the executor writes, the command port apart, as in `s`. -/
structure State.SameExecutor (s t : State) : Prop where
  cfg      : t.cfg = s.cfg
  rotK     : t.rotK = s.rotK
  pb       : t.pb = s.pb
  sb       : t.sb = s.sb
  thresh   : t.thresh = s.thresh
  rotMap   : t.rotMap = s.rotMap
  exPhase  : t.exPhase = s.exPhase
  exHdr    : t.exHdr = s.exHdr
  exData   : t.exData = s.exData
  exCnt    : t.exCnt = s.exCnt
  exPend   : t.exPend = s.exPend
  exRsp    : t.exRsp = s.exRsp
  inflight : t.inflight = s.inflight
  lock     : t.lock = s.lock
  rsp      : t.rsp = s.rsp

@[refl] theorem State.SameExecutor.refl (s : State) : s.SameExecutor s :=
  ⟨rfl, rfl, rfl, rfl, rfl, rfl, rfl, rfl, rfl, rfl, rfl, rfl, rfl, rfl, rfl⟩

theorem State.hostConsume_sameExecutor (s : State) : s.SameExecutor s.hostConsume := by
  rcases s.hostConsume_cases with ⟨-, h⟩ | h <;> rw [h]
  exact ⟨rfl, rfl, rfl, rfl, rfl, rfl, rfl, rfl, rfl, rfl, rfl, rfl, rfl, rfl, rfl⟩

theorem schedulerStep_sameExecutor {mask : Word} {stay : Bool} (h : schedulerStep mask stay s = .next t) :
    s.SameExecutor t := by
  rw [(schedulerStep_frame h).2]
  exact ⟨rfl, rfl, rfl, rfl, rfl, rfl, rfl, rfl, rfl, rfl, rfl, rfl, rfl, rfl, rfl⟩

theorem engineStep_sameExecutor (s : State) : s.SameExecutor (engineStep s) := by
  rw [(engineStep_frame s).2]
  exact ⟨rfl, rfl, rfl, rfl, rfl, rfl, rfl, rfl, rfl, rfl, rfl, rfl, rfl, rfl, rfl⟩

/-- A move is an executor step, or it leaves what the executor owns alone and the command port too, unless it is a
host send (R56). -/
theorem moveStep_executor_cases {m : Move} (h : moveStep m s = .next t) :
    (isExecutorMove m = true ∧ s.ExecutorCase t) ∨
      (isExecutorMove m = false ∧ s.SameExecutor t ∧ (isHostSendMove m = false → t.port = s.port)) := by
  cases m with
  | host w =>
    cases h
    refine .inr ⟨rfl, ?_, fun hm => by cases hm⟩
    exact ⟨rfl, rfl, rfl, rfl, rfl, rfl, rfl, rfl, rfl, rfl, rfl, rfl, rfl, rfl, rfl⟩
  | consume =>
    cases h
    refine .inr ⟨rfl, s.hostConsume_sameExecutor, fun _ => ?_⟩
    rcases s.hostConsume_cases with ⟨-, h⟩ | h <;> rw [h]
  | executor pick => exact .inl ⟨rfl, executorStep_case h⟩
  | scheduler mask stay =>
    refine .inr ⟨rfl, schedulerStep_sameExecutor h, fun _ => ?_⟩
    rw [(schedulerStep_frame h).2]
  | engine =>
    cases h
    refine .inr ⟨rfl, engineStep_sameExecutor s, fun _ => ?_⟩
    rw [(engineStep_frame s).2]

end Sys2Proof.Machine

/-! Settles the statements about the invariant and about reset: every move keeps the invariant (the part about the word
stream is `StreamOk`, the rest is `WriteOk`), and from a state that holds it every move ends in a next state. The rules
of the slot events and of the scheduler's step, by phase, stand here for the later proofs too. -/

namespace Sys2Proof.Machine

variable {s t : State}

/-- A counter below its last value counts up by one. -/
theorem toNat_add_one {n : Nat} {x : BitVec n} (h : x.toNat + 1 < 2 ^ n) : (x + 1).toNat = x.toNat + 1 := by
  have hone : (1 : BitVec n).toNat = 1 := Nat.mod_eq_of_lt ((Nat.le_add_left 1 _).trans_lt h)
  rw [BitVec.toNat_add, hone, Nat.mod_eq_of_lt h]

/-! ## Reading the arrays after a slot event (R59) -/

/-- R59, begin: the record of the slot is (its value, its encoded word), and the slot leaves EX_PEND. -/
theorem State.beginWrite_spec (hs : s.Sized) {sl : Slot} (h : s.beginWrite sl = some t) :
    ∃ old new, s.sbAt sl = some old ∧ s.encoded sl = some new ∧
      (∀ x, t.inflightAt x = if sl = x then some { old := old, new := new } else s.inflightAt x) ∧
      (∀ x, x ∈ t.exPend ↔ x ∈ s.exPend ∧ x ≠ sl) ∧ t = { s with inflight := t.inflight, exPend := t.exPend } := by
  obtain ⟨old, new, hold, hnew, rfl⟩ := State.beginWrite_eq_some.1 h
  exact ⟨old, new, hold, hnew, State.inflightAt_set hs (State.shade_lt_of_sbAt hs hold) _, fun x => by simp, rfl⟩

/-- R59, end: the slot takes the new word of its record, and the record goes. -/
theorem State.endWrite_spec (hs : s.Sized) {sl : Slot} (h : s.endWrite sl = some t) :
    ∃ rec, s.inflightAt sl = some rec ∧ (∀ x, t.sbAt x = if sl = x then some rec.new else s.sbAt x) ∧
      (∀ x, t.inflightAt x = if sl = x then none else s.inflightAt x) ∧
      t = { s with sb := t.sb, inflight := t.inflight } := by
  obtain ⟨rec, hrec, rfl⟩ := State.endWrite_eq_some.1 h
  have hlt := State.shade_lt_of_inflight hs hrec
  exact ⟨rec, hrec, State.sbAt_set hs hlt _, State.inflightAt_set hs hlt _, rfl⟩

/-- Only a shade that exists has a lock to hold. -/
theorem State.lock_lt_of_lockHeld {h : Nat} (hh : s.lockHeld h = true) : h < s.lock.length := by
  by_contra hlt
  simp [State.lockHeld, List.getElem?_eq_none (Nat.le_of_not_lt hlt)] at hh

/-- With SHADE_LOCK every shade has a lock. -/
theorem State.Sized.length_lock (hs : s.Sized) (hlock : s.cfg.shadeLock = true) :
    s.lock.length = s.cfg.shadeCount := by
  obtain ⟨-, -, hlen⟩ := hs
  rw [hlen, if_pos hlock]

theorem State.inflightIn_eq_false (hs : s.Sized) {h : Nat} :
    s.inflightIn h = false ↔ ∀ sl : Slot, sl.shade = h → s.inflightAt sl = none := by
  have hiff : s.inflightIn h = true ↔ ∃ sl : Slot, sl.shade = h ∧ s.inflightAt sl ≠ none := by
    simp only [State.inflightIn, List.any_eq_true, State.mem_inflightSlots, Option.isSome_iff_ne_none, beq_iff_eq]
    refine exists_congr fun sl => ⟨fun ⟨⟨_, hsl⟩, hh⟩ => ⟨hh, hsl⟩, fun ⟨hh, hsl⟩ => ⟨⟨?_, hsl⟩, hh⟩⟩
    obtain ⟨rec, hrec⟩ := Option.ne_none_iff_exists'.1 hsl
    exact State.shade_lt_of_inflight hs hrec
  rw [← Bool.not_eq_true, hiff]
  push Not
  rfl

theorem State.pendingIn_eq_true {h : Nat} : s.pendingIn h = true ↔ ∃ sl ∈ s.exPend, sl.shade = h := by
  simp [State.pendingIn]

theorem State.pendingIn_eq_false {h : Nat} : s.pendingIn h = false ↔ ∀ sl ∈ s.exPend, sl.shade ≠ h := by
  simp [State.pendingIn]

/-! ## The executor's steps that are no slot event -/

/-- `t` has the configuration, the slots, the records and the locks of `s`. -/
structure State.SameStore (s t : State) : Prop where
  cfg      : t.cfg = s.cfg
  sb       : t.sb = s.sb
  inflight : t.inflight = s.inflight
  lock     : t.lock = s.lock

theorem State.SameExecutor.sameStore (h : s.SameExecutor t) : s.SameStore t := ⟨h.cfg, h.sb, h.inflight, h.lock⟩

theorem State.SameStore.inflightAt (h : s.SameStore t) (sl : Slot) : t.inflightAt sl = s.inflightAt sl := by
  rw [State.inflightAt, h.inflight, State.inflightAt]

theorem State.SameStore.sbAt (h : s.SameStore t) (sl : Slot) : t.sbAt sl = s.sbAt sl := by
  rw [State.sbAt, h.sb, State.sbAt]

theorem State.SameStore.lockHeld (h : s.SameStore t) (x : Nat) : t.lockHeld x = s.lockHeld x := by
  rw [State.lockHeld, h.lock, State.lockHeld]

theorem State.sendResponse_sameStore (s : State) : s.SameStore s.sendResponse := by
  rcases s.sendResponse_cases with ⟨-, h⟩ | ⟨w, -, h⟩ | ⟨w, w', ws, -, h⟩ <;> rw [h] <;> exact ⟨rfl, rfl, rfl, rfl⟩

/-- R59, R60: an executor step leaves the store and the locks alone, or is a slot event of RESPOND. -/
theorem State.ExecutorCase.store_cases (h : s.ExecutorCase t) :
    s.SameStore t ∨ (s.exPhase = .respond ∧ ∃ e ∈ s.slotEvents, s.runEvent e = some t) := by
  cases h with
  | waitHeader hphase hport => exact .inl ⟨rfl, rfl, rfl, rfl⟩
  | header hphase hport => exact .inl ⟨rfl, rfl, rfl, rfl⟩
  | waitBeat hphase hcnt hport => exact .inl ⟨rfl, rfl, rfl, rfl⟩
  | beat hphase hcnt hport => exact .inl ⟨rfl, rfl, rfl, rfl⟩
  | collected hphase hcnt => exact .inl ⟨rfl, rfl, rfl, rfl⟩
  | error hphase hstep => exact .inl ⟨rfl, rfl, rfl, rfl⟩
  | command hphase hstep => exact .inl ⟨rfl, rfl, rfl, rfl⟩
  | event hphase hmem hrun => exact .inr ⟨hphase, _, hmem, hrun⟩
  | response hphase hsettled => exact .inl s.sendResponse_sameStore
  | waitEvent hphase hevents hsettled => exact .inl ⟨rfl, rfl, rfl, rfl⟩

/-! ## What the slot events keep -/

/-- R59: a begin event records the slot's value, and an end event changes only the slot whose record goes. -/
theorem State.InflightOld.runEvent (ho : s.InflightOld) (hs : s.Sized) {e : SlotEvent}
    (hrun : s.runEvent e = some t) : t.InflightOld := by
  intro x rec hrec
  cases e with
  | acquire shade => cases hrun; exact ho x rec hrec
  | beginSlot sl =>
    obtain ⟨old, new, hold, -, hinf, -, ht⟩ := State.beginWrite_spec hs hrun
    have hsb : t.sbAt x = s.sbAt x := by rw [ht]; rfl
    rw [hinf] at hrec
    split at hrec
    · next hx =>
      cases hrec
      rw [hsb, ← hx, hold]
    · rw [hsb, ho x rec hrec]
  | endSlot sl =>
    obtain ⟨rec', -, hsb, hinf, -⟩ := State.endWrite_spec hs hrun
    rw [hinf] at hrec
    split at hrec
    · cases hrec
    · next hx => rw [hsb, if_neg hx, ho x rec hrec]
  | release shade => cases hrun; exact ho x rec hrec

/-- R60: a write begins only under its shade's lock, which is given back only when none is in flight. -/
theorem State.LockOk.runEvent (hl : s.LockOk) (hs : s.Sized) {e : SlotEvent} (hmem : e ∈ s.slotEvents)
    (hrun : s.runEvent e = some t) : t.LockOk := by
  have hmem := State.mem_slotEvents.1 hmem
  intro hlock x hx
  cases e with
  | acquire shade =>
    cases hrun
    obtain ⟨hlock, hlt, -, -⟩ := State.mem_acquirable.1 hmem
    rw [State.lockHeld_acquire]
    split
    · exact decide_eq_true (by rwa [hs.length_lock hlock])
    · exact hl hlock x hx
  | beginSlot sl =>
    obtain ⟨old, new, -, -, hinf, -, ht⟩ := State.beginWrite_spec hs hrun
    rw [ht] at hlock ⊢
    rw [hinf] at hx
    split at hx
    · next hsl => exact hsl ▸ (State.mem_beginnable.1 hmem).2 hlock
    · exact hl hlock x hx
  | endSlot sl =>
    obtain ⟨rec, -, -, hinf, ht⟩ := State.endWrite_spec hs hrun
    rw [ht] at hlock ⊢
    rw [hinf] at hx
    split at hx
    · cases hx
    · exact hl hlock x hx
  | release shade =>
    cases hrun
    obtain ⟨hlock, -, -, -, hnone⟩ := State.mem_releasable.1 hmem
    rw [State.lockHeld_release, if_neg]
    · exact hl hlock x hx
    · intro hsl
      have hx : (s.inflightAt x).isSome = true := hx
      rw [(State.inflightIn_eq_false hs).1 hnone x hsl.symm] at hx
      cases hx

theorem State.PendOk.runEvent (hp : s.PendOk) (hs : s.Sized) {e : SlotEvent} (hrun : s.runEvent e = some t) :
    t.PendOk := by
  obtain ⟨hnodup, hslots⟩ := hp
  cases e with
  | acquire shade => cases hrun; exact ⟨hnodup, hslots⟩
  | beginSlot sl =>
    obtain ⟨old, new, -, -, hinf, hmem, ht⟩ := State.beginWrite_spec hs hrun
    refine ⟨?_, fun x hx => ?_⟩
    · obtain ⟨-, -, -, -, rfl⟩ := State.beginWrite_eq_some.1 hrun
      exact hnodup.filter _
    · obtain ⟨hx, hne⟩ := (hmem x).1 hx
      rw [hinf, if_neg hne.symm, ht]
      exact hslots x hx
  | endSlot sl =>
    obtain ⟨rec, -, -, hinf, ht⟩ := State.endWrite_spec hs hrun
    rw [ht]
    refine ⟨hnodup, fun x hx => ⟨(hslots x hx).1, ?_⟩⟩
    rw [← ht, hinf]
    split
    · rfl
    · exact (hslots x hx).2
  | release shade => cases hrun; exact ⟨hnodup, hslots⟩

/-! ## What every executor step keeps -/

/-- R59, R170: EX_PEND is filled at APPLY, when no write is in flight. -/
theorem State.PendOk.executorCase (hp : s.PendOk) (hs : s.Sized) (he : s.ExecutorOk) (h : s.ExecutorCase t) :
    t.PendOk := by
  cases h with
  | waitHeader hphase hport => exact hp
  | header hphase hport => exact hp
  | waitBeat hphase hcnt hport => exact hp
  | beat hphase hcnt hport => exact hp
  | collected hphase hcnt => exact hp
  | error hphase hstep => exact hp
  | command hphase hstep =>
    obtain ⟨hsettled, -⟩ := he.quiet (by simp [hphase])
    obtain ⟨hnodup, hslots⟩ := State.writeSet_ok _ _
    exact ⟨hnodup, fun sl hsl => ⟨hslots sl hsl, State.inflightAt_of_settled hsettled sl⟩⟩
  | event hphase hmem hrun => exact hp.runEvent hs hrun
  | response hphase hsettled =>
    rcases s.sendResponse_cases with ⟨-, h⟩ | ⟨w, -, h⟩ | ⟨w, w', ws, -, h⟩ <;> rw [h] <;> exact hp
  | waitEvent hphase hevents hsettled => exact hp

theorem State.ExecutorOk.executorCase (he : s.ExecutorOk) (h : s.ExecutorCase t) : t.ExecutorOk := by
  obtain ⟨quiet, owing, collect, app, count⟩ := he
  cases h with
  | waitHeader hphase hport => exact ⟨quiet, owing, collect, app, count⟩
  | header hphase hport =>
    exact ⟨fun _ => quiet (by simp [hphase]), nofun, fun _ => Nat.zero_le _, nofun,
      Nat.zero_le _⟩
  | waitBeat hphase hcnt hport => exact ⟨quiet, owing, collect, app, count⟩
  | beat hphase hcnt hport =>
    have hcnt64 := hcnt.trans_le (beats_le _)
    have hadd : (s.exCnt + 1).toNat = s.exCnt.toNat + 1 := toNat_add_one (by omega)
    exact ⟨quiet, owing, fun _ => hadd ▸ hcnt, fun h => (by simp [hphase] at h), hadd ▸ hcnt64⟩
  | collected hphase hcnt =>
    exact ⟨fun _ => quiet (by simp [hphase]), nofun, nofun,
      fun _ => (collect hphase).antisymm hcnt, count⟩
  | error hphase hstep =>
    exact ⟨fun _ => quiet (by simp [hphase]), nofun, nofun, nofun, count⟩
  | command hphase hstep =>
    exact ⟨fun h => absurd rfl h, fun _ => by simp, nofun, nofun, count⟩
  | event hphase hmem hrun =>
    rw [State.runEvent_frame hrun]
    exact ⟨fun h => absurd hphase h, owing, fun h => (by simp [hphase] at h), fun h => (by simp [hphase] at h), count⟩
  | response hphase hsettled =>
    rcases s.sendResponse_cases with ⟨hnil, -⟩ | ⟨w, -, h⟩ | ⟨w, w', ws, -, h⟩
    · exact absurd hnil (owing hphase)
    · rw [h]
      exact ⟨fun _ => ⟨hsettled, rfl⟩, nofun, nofun, nofun, count⟩
    · rw [h]
      exact ⟨fun h => absurd hphase h, fun _ => by simp, fun h => (by simp [hphase] at h),
        fun h => (by simp [hphase] at h), count⟩
  | waitEvent hphase hevents hsettled => exact ⟨quiet, owing, collect, app, count⟩

/-! ## The part of the invariant about the shade store and the executor -/

/-- The part of the invariant about slot writes, locks and the executor's phases. -/
structure State.WriteOk (s : State) : Prop where
  romsBuilt   : s.RomsBuilt
  inflightOld : s.InflightOld
  locks       : s.LockOk
  pending     : s.PendOk
  executor    : s.ExecutorOk

theorem State.Inv.writeOk (h : s.Inv) : s.WriteOk :=
  ⟨h.romsBuilt, h.inflightOld, h.locks, h.pending, h.executor⟩

theorem State.SameStore.inflightOld (h : s.SameStore t) (ho : s.InflightOld) : t.InflightOld := by
  simpa only [State.InflightOld, h.inflightAt, h.sbAt] using ho

theorem State.SameStore.lockOk (h : s.SameStore t) (hl : s.LockOk) : t.LockOk := by
  simpa only [State.LockOk, h.cfg, h.inflightAt, h.lockHeld] using hl

theorem State.WriteOk.sameExecutor (hw : s.WriteOk) (h : s.SameExecutor t) : t.WriteOk where
  romsBuilt := by simpa only [State.RomsBuilt, h.cfg, h.thresh, h.rotMap] using hw.romsBuilt
  inflightOld := h.sameStore.inflightOld hw.inflightOld
  locks := h.sameStore.lockOk hw.locks
  pending := by simpa only [State.PendOk, h.cfg, h.exPend, h.sameStore.inflightAt] using hw.pending
  executor := by
    obtain ⟨quiet, owing, collect, app, count⟩ := hw.executor
    constructor <;> simpa only [State.settled, h.exPhase, h.exRsp, h.exPend, h.inflight, h.lock, h.exCnt, h.exHdr]

theorem State.WriteOk.executorCase (hw : s.WriteOk) (hs : s.Sized) (hcfg : t.cfg = s.cfg) (h : s.ExecutorCase t) :
    t.WriteOk where
  romsBuilt := by simpa only [State.RomsBuilt, hcfg, h.frame.thresh, h.frame.rotMap] using hw.romsBuilt
  inflightOld := by
    rcases h.store_cases with h | ⟨-, e, -, hrun⟩
    · exact h.inflightOld hw.inflightOld
    · exact hw.inflightOld.runEvent hs hrun
  locks := by
    rcases h.store_cases with h | ⟨-, e, hmem, hrun⟩
    · exact h.lockOk hw.locks
    · exact hw.locks.runEvent hs hmem hrun
  pending := hw.pending.executorCase hs hw.executor h
  executor := hw.executor.executorCase h

theorem State.WriteOk.moveStep {m : Move} (hw : s.WriteOk) (hs : s.Sized) (h : moveStep m s = .next t) : t.WriteOk := by
  rcases moveStep_executor_cases h with ⟨-, hcase⟩ | ⟨-, hsame, -⟩
  · exact hw.executorCase hs (cfg_of_moveStep h) hcase
  · exact hw.sameExecutor hsame

/-- R32: RSP only grows, and the host consumes no word that was not sent. -/
theorem State.HostOk.moveStep {m : Move} (hh : s.HostOk) (h : moveStep m s = .next t) : t.HostOk := by
  unfold State.HostOk at *
  cases m with
  | host w => cases h; exact hh
  | consume =>
    cases h
    rcases s.hostConsume_cases with ⟨hlt, h⟩ | h <;> rw [h]
    · exact hlt
    · exact hh
  | executor pick =>
    obtain ⟨-, -, htaken, ⟨ws, hrsp⟩, -⟩ := (executorStep_case h).frame
    rw [htaken, hrsp, List.length_append]
    omega
  | scheduler mask stay => rw [(schedulerStep_frame h).2]; exact hh
  | engine => cases h; rw [(engineStep_frame s).2]; exact hh

/-! ## Every move, step and run -/

theorem State.Inv.of_parts (hs : s.StreamOk) (hw : s.WriteOk) (hh : s.HostOk) : s.Inv :=
  { hs, hw with host := hh }

theorem State.Inv.moveStep {m : Move} (hi : s.Inv) (h : moveStep m s = .next t) : t.Inv :=
  .of_parts (hi.streamOk.moveStep h) (hi.writeOk.moveStep hi.sized h) (hi.host.moveStep h)

theorem State.Inv.runMoves {ms : List Move} (hi : s.Inv) (h : runMoves ms s = .next t) : t.Inv :=
  runMoves_induction (fun _ _ _ => State.Inv.moveStep) hi h

/-- The moves placed and drawn are no part of the invariant. -/
theorem State.Inv.afterDraw (hi : s.Inv) : s.afterDraw.Inv := by
  obtain ⟨admitted, sized, romsBuilt, oneHot, inflightOld, scheduler, queue, output, locks, pending,
    ⟨quiet, owing, collect, app, count⟩, host⟩ := hi
  unfold State.afterDraw
  split <;> exact ⟨admitted, sized, romsBuilt, oneHot, inflightOld, scheduler, queue, output, locks, pending,
    ⟨quiet, owing, collect, app, count⟩, host⟩

/-- Settles O22: a step is a move of the state after the draw, and every move keeps the invariant. -/
theorem stepKeepsInvariant : Obligations.StepKeepsInvariant := by
  intro s t hi h
  obtain ⟨-, hmove⟩ := step_eq_next h
  exact hi.afterDraw.moveStep hmove

/-! ## The scheduler's step, by phase -/

section
variable {mask : Word} {stay : Bool}

theorem schedulerStep_of_fetch (h : s.schPhase = .fetch) : schedulerStep mask stay s = s.fetchStep mask := by
  rw [schedulerStep, h]

theorem schedulerStep_of_emit (h : s.schPhase = .emit) : schedulerStep mask stay s = s.emitStep := by
  rw [schedulerStep, h]

theorem schedulerStep_of_gap (h : s.schPhase = .gap) : schedulerStep mask stay s = s.gapStep stay := by
  rw [schedulerStep, h]

theorem State.fetchStep_of_waiting (h : s.fetchEnabled = false) : s.fetchStep mask = .next s := by
  simp [State.fetchStep, h]

theorem State.fetchStep_of_some {w : Word} (h : s.fetchEnabled = true) (hread : s.readSb s.schSlot mask = some w) :
    s.fetchStep mask = .next { s with schW := w, schP := 0, schPhase := .emit } := by
  simp [State.fetchStep, h, hread]

theorem State.fetchStep_of_none (h : s.fetchEnabled = true) (hread : s.readSb s.schSlot mask = none) :
    s.fetchStep mask = .fault .noSuchSlot := by
  simp [State.fetchStep, h, hread]

theorem State.emitStep_of_full (h : s.cfg.queueDepth ≤ s.q.length) : s.emitStep = .next s := if_neg (Nat.not_lt.2 h)

theorem State.emitStep_of_room {m : Word} (h : s.q.length < s.cfg.queueDepth) (hm : s.passMaskAt s.schP = some m) :
    s.emitStep = .next (s.enqueue (s.schW ||| m)).advance := by
  simp [State.emitStep, h, hm]

theorem State.emitStep_of_noPass (h : s.q.length < s.cfg.queueDepth) (hm : s.passMaskAt s.schP = none) :
    s.emitStep = .fault .noSuchPass := by
  simp [State.emitStep, h, hm]

end

/-! ## No move stops the block -/

/-- R59: an enabled event is one of a slot that exists and, to end it, has a write in flight. -/
theorem State.Inv.exists_runEvent (hi : s.Inv) {e : SlotEvent} (hmem : e ∈ s.slotEvents) :
    ∃ t, s.runEvent e = some t := by
  have hmem := State.mem_slotEvents.1 hmem
  cases e with
  | acquire shade => exact ⟨_, rfl⟩
  | beginSlot sl =>
    obtain ⟨hlt, -⟩ := hi.pending.2 sl (State.mem_beginnable.1 hmem).1
    obtain ⟨old, hold⟩ := State.sbAt_of_lt hi.sized hlt
    obtain ⟨new, hnew⟩ := State.encoded_of_lt hi.romsBuilt hlt
    exact ⟨_, State.beginWrite_eq_some.2 ⟨old, new, hold, hnew, rfl⟩⟩
  | endSlot sl =>
    obtain ⟨rec, hrec⟩ := Option.isSome_iff_exists.1 (State.mem_inflightSlots.1 hmem).2
    exact ⟨_, State.endWrite_eq_some.2 ⟨rec, hrec, rfl⟩⟩
  | release shade => exact ⟨_, rfl⟩

theorem State.Inv.exists_executorStep (hi : s.Inv) (pick : Nat) : ∃ t, executorStep pick s = .next t := by
  unfold executorStep
  split
  · exact ⟨_, rfl⟩
  · exact ⟨_, rfl⟩
  · rcases s.applyStep_cases with ⟨c, -, h⟩ | ⟨i, pb, rotK, res, -, -, h⟩ <;> exact ⟨_, h⟩
  · unfold State.respondStep
    split
    · next e he =>
      obtain ⟨t, ht⟩ := hi.exists_runEvent (State.pick_mem he)
      exact ⟨t, by rw [ht]⟩
    · exact ⟨_, rfl⟩

/-- R27: the scheduler's slot exists and its pass has a mask. -/
theorem State.Inv.exists_schedulerStep (hi : s.Inv) (mask : Word) (stay : Bool) :
    ∃ t, schedulerStep mask stay s = .next t := by
  obtain ⟨hshade, hpass, -⟩ := hi.scheduler
  cases hphase : s.schPhase with
  | fetch =>
    rw [schedulerStep_of_fetch hphase]
    cases henabled : s.fetchEnabled with
    | false => exact ⟨_, State.fetchStep_of_waiting henabled⟩
    | true =>
      obtain ⟨v, hv⟩ := State.sbAt_of_lt (sl := s.schSlot) hi.sized hshade
      obtain ⟨w, hw⟩ := State.exists_readSb hv mask
      exact ⟨_, State.fetchStep_of_some henabled hw⟩
  | emit =>
    rw [schedulerStep_of_emit hphase]
    rcases Nat.lt_or_ge s.q.length s.cfg.queueDepth with hroom | hfull
    · exact ⟨_, State.emitStep_of_room hroom (dif_pos hpass)⟩
    · exact ⟨_, State.emitStep_of_full hfull⟩
  | gap => exact ⟨_, schedulerStep_of_gap hphase⟩

theorem State.Inv.exists_moveStep (hi : s.Inv) (m : Move) : ∃ t, Machine.moveStep m s = .next t := by
  cases m with
  | host w => exact ⟨_, rfl⟩
  | consume => exact ⟨_, rfl⟩
  | executor pick => exact hi.exists_executorStep pick
  | scheduler mask stay => exact hi.exists_schedulerStep mask stay
  | engine => exact ⟨_, rfl⟩

/-- Settles O23: an event is of a slot that exists, and so is the scheduler's slot. -/
theorem stepNeverStops : Obligations.StepNeverStops := by
  refine fun s hi => ⟨?_, hi.exists_moveStep⟩
  rw [step_of_admitted hi.admitted]
  exact hi.afterDraw.exists_moveStep _

/-! ## Reset -/

theorem State.inv_resetWith {c : Config} (hc : c.admitted = true) : (State.resetWith c).Inv where
  admitted := hc
  sized := State.sized_resetWith c
  romsBuilt := ⟨rfl, rfl⟩
  oneHot := State.storeOneHot_resetWith c
  inflightOld sl rec h := by rw [State.inflightAt_resetWith] at h; cases h
  scheduler := ⟨((Config.admitted_iff c).1 hc).1, Nat.zero_lt_succ 2, nofun⟩
  queue := ⟨Nat.zero_le _, fun w hw => by cases hw⟩
  output w hw := by cases hw
  locks _ sl h := by rw [State.inflightAt_resetWith] at h; cases h
  pending := ⟨List.nodup_nil, fun sl hsl => by cases hsl⟩
  executor := ⟨fun _ => ⟨State.settled_resetWith c, rfl⟩, nofun, nofun,
    nofun, Nat.zero_le _⟩
  host := Nat.le_refl 0

/-- Settles O20: each part of the invariant is read off `resetWith`. -/
theorem resetHoldsInvariant : Obligations.ResetHoldsInvariant :=
  ⟨fun _ => State.inv_resetWith, State.inv_resetWith (by decide)⟩

/-- Settles O21: the store after reset is the encoded one. -/
theorem resetStoreConsistent : Obligations.ResetStoreConsistent := fun c _ sl _ =>
  ⟨State.inflightAt_resetWith c sl, State.sbAt_resetWith c sl⟩

end Sys2Proof.Machine

/-! Settles the statements of R78, R80 and R83 to R86: the decoder and the encoder are inverse to each other, and what
the assembler makes of each line form. A header is known by its value, the sum of its fields. -/

namespace Sys2Proof

/-! ## Headers with an angle, and headers from their fields (R77, R86) -/

/-- R77: ANG is the upper half of a header. -/
theorem angField_toNat (hdr : Word) : (angField hdr).toNat = hdr.toNat / 65536 := by
  rw [angField, BitVec.extractLsb'_toNat, Nat.shiftRight_eq_div_pow]
  exact Nat.mod_eq_of_lt (by omega)

/-- R77, R86: OP and ANG are the two ends of a header with an angle. -/
theorem headerAngle_toNat {op : Word} {a : Nat} (hop : op.toNat < 16) (ha : a < 65536) :
    (headerAngle op a).toNat = 65536 * a + op.toNat := by
  have hA : (BitVec.ofNat 32 a <<< 16).toNat = a <<< 16 := by
    rw [BitVec.toNat_shiftLeft, BitVec.toNat_ofNat, Nat.shiftLeft_eq, Nat.shiftLeft_eq]
    omega
  rw [headerAngle, BitVec.toNat_or, hA, ← Nat.shiftLeft_add_eq_or_of_lt (b := op.toNat) (i := 16) (by omega),
    Nat.shiftLeft_eq]
  omega

/-- R77: a field of `n` bits at bit `k` is zero exactly when the header's value says so. -/
theorem extractLsb'_eq_zero_iff (hdr : Word) (k n : Nat) :
    hdr.extractLsb' k n = 0 ↔ hdr.toNat / 2 ^ k % 2 ^ n = 0 := by
  rw [← BitVec.toNat_inj, BitVec.extractLsb'_toNat, Nat.shiftRight_eq_div_pow]
  simp

/-- R77, format HXY: a header with no bit above Y is made of its OP, X and Y. -/
theorem headerXY_fields {hdr op : Word} (hop : op.toNat < 16) (hfield : hdr.toNat % 16 = op.toNat)
    (hhigh : hdr.extractLsb' 12 20 = 0) : headerXY op (xField hdr).toNat (yField hdr).toNat = hdr := by
  have hhigh := (extractLsb'_eq_zero_iff hdr 12 20).1 hhigh
  apply BitVec.eq_of_toNat_eq
  rw [headerXY_toNat hop (xField hdr).isLt (yField hdr).isLt, xField_toNat, yField_toNat]
  omega

/-- R77, format HA: a header with no bit between OP and ANG is made of these two. -/
theorem headerAngle_fields {hdr op : Word} (hop : op.toNat < 16) (hfield : hdr.toNat % 16 = op.toNat)
    (hmid : hdr.extractLsb' 4 12 = 0) : headerAngle op (angField hdr).toNat = hdr := by
  have hmid := (extractLsb'_eq_zero_iff hdr 4 12).1 hmid
  apply BitVec.eq_of_toNat_eq
  rw [headerAngle_toNat hop (angField hdr).isLt, angField_toNat]
  omega

end Sys2Proof

namespace Sys2Proof.Machine

/-! ## Decoding what was encoded -/

/-- R83, R84: a header that is no IllegalCommand decodes to the command of its OP. -/
theorem decodeCommand_eq_buildInstr {hdr : Word} (h : ¬ IllegalHeader hdr) (data : Vector Word 64) :
    decodeCommand hdr data = buildInstr hdr data := by
  cases hrow : opRow (opField hdr) with
  | none => exact absurd (illegalHeader_of_unassigned hrow) h
  | some row => exact decodeCommand_legal data hrow ((mask_iff_not_illegalHeader hrow).2 h)

/-- R77: no header with coordinates and OP 3 or 4 is an IllegalCommand. -/
theorem not_illegalHeader_headerXY {op : Word} {x y : Nat} (hop : op.toNat = 3 ∨ op.toNat = 4) (hx : x < 16)
    (hy : y < 16) : ¬ IllegalHeader (headerXY op x y) := by
  have hval := headerXY_toNat (op := op) (by omega) hx hy
  have hhigh := headerXY_high (op := op) (by omega) hx hy
  rintro (h | ⟨h, -⟩ | ⟨-, h⟩ | ⟨h, -⟩)
  · omega
  · omega
  · exact h hhigh
  · omega

/-- R77: no header with an angle and OP 5 or 6 is an IllegalCommand. -/
theorem not_illegalHeader_headerAngle {op : Word} {a : Nat} (hop : op.toNat = 5 ∨ op.toNat = 6) (ha : a < 65536) :
    ¬ IllegalHeader (headerAngle op a) := by
  have hval := headerAngle_toNat (op := op) (by omega) ha
  rintro (h | ⟨h, -⟩ | ⟨h, -⟩ | ⟨-, h⟩)
  · omega
  · omega
  · omega
  · rw [Ne, extractLsb'_eq_zero_iff] at h
    omega

theorem decodeCommand_getpixel (data : Vector Word 64) {x y : Nat} (hx : x < 16) (hy : y < 16) :
    decodeCommand (headerXY 0x4 x y) data = .ok (.getpixel x y) := by
  have hop : (0x4 : Word).toNat < 16 := by decide
  have hfield : opField (headerXY 0x4 x y) = 4 := opField_headerXY hop hx hy
  rw [decodeCommand_eq_buildInstr (not_illegalHeader_headerXY (.inr rfl) hx hy), buildInstr, hfield,
    xField_headerXY hop hx hy, yField_headerXY hop hx hy]
  rfl

section
variable {op : Word} {a : Nat} (hop : op.toNat < 16) (ha : a < 65536)
include hop ha

theorem opField_headerAngle : (opField (headerAngle op a)).toNat = op.toNat := by
  rw [opField_toNat, headerAngle_toNat hop ha]
  omega

theorem angField_headerAngle : (angField (headerAngle op a)).toNat = a := by
  rw [angField_toNat, headerAngle_toNat hop ha]
  omega

end

theorem decodeCommand_setrot (data : Vector Word 64) {a : Nat} (ha : a < 65536) :
    decodeCommand (headerAngle 0x5 a) data = .ok (.setrot a) := by
  have hop : (0x5 : Word).toNat < 16 := by decide
  rw [decodeCommand_eq_buildInstr (not_illegalHeader_headerAngle (.inl rfl) ha), buildInstr,
    opField_headerAngle hop ha, angField_headerAngle hop ha]
  rfl

theorem decodeCommand_setrotnr (data : Vector Word 64) {a : Nat} (ha : a < 65536) :
    decodeCommand (headerAngle 0x6 a) data = .ok (.setrotnr a) := by
  have hop : (0x6 : Word).toNat < 16 := by decide
  rw [decodeCommand_eq_buildInstr (not_illegalHeader_headerAngle (.inr rfl) ha), buildInstr,
    opField_headerAngle hop ha, angField_headerAngle hop ha]
  rfl

/-- R80, R86: the beats of an image are its pixels. -/
theorem imageOfBeats_pixelBeats (img : Image) : imageOfBeats (beatVector (img.toList.map pixelBeat)) = img := by
  refine Vector.ext fun j hj => ?_
  have hget := imageOfBeats_get (beatVector (img.toList.map pixelBeat)) ⟨j, hj⟩
  rw [beatVector_get] at hget
  simpa [Vector.get_eq_getElem, hj] using hget

/-- R79, R86: the words of a well-formed command are a header and as many beats as its OP asks for, and the decoder
reads the command from them. -/
theorem decodeCommand_encode {i : Instr} (h : i.wf = true) :
    ∃ hdr bs, encode i = hdr :: bs ∧ bs.length = beats (opField hdr) ∧
      decodeCommand hdr (beatVector bs) = .ok i := by
  cases i with
  | setpixels img =>
    refine ⟨_, _, rfl, by simp; decide, ?_⟩
    rw [decodeCommand_setpixels, imageOfBeats_pixelBeats]
  | getpixels => exact ⟨_, _, rfl, rfl, rfl⟩
  | setpixel x y c =>
    obtain ⟨hx, hy⟩ : x < 16 ∧ y < 16 := by simpa [Instr.wf] using h
    have hfield : opField (headerXY 0x3 x y) = 3 := opField_headerXY (by decide) hx hy
    refine ⟨_, _, rfl, by rw [hfield]; rfl, ?_⟩
    rw [decodeCommand_setpixel _ hx hy, beatVector_get]
    simp
  | getpixel x y =>
    obtain ⟨hx, hy⟩ : x < 16 ∧ y < 16 := by simpa [Instr.wf] using h
    have hfield : opField (headerXY 0x4 x y) = 4 := opField_headerXY (by decide) hx hy
    exact ⟨_, _, rfl, by rw [hfield]; rfl, decodeCommand_getpixel _ hx hy⟩
  | setrot a =>
    have ha : a < 65536 := of_decide_eq_true h
    have hfield : opField (headerAngle 0x5 a) = 5 := BitVec.eq_of_toNat_eq (opField_headerAngle (by decide) ha)
    exact ⟨_, _, rfl, by rw [hfield]; rfl, decodeCommand_setrot _ ha⟩
  | setrotnr a =>
    have ha : a < 65536 := of_decide_eq_true h
    have hfield : opField (headerAngle 0x6 a) = 6 := BitVec.eq_of_toNat_eq (opField_headerAngle (by decide) ha)
    exact ⟨_, _, rfl, by rw [hfield]; rfl, decodeCommand_setrotnr _ ha⟩
  | getrot => exact ⟨_, _, rfl, rfl, rfl⟩

/-- Settles O2: the header tells the length, and header and beats decode to the command. -/
theorem decodeOfEncode : Obligations.DecodeOfEncode := by
  intro i rest hwf
  obtain ⟨hdr, bs, henc, hlen, hdec⟩ := decodeCommand_encode hwf
  rw [henc, List.cons_append, decodeStream_cons hdr bs rest hlen, hdec]

/-! ## Encoding what was decoded -/

/-- R80, R86: the beats of the image of 64 beats are these with bits 31:24 cleared. -/
theorem toList_imageOfBeats (data : Vector Word 64) : (imageOfBeats data).toList = data.toList.map beatPixel := by
  refine List.ext_getElem (by simp) fun j hj hj' => ?_
  simpa [Vector.get_eq_getElem] using imageOfBeats_get data ⟨j, by simpa using hj⟩

theorem encode_setpixels_beats {hdr : Word} (data : Vector Word 64) (h : hdr = 0x00000001) :
    encode (.setpixels (imageOfBeats data)) =
      hdr :: (data.toList.take 64).map fun b => pixelBeat (beatPixel b) := by
  rw [h, encode, toList_imageOfBeats, List.map_map, List.take_of_length_le (by simp)]
  rfl

theorem encode_setpixel_beats {hdr : Word} {x y : Nat} (data : Vector Word 64) (h : headerXY 0x3 x y = hdr) :
    encode (.setpixel x y (beatPixel (data.get 0))) =
      hdr :: (data.toList.take 1).map fun b => pixelBeat (beatPixel b) := by
  have htake : data.toList.take 1 = [data.get 0] := by
    rw [List.take_one, List.head?_eq_getElem?]
    simp [Vector.get_eq_getElem]
  rw [encode, h, htake]
  rfl

/-- R77: a header that passes the mask of format H0 is its row's value. -/
theorem eq_of_maskH0 {hdr v : Word} (h : hdr &&& 0xFFFFFFFF = v) : hdr = v := by
  have hones : (0xFFFFFFFF : Word) = BitVec.allOnes 32 := rfl
  rwa [hones, BitVec.and_allOnes] at h

/-- R83: the fields of a header are in range whatever it holds. -/
theorem wf_coordinates (hdr : Word) :
    (decide ((xField hdr).toNat < 16) && decide ((yField hdr).toNat < 16)) = true := by
  simp [(xField hdr).isLt, (yField hdr).isLt]

theorem wf_angle (hdr : Word) : decide ((angField hdr).toNat < 65536) = true := decide_eq_true (angField hdr).isLt

/-- Settles O3: row by row of the opcode table, the header is made of its fields. -/
theorem encodeOfDecode : Obligations.EncodeOfDecode := by
  intro hdr data i hdec
  have hlegal : ¬ IllegalHeader hdr := fun hill => by
    obtain ⟨e, he⟩ := decodeCommand_of_illegalHeader hill data
    cases hdec.symm.trans he
  cases hrow : opRow (opField hdr) with
  | none => exact absurd (illegalHeader_of_unassigned hrow) hlegal
  | some row =>
    have hmask := (mask_iff_not_illegalHeader hrow).2 hlegal
    rw [decodeCommand_legal data hrow hmask, buildInstr] at hdec
    obtain ⟨hmem, hop⟩ := opRow_eq_some hrow
    have hfield : hdr.toNat % 16 = row.op.toNat := by rw [hop, opField_toNat]
    simp only [opRows, List.mem_cons, List.not_mem_nil, or_false] at hmem
    rw [← hop] at hdec ⊢
    rcases hmem with rfl | rfl | rfl | rfl | rfl | rfl | rfl <;> cases hdec
    · exact ⟨rfl, encode_setpixels_beats data (eq_of_maskH0 hmask)⟩
    · exact ⟨rfl, congrArg (· :: []) (eq_of_maskH0 hmask).symm⟩
    · exact ⟨wf_coordinates hdr, encode_setpixel_beats data (headerXY_fields (op := 0x3) (by decide) hfield
        ((maskHXY_iff hdr 3).1 hmask).2)⟩
    · exact ⟨wf_coordinates hdr, congrArg (· :: []) (headerXY_fields (op := 0x4) (by decide) hfield
        ((maskHXY_iff hdr 4).1 hmask).2)⟩
    · exact ⟨wf_angle hdr, congrArg (· :: []) (headerAngle_fields (op := 0x5) (by decide) hfield
        ((maskHA_iff hdr 5).1 hmask).2)⟩
    · exact ⟨wf_angle hdr, congrArg (· :: []) (headerAngle_fields (op := 0x6) (by decide) hfield
        ((maskHA_iff hdr 6).1 hmask).2)⟩
    · exact ⟨rfl, congrArg (· :: []) (eq_of_maskH0 hmask).symm⟩

end Sys2Proof.Machine

/-! Settles the statements of R78, R86, R125 and the rotation equivalence of R179: words of the spec, the assembler's
line forms, and which display rows a source cell is shown in. -/

namespace Sys2Proof.Machine

/-! ## The assembler (R86) -/

/-- R86: what the assembler accepts decodes to the line's command with nothing left; the rest it refuses. -/
theorem assembles_of_accepted_iff {line : AsmLine} {inRange : Prop} {ws : List Word}
    (haccepted : line.accepted = true ↔ inRange) (hwf : inRange → line.toInstr.wf = true)
    (henc : inRange → encode line.toInstr = ws) : Assembles line inRange ws line.toInstr := by
  refine ⟨fun h => ?_, fun h => ?_⟩
  · have hdec := decodeOfEncode line.toInstr [] (hwf h)
    rw [List.append_nil, henc h] at hdec
    rw [assembleLine, if_pos (haccepted.2 h), henc h]
    exact ⟨rfl, hdec⟩
  · rw [assembleLine, if_neg (mt haccepted.1 h)]

theorem ofNat_shiftLeft (a k : Nat) : BitVec.ofNat 32 (a <<< k) = BitVec.ofNat 32 a <<< k := by
  apply BitVec.eq_of_toNat_eq
  rw [BitVec.toNat_shiftLeft, BitVec.toNat_ofNat, BitVec.toNat_ofNat, Nat.shiftLeft_eq, Nat.shiftLeft_eq,
    Nat.mod_mul_mod]

/-- R86: a header word computed on the operands as numbers. -/
theorem ofNat_headerXY (x y op : Nat) :
    BitVec.ofNat 32 ((y <<< 8) ||| (x <<< 4) ||| op) = headerXY (BitVec.ofNat 32 op) x y := by
  rw [headerXY, BitVec.ofNat_or, BitVec.ofNat_or, ofNat_shiftLeft, ofNat_shiftLeft]

theorem ofNat_headerAngle (a op : Nat) :
    BitVec.ofNat 32 ((a <<< 16) ||| op) = headerAngle (BitVec.ofNat 32 op) a := by
  rw [headerAngle, BitVec.ofNat_or, ofNat_shiftLeft]

theorem colourOk_iff {c : Nat} : colourOk c = true ↔ c ≤ 0xFFFFFF := by
  rw [colourOk, decide_eq_true_iff]
  omega

theorem wf_getpixel_iff {x y : Nat} : (Instr.getpixel x y).wf = true ↔ x ≤ 15 ∧ y ≤ 15 := by
  simp only [Instr.wf, Bool.and_eq_true, decide_eq_true_eq]
  omega

theorem wf_setpixel_iff {x y : Nat} {c : Pixel} : (Instr.setpixel x y c).wf = true ↔ x ≤ 15 ∧ y ≤ 15 :=
  wf_getpixel_iff (x := x) (y := y)

theorem wf_setrot_iff {a : Nat} : (Instr.setrot a).wf = true ↔ a ≤ 65535 := by
  simp only [Instr.wf, decide_eq_true_eq]
  omega

theorem wf_setrotnr_iff {a : Nat} : (Instr.setrotnr a).wf = true ↔ a ≤ 65535 := wf_setrot_iff (a := a)

/-- Settles O7: for each line form its check, and the words as the encoder forms them. -/
theorem assemblerAcceptsAndEncodes : Obligations.AssemblerAcceptsAndEncodes := by
  refine ⟨fun cs => ?_, ?_, fun x y c => ?_, fun x y => ?_, fun a => ?_, fun a => ?_, ?_⟩
  · refine assembles_of_accepted_iff (line := .setpixels cs) ?_ (fun _ => rfl) fun ⟨hlen, hcs⟩ => ?_
    · simp only [AsmLine.accepted, Bool.and_eq_true, decide_eq_true_eq, List.all_eq_true, colourOk_iff]
    · exact encode_imageOfColours hlen fun c hc => Nat.lt_succ_of_le (hcs c hc)
  · exact assembles_of_accepted_iff (line := .getpixels) (by simp [AsmLine.accepted]) (fun _ => rfl) fun _ => rfl
  · refine assembles_of_accepted_iff (line := .setpixel x y c) ?_ (fun ⟨hx, hy, _⟩ => wf_setpixel_iff.2 ⟨hx, hy⟩)
      fun ⟨_, _, hc⟩ => ?_
    · simp only [AsmLine.accepted, Bool.and_eq_true, wf_setpixel_iff, colourOk_iff, and_assoc]
    · rw [ofNat_headerXY, ← pixelBeat_ofNat (Nat.lt_succ_of_le hc)]
      rfl
  · rw [ofNat_headerXY]
    exact assembles_of_accepted_iff (line := .getpixel x y) wf_getpixel_iff wf_getpixel_iff.2 fun _ => rfl
  · rw [ofNat_headerAngle]
    exact assembles_of_accepted_iff (line := .setrot a) wf_setrot_iff wf_setrot_iff.2 fun _ => rfl
  · rw [ofNat_headerAngle]
    exact assembles_of_accepted_iff (line := .setrotnr a) wf_setrotnr_iff wf_setrotnr_iff.2 fun _ => rfl
  · exact assembles_of_accepted_iff (line := .getrot) (by simp [AsmLine.accepted]) (fun _ => rfl) fun _ => rfl

/-- Settles O1: each word of the spec, run through the decoder. -/
theorem specWordsDecode : Obligations.SpecWordsDecode := by
  refine ⟨?_, ?_, ?_, ?_, ?_, ?_, ?_, ?_⟩ <;> decide

/-! ## Which display cells an encoded row reads (R121, R125) -/

/-- R121: an encoded row is told by the eight pixels it shows. -/
theorem encodeRow_congr {img img' : Image} {page page' : RotPage} {r : Fin 8} (t : Chan)
    (h : ∀ c, shownPixel img page (cell r c) = shownPixel img' page' (cell r c)) :
    encodeRow img page t r = encodeRow img' page' t r := by
  have hlane (colour : Pixel → Chan) : laneOutput img page t r colour = laneOutput img' page' t r colour :=
    funext fun c => by rw [laneOutput, laneOutput, h]
  simp only [encodeRow_eq_packRow, hlane]

/-- R124, R125: the row encodePixel rebuilds is that of the display cell of the source cell. -/
theorem pixelRow_rotationMap (k : Fin 4) (x y : Fin 8) :
    pixelRow (buildRotationMaps.get k) x y = (displayCell k y x).1 := by
  rw [pixelRow, sourceCell_rotationMap]
  fin_cases k <;> simp [displayCell]

/-- R107: a source cell is shown at its display cell only. -/
theorem row_eq_of_sourceCell {k : Fin 4} {y x r c : Fin 8}
    (h : sourceCell ((buildRotationMaps.get k).get (cell r c)) = cell y x) :
    r = pixelRow (buildRotationMaps.get k) x y := by
  have hcell : (r, c) = displayCell k y x := (rotationInverseMaps k y x r c).1 (congrArg Fin.val h)
  rw [pixelRow_rotationMap, ← hcell]

/-- R125: changing a source cell changes no display cell of another row. -/
theorem shownPixel_set_of_ne {k : Fin 4} {img : Image} {y x r : Fin 8} {p : Pixel}
    (h : r ≠ pixelRow (buildRotationMaps.get k) x y) (c : Fin 8) :
    shownPixel (img.set (cell y x) p) (buildRotationMaps.get k) (cell r c) =
      shownPixel img (buildRotationMaps.get k) (cell r c) := by
  have hne : (cell y x).val ≠ (sourceCell ((buildRotationMaps.get k).get (cell r c))).val := fun heq =>
    h (row_eq_of_sourceCell (Fin.ext heq.symm))
  exact Vector.getElem_set_ne _ _ hne

/-- Settles O14: a row that does not show the source cell shows the same pixels after the change. -/
theorem encodePixelRowShowsCell : Obligations.EncodePixelRowShowsCell := by
  refine ⟨fun k y x => pixelRow_rotationMap k x y, fun s y x sl hrom hrow c => ?_⟩
  rw [State.page, hrom] at hrow
  have hrows (t : Chan) := encodeRow_congr t (shownPixel_set_of_ne (img := s.pb) (p := c) hrow)
  simp only [State.encoded, State.threshAt, State.page, State.setPixelAt, hrom, hrows]

/-- R179: page 1 of an image shows what page 0 shows of the permuted one. -/
theorem encodeRow_rotated {img img' : Image} (t : Chan) (r : Fin 8)
    (h : ∀ d : Fin 64, img'.get d = img.get (sourceCell ((buildRotationMaps.get 1).get d))) :
    encodeRow img (buildRotationMaps.get 1) t r = encodeRow img' (buildRotationMaps.get 0) t r := by
  refine encodeRow_congr t fun c => ?_
  have hpage0 : sourceCell ((buildRotationMaps.get 0).get (cell r c)) = cell r c := sourceCell_rotationMap 0 _
  rw [shownPixel, shownPixel, hpage0, h]

/-- Settles O17: the permuted image by its entries. -/
theorem rotationEquivalence : Obligations.RotationEquivalence := fun _ t r =>
  encodeRow_rotated t r fun _ => by simp [Vector.get_eq_getElem]

end Sys2Proof.Machine

/-! Settles the statements of R127 and R170 to R178 about one command. The outcome of a state is what the host's view,
RSP and the shade store are once the slot writes and responses it owes are over; every move keeps it, APPLY apart. -/

namespace Sys2Proof.Machine

variable {s t : State}

/-! ## The outcome of a state and of a command -/

/-- The host's view, RSP and the value of every slot. -/
structure Outcome where
  view  : View
  rsp   : List Word
  store : Slot → Option Word

/-- The value a slot has once the writes that the state owes are over (R59). -/
def State.target (s : State) (sl : Slot) : Option Word :=
  if sl ∈ s.exPend then s.encoded sl
  else
    match s.inflightAt sl with
    | some rec => some rec.new
    | none => s.sbAt sl

/-- What the state comes to once the slot writes and response words it owes are over. -/
def State.outcome (s : State) : Outcome := { view := s.view, rsp := s.rsp ++ s.exRsp, store := s.target }

/-- The block of a configuration with the ROMs of construction (R231) and a given view. -/
def View.block (c : Config) (v : View) : State := { State.resetWith c with rotK := v.rotK, pb := v.pb }

/-- A command on an outcome: its view and responses, and its write set encoded anew (R172–R178). -/
def Outcome.run (c : Config) (o : Outcome) (i : Instr) : Outcome where
  view := (o.view.run i).1
  rsp := o.rsp ++ (o.view.run i).2
  store sl := if sl ∈ (o.view.block c).writeSet i then ((o.view.run i).1.block c).encoded sl else o.store sl

/-- What APPLY makes of an outcome; an IllegalCommand only answers its code (R204, R205). -/
def Outcome.answer (c : Config) (o : Outcome) : Except DecodeError Instr → Outcome
  | .ok i => o.run c i
  | .error _ => { o with rsp := o.rsp ++ [statusWord .illegalCommand] }

/-- The outcome once the command in APPLY, if there is one, is over too. -/
def State.result (s : State) : Outcome :=
  if s.exPhase = .apply then s.outcome.answer s.cfg (decodeCommand s.exHdr s.exData) else s.outcome

theorem State.result_of_apply (h : s.exPhase = .apply) :
    s.result = s.outcome.answer s.cfg (decodeCommand s.exHdr s.exData) := if_pos h

theorem State.result_of_ne_apply (h : s.exPhase ≠ .apply) : s.result = s.outcome := if_neg h

theorem State.encoded_block (hr : s.RomsBuilt) (sl : Slot) : (s.view.block s.cfg).encoded sl = s.encoded sl := by
  obtain ⟨hthresh, hrot⟩ := hr
  simp only [State.encoded, State.threshAt, State.page, hthresh, hrot]
  rfl

theorem State.writeSet_block (hr : s.RomsBuilt) (i : Instr) : (s.view.block s.cfg).writeSet i = s.writeSet i := by
  obtain ⟨-, hrot⟩ := hr
  cases i with
  | setpixel x y c => simp only [State.writeSet, State.page, hrot]; rfl
  | setpixels img => rfl
  | getpixels => rfl
  | getpixel x y => rfl
  | setrot a => rfl
  | setrotnr a => rfl
  | getrot => rfl

/-! ## The target of a slot -/

theorem State.target_of_mem {sl : Slot} (h : sl ∈ s.exPend) : s.target sl = s.encoded sl := if_pos h

theorem State.target_of_inflight {sl : Slot} {rec : WriteRecord} (hp : sl ∉ s.exPend)
    (h : s.inflightAt sl = some rec) : s.target sl = some rec.new := by
  rw [State.target, if_neg hp, h]

theorem State.target_of_none {sl : Slot} (hp : sl ∉ s.exPend) (h : s.inflightAt sl = none) :
    s.target sl = s.sbAt sl := by
  rw [State.target, if_neg hp, h]

/-- A state that owes nothing is its own outcome. -/
theorem State.outcome_of_quiet (hsettled : s.settled = true) (hrsp : s.exRsp = []) :
    s.outcome = { view := s.view, rsp := s.rsp, store := s.sbAt } := by
  have hpend := (State.settled_iff.1 hsettled).1
  have htarget : s.target = s.sbAt := funext fun sl =>
    State.target_of_none (by simp [hpend]) (State.inflightAt_of_settled hsettled sl)
  rw [State.outcome, hrsp, List.append_nil, htarget]

theorem State.Inv.outcome_of_ne_respond (hi : s.Inv) (h : s.exPhase ≠ .respond) :
    s.outcome = { view := s.view, rsp := s.rsp, store := s.sbAt } := by
  obtain ⟨hsettled, hrsp⟩ := hi.executor.quiet h
  exact State.outcome_of_quiet hsettled hrsp

/-! ## The slot events keep every target -/

theorem State.target_beginWrite (hs : s.Sized) {sl : Slot} (hmem : sl ∈ s.exPend) (h : s.beginWrite sl = some t) :
    t.target = s.target := by
  obtain ⟨old, new, -, hnew, hinf, hpend, ht⟩ := State.beginWrite_spec hs h
  have henc (x : Slot) : t.encoded x = s.encoded x := by rw [ht]; rfl
  have hsb (x : Slot) : t.sbAt x = s.sbAt x := by rw [ht]; rfl
  funext x
  by_cases hx : sl = x
  · subst hx
    rw [State.target_of_mem hmem, State.target_of_inflight (by simp [hpend]) ((hinf sl).trans (if_pos rfl)), hnew]
  · simp only [State.target, hpend, hinf, if_neg hx, henc, hsb, and_iff_left (Ne.symm hx)]

theorem State.target_endWrite (hs : s.Sized) (hp : s.PendOk) {sl : Slot} (h : s.endWrite sl = some t) :
    t.target = s.target := by
  obtain ⟨rec, hrec, hsb, hinf, ht⟩ := State.endWrite_spec hs h
  have hpend : t.exPend = s.exPend := by rw [ht]
  have henc (x : Slot) : t.encoded x = s.encoded x := by rw [ht]; rfl
  have hnot : sl ∉ s.exPend := fun hmem => by
    have hnone := (hp.2 sl hmem).2
    rw [hrec] at hnone
    cases hnone
  funext x
  by_cases hx : sl = x
  · subst hx
    rw [State.target_of_inflight hnot hrec, State.target_of_none (hpend ▸ hnot) ((hinf sl).trans (if_pos rfl)), hsb,
      if_pos rfl]
  · simp only [State.target, hpend, hinf, hsb, if_neg hx, henc]

theorem State.Inv.outcome_runEvent (hi : s.Inv) {e : SlotEvent} (hmem : e ∈ s.slotEvents)
    (hrun : s.runEvent e = some t) : t.outcome = s.outcome := by
  have htarget : t.target = s.target := by
    have hmem := State.mem_slotEvents.1 hmem
    cases e with
    | acquire shade => cases hrun; rfl
    | beginSlot sl => exact State.target_beginWrite hi.sized (State.mem_beginnable.1 hmem).1 hrun
    | endSlot sl => exact State.target_endWrite hi.sized hi.pending hrun
    | release shade => cases hrun; rfl
  rw [State.outcome, htarget, State.runEvent_frame hrun]
  rfl

/-! ## exec and the host's view, by command and by what its operands are -/

section
variable (s : State)

theorem exec_setpixel_of_lt (x y : Fin 8) (c : Pixel) : exec (.setpixel x.val y.val c) s =
    .next ((s.setPixelAt (cell y x) c).finishApply (s.pixelWriteSet x y) []) := by
  simp only [exec, execSetpixel, coord_of_lt x.isLt, coord_of_lt y.isLt]

theorem exec_setpixel_of_ge {x y : Nat} (c : Pixel) (h : 8 ≤ x ∨ 8 ≤ y) :
    exec (.setpixel x y c) s = .next (s.raiseError .boundsError) := by
  rcases h with h | h
  · simp only [exec, execSetpixel, coord_of_ge h]
  · cases hx : coord x <;> simp only [exec, execSetpixel, coord_of_ge h, hx]

theorem exec_getpixel_of_lt (x y : Fin 8) : exec (.getpixel x.val y.val) s =
    .next (s.finishApply [] [pixelResult (s.pbAt (cell y x))]) := by
  simp only [exec, execGetpixel, coord_of_lt x.isLt, coord_of_lt y.isLt]

theorem exec_getpixel_of_ge {x y : Nat} (h : 8 ≤ x ∨ 8 ≤ y) :
    exec (.getpixel x y) s = .next (s.raiseError .boundsError) := by
  rcases h with h | h
  · simp only [exec, execGetpixel, coord_of_ge h]
  · cases hx : coord x <;> simp only [exec, execGetpixel, coord_of_ge h, hx]

theorem exec_setrot_of_some {a : Nat} {k : BitVec 2} (h : anglePage a = some k) :
    exec (.setrot a) s = .next ({ s with rotK := k }.finishApply s.fullWriteSet []) := by
  simp only [exec, execSetrot, State.setRotation, h]
  rfl

theorem exec_setrotnr_of_some {a : Nat} {k : BitVec 2} (h : anglePage a = some k) :
    exec (.setrotnr a) s = .next ({ s with rotK := k }.finishApply [] []) := by
  simp only [exec, execSetrotnr, State.setRotation, h]
  rfl

theorem exec_rotation_of_none {a : Nat} (h : anglePage a = none) :
    exec (.setrot a) s = .next (s.raiseError .invalidRotation) ∧
      exec (.setrotnr a) s = .next (s.raiseError .invalidRotation) := by
  simp only [exec, execSetrot, execSetrotnr, State.setRotation, h, and_self]

end

section
variable (v : View)

theorem View.run_setpixel (x y : Fin 8) (c : Pixel) :
    v.run (.setpixel x.val y.val c) = ({ v with pb := v.pb.set (cell y x) c }, [statusWord .ok]) := by
  simp only [View.run, coord_of_lt x.isLt, coord_of_lt y.isLt]

theorem View.run_getpixel (x y : Fin 8) :
    v.run (.getpixel x.val y.val) = (v, [statusWord .ok, pixelResult (v.pb.get (cell y x))]) := by
  simp only [View.run, coord_of_lt x.isLt, coord_of_lt y.isLt]

theorem View.run_setpixel_of_ge {x y : Nat} (c : Pixel) (h : 8 ≤ x ∨ 8 ≤ y) :
    v.run (.setpixel x y c) = (v, [statusWord .boundsError]) := by
  rcases h with h | h
  · simp only [View.run, coord_of_ge h]
  · cases hx : coord x <;> simp only [View.run, coord_of_ge h, hx]

theorem View.run_getpixel_of_ge {x y : Nat} (h : 8 ≤ x ∨ 8 ≤ y) :
    v.run (.getpixel x y) = (v, [statusWord .boundsError]) := by
  rcases h with h | h
  · simp only [View.run, coord_of_ge h]
  · cases hx : coord x <;> simp only [View.run, coord_of_ge h, hx]

theorem View.run_rotation_of_some {a : Nat} {k : BitVec 2} (h : anglePage a = some k) :
    v.run (.setrot a) = ({ v with rotK := k }, [statusWord .ok]) ∧
      v.run (.setrotnr a) = ({ v with rotK := k }, [statusWord .ok]) := by
  simp only [View.run, h, and_self]

theorem View.run_rotation_of_none {a : Nat} (h : anglePage a = none) :
    v.run (.setrot a) = (v, [statusWord .invalidRotation]) ∧
      v.run (.setrotnr a) = (v, [statusWord .invalidRotation]) := by
  simp only [View.run, h, and_self]

end

theorem State.writeSet_setpixel (s : State) (x y : Fin 8) (c : Pixel) :
    s.writeSet (.setpixel x.val y.val c) = s.pixelWriteSet x y := by
  simp only [State.writeSet, State.pixelWriteSet, coord_of_lt x.isLt, coord_of_lt y.isLt]

theorem State.writeSet_setpixel_of_ge (s : State) {x y : Nat} (c : Pixel) (h : 8 ≤ x ∨ 8 ≤ y) :
    s.writeSet (.setpixel x y c) = [] := by
  rcases h with h | h
  · simp only [State.writeSet, coord_of_ge h]
  · cases hx : coord x <;> simp only [State.writeSet, coord_of_ge h, hx]

theorem State.writeSet_setrot_of_some (s : State) {a : Nat} {k : BitVec 2} (h : anglePage a = some k) :
    s.writeSet (.setrot a) = s.fullWriteSet := by
  rw [State.writeSet, h]
  rfl

theorem State.writeSet_setrot_of_none (s : State) {a : Nat} (h : anglePage a = none) : s.writeSet (.setrot a) = [] := by
  rw [State.writeSet, h]
  rfl

/-- R54, R203: two coordinates name a cell, or one of them is out of range. -/
theorem coords_cases (x y : Nat) : (∃ col row : Fin 8, x = col.val ∧ y = row.val) ∨ 8 ≤ x ∨ 8 ≤ y := by
  by_cases h : 8 ≤ x ∨ 8 ≤ y
  · exact .inr h
  · exact .inl ⟨⟨x, by omega⟩, ⟨y, by omega⟩, rfl, rfl⟩

/-! ## APPLY -/

/-- R171–R178: what exec does to the view, the slots to write and the words owed is the command's rule. -/
theorem exec_view_cases (i : Instr) (s : State) :
    (∃ c, exec i s = .next (s.raiseError c) ∧ s.view.run i = (s.view, [statusWord c]) ∧ s.writeSet i = []) ∨
      ∃ v res, exec i s = .next ({ s with rotK := v.rotK, pb := v.pb }.finishApply (s.writeSet i) res) ∧
        s.view.run i = (v, statusWord .ok :: res) := by
  cases i with
  | setpixels img => exact .inr ⟨{ s.view with pb := img }, [], rfl, rfl⟩
  | getpixels => exact .inr ⟨s.view, _, rfl, rfl⟩
  | setpixel x y c =>
    rcases coords_cases x y with ⟨col, row, rfl, rfl⟩ | hge
    · refine .inr ⟨_, [], ?_, s.view.run_setpixel col row c⟩
      rw [State.writeSet_setpixel]
      exact exec_setpixel_of_lt s col row c
    · exact .inl ⟨.boundsError, exec_setpixel_of_ge s c hge, s.view.run_setpixel_of_ge c hge,
        s.writeSet_setpixel_of_ge c hge⟩
  | getpixel x y =>
    rcases coords_cases x y with ⟨col, row, rfl, rfl⟩ | hge
    · exact .inr ⟨s.view, _, exec_getpixel_of_lt s col row, s.view.run_getpixel col row⟩
    · exact .inl ⟨.boundsError, exec_getpixel_of_ge s hge, s.view.run_getpixel_of_ge hge, rfl⟩
  | setrot a =>
    cases ha : anglePage a with
    | none =>
      exact .inl ⟨.invalidRotation, (exec_rotation_of_none s ha).1, (s.view.run_rotation_of_none ha).1,
        s.writeSet_setrot_of_none ha⟩
    | some k =>
      refine .inr ⟨_, [], ?_, (s.view.run_rotation_of_some ha).1⟩
      rw [State.writeSet_setrot_of_some s ha]
      exact exec_setrot_of_some s ha
  | setrotnr a =>
    cases ha : anglePage a with
    | none => exact .inl ⟨.invalidRotation, (exec_rotation_of_none s ha).2, (s.view.run_rotation_of_none ha).2, rfl⟩
    | some k => exact .inr ⟨_, [], exec_setrotnr_of_some s ha, (s.view.run_rotation_of_some ha).2⟩
  | getrot => exact .inr ⟨s.view, _, rfl, rfl⟩

/-- R205: an error adds its status word to the outcome and nothing else. -/
theorem State.outcome_raiseError (hrsp : s.exRsp = []) (c : Code) :
    (s.raiseError c).outcome = { s.outcome with rsp := s.outcome.rsp ++ [statusWord c] } := by
  simp only [State.outcome, State.raiseError_rsp, State.raiseError_exRsp, hrsp, List.append_nil]
  rfl

/-- R170: after APPLY a slot goes to its encoded word if it is to be written, and else stays. -/
theorem State.target_finishApply (hsettled : s.settled = true) (pend : List Slot) (res : List Word) (sl : Slot) :
    (s.finishApply pend res).target sl = if sl ∈ pend then s.encoded sl else s.sbAt sl := by
  have hnone := State.inflightAt_of_settled hsettled sl
  by_cases hsl : sl ∈ pend
  · exact (State.target_of_mem (s := s.finishApply pend res) hsl).trans (if_pos hsl).symm
  · exact (State.target_of_none (s := s.finishApply pend res) hsl hnone).trans (if_neg hsl).symm

/-- R170: after APPLY of a command the outcome is the command's. -/
theorem State.Inv.outcome_exec (hi : s.Inv) (hphase : s.exPhase = .apply) {i : Instr} (h : exec i s = .next t) :
    t.outcome = s.outcome.run s.cfg i := by
  obtain ⟨hsettled, hrsp⟩ := hi.executor.quiet (by simp [hphase])
  have hout := State.outcome_of_quiet hsettled hrsp
  have hset := State.writeSet_block hi.romsBuilt i
  rcases exec_view_cases i s with ⟨c, hexec, hview, hnone⟩ | ⟨v, res, hexec, hview⟩ <;> cases hexec.symm.trans h
  · rw [State.outcome_raiseError hrsp, hout]
    simp [Outcome.run, hview, hset, hnone]
  · have hstore := State.target_finishApply (s := { s with rotK := v.rotK, pb := v.pb }) hsettled (s.writeSet i) res
    have henc := State.encoded_block (s := { s with rotK := v.rotK, pb := v.pb }) hi.romsBuilt
    rw [hout, State.outcome, funext hstore]
    simp only [← henc, Outcome.run, hview, hset]
    rfl

theorem State.Inv.outcome_applyStep (hi : s.Inv) (hphase : s.exPhase = .apply) (h : s.applyStep = .next t) :
    t.outcome = s.outcome.answer s.cfg (decodeCommand s.exHdr s.exData) := by
  cases hdec : decodeCommand s.exHdr s.exData with
  | error e =>
    cases (State.applyStep_of_error hdec).symm.trans h
    exact State.outcome_raiseError (hi.executor.quiet (by simp [hphase])).2 _
  | ok i => exact hi.outcome_exec hphase ((State.applyStep_of_ok hdec).symm.trans h)

/-! ## What a move does to the result -/

theorem State.SameExecutor.outcome (h : s.SameExecutor t) : t.outcome = s.outcome := by
  have htarget : t.target = s.target := funext fun sl => by
    simp only [State.target, State.encoded, State.threshAt, State.page, h.exPend, h.sameStore.inflightAt,
      h.sameStore.sbAt, h.thresh, h.rotMap, h.rotK, h.pb]
  simp only [State.outcome, State.view, htarget, h.rotK, h.pb, h.rsp, h.exRsp]

theorem State.SameExecutor.result (h : s.SameExecutor t) : t.result = s.result := by
  simp only [State.result, h.exPhase, h.outcome, h.cfg, h.exHdr, h.exData]

theorem State.outcome_sendResponse (s : State) : s.sendResponse.outcome = s.outcome := by
  rcases s.sendResponse_cases with ⟨hrsp, h⟩ | ⟨w, hrsp, h⟩ | ⟨w, w', ws, hrsp, h⟩ <;>
    simp only [h, State.outcome, hrsp, List.append_assoc] <;> rfl

/-- Outside APPLY an executor step only brings the state nearer to its outcome. -/
theorem State.Inv.outcome_executorCase (hi : s.Inv) (hphase : s.exPhase ≠ .apply) (h : s.ExecutorCase t) :
    t.outcome = s.outcome := by
  cases h with
  | waitHeader _ hport => rfl
  | header _ hport => rfl
  | waitBeat _ hcnt hport => rfl
  | beat _ hcnt hport => rfl
  | collected _ hcnt => rfl
  | error happly hstep => exact absurd happly hphase
  | command happly hstep => exact absurd happly hphase
  | event _ hmem hrun => exact hi.outcome_runEvent hmem hrun
  | response _ hsettled => exact s.outcome_sendResponse
  | waitEvent _ hevents hsettled => rfl

/-- R170: where an executor step leads from APPLY and from RESPOND, and only from COLLECT does it lead to APPLY. -/
theorem State.ExecutorCase.phase (h : s.ExecutorCase t) :
    (s.exPhase = .apply ∨ s.exPhase = .respond → t.exPhase = .respond ∨ t.exPhase = .idle) ∧
      (s.exPhase ≠ .collect → t.exPhase ≠ .apply) := by
  cases h with
  | waitHeader hphase hport => simp [hphase]
  | header hphase hport => simp [hphase]
  | waitBeat hphase hcnt hport => simp [hphase]
  | beat hphase hcnt hport => simp [hphase]
  | collected hphase hcnt => simp [hphase]
  | error hphase hstep => simp
  | command hphase hstep => simp
  | event hphase hmem hrun => rw [State.runEvent_frame hrun]; simp [hphase]
  | response hphase hsettled =>
    rcases s.sendResponse_cases with ⟨-, h⟩ | ⟨w, -, h⟩ | ⟨w, w', ws, -, h⟩ <;> rw [h] <;> simp [hphase]
  | waitEvent hphase hevents hsettled => simp [hphase]

theorem State.ExecutorCase.applyStep_eq (h : s.ExecutorCase t) (hphase : s.exPhase = .apply) :
    s.applyStep = .next t := by
  cases h with
  | error _ hstep => exact hstep
  | command _ hstep => exact hstep
  | _ => simp_all

/-- Outside COLLECT every move keeps the result. -/
theorem State.Inv.result_moveStep (hi : s.Inv) {m : Move} (hphase : s.exPhase ≠ .collect)
    (h : Machine.moveStep m s = .next t) : t.result = s.result := by
  rcases moveStep_executor_cases h with ⟨-, hcase⟩ | ⟨-, hsame, -⟩
  · rw [State.result_of_ne_apply (hcase.phase.2 hphase)]
    by_cases happly : s.exPhase = .apply
    · rw [State.result_of_apply happly, hi.outcome_applyStep happly (hcase.applyStep_eq happly)]
    · rw [State.result_of_ne_apply happly, hi.outcome_executorCase happly hcase]
  · exact hsame.result

end Sys2Proof.Machine

/-! Settles the statements of R127 and R170 to R178 about the run of one command from APPLY to IDLE: the result is the
same all along the run, and in IDLE the state is its own result. -/

namespace Sys2Proof.Machine

variable {s t u : State}

/-! ## From APPLY to IDLE -/

theorem moveStep_phase {m : Move} (h : moveStep m s = .next t) (hphase : s.exPhase = .apply ∨ s.exPhase = .respond) :
    t.exPhase = .idle ∨ t.exPhase = .apply ∨ t.exPhase = .respond := by
  rcases moveStep_executor_cases h with ⟨-, hcase⟩ | ⟨-, hsame, -⟩
  · exact (hcase.phase.1 hphase).symm.imp_right .inr
  · rw [hsame.exPhase]
    exact .inr hphase

/-- A run to the first IDLE takes a first move, and ends there or goes on so. -/
theorem CompletesBy.cons {m : Move} {ms : List Move} (h : CompletesBy s (m :: ms) u) :
    ∃ t, moveStep m s = .next t ∧ (t = u ∨ t.exPhase ≠ .idle ∧ CompletesBy t ms u) := by
  obtain ⟨hrun, hidle, hfirst⟩ := h
  obtain ⟨t, hm, hrun⟩ := runMoves_cons.1 hrun
  refine ⟨t, hm, ?_⟩
  cases ms with
  | nil => cases hrun; exact .inl rfl
  | cons m' ms =>
    refine .inr ⟨hfirst 1 t (by simp) (runMoves_cons.2 ⟨t, hm, rfl⟩), hrun, hidle, fun k v hk hv => ?_⟩
    exact hfirst (k + 1) v (Nat.succ_lt_succ hk) (runMoves_cons.2 ⟨t, hm, hv⟩)

theorem CompletesBy.result {ms : List Move} (h : CompletesBy s ms u) (hi : s.Inv)
    (hphase : s.exPhase = .apply ∨ s.exPhase = .respond) : u.cfg = s.cfg ∧ u.result = s.result := by
  induction ms generalizing s with
  | nil =>
    obtain ⟨hrun, hidle, -⟩ := h
    cases hrun
    simp [hidle] at hphase
  | cons m ms ih =>
    obtain ⟨t, hm, htail⟩ := h.cons
    have hres : t.result = s.result := hi.result_moveStep (by rcases hphase with h | h <;> simp [h]) hm
    rcases htail with rfl | ⟨hidle, htail⟩
    · exact ⟨cfg_of_moveStep hm, hres⟩
    · obtain ⟨hcfg, hures⟩ := ih htail (hi.moveStep hm) ((moveStep_phase hm hphase).resolve_left hidle)
      exact ⟨hcfg.trans (cfg_of_moveStep hm), hures.trans hres⟩

/-- In IDLE a state is its own result. -/
theorem State.Inv.result_of_idle (hi : s.Inv) (h : s.exPhase = .idle) :
    s.result = { view := s.view, rsp := s.rsp, store := s.sbAt } := by
  rw [State.result_of_ne_apply (by simp [h]), hi.outcome_of_ne_respond (by simp [h])]

/-- R170: the run of a command from APPLY ends in the command's outcome. -/
theorem CompletesBy.outcome {ms : List Move} (h : CompletesBy s ms u) (hi : s.Inv) (hphase : s.exPhase = .apply)
    {i : Instr} (hdec : decodeCommand s.exHdr s.exData = .ok i) :
    u.cfg = s.cfg ∧ u.view = (s.view.run i).1 ∧ u.rsp = s.rsp ++ (s.view.run i).2 ∧
      ∀ sl, u.sbAt sl = if sl ∈ s.writeSet i then u.encoded sl else s.sbAt sl := by
  obtain ⟨hcfg, hres⟩ := h.result hi (.inl hphase)
  obtain ⟨hrun, hidle, -⟩ := h
  have hu := hi.runMoves hrun
  rw [hu.result_of_idle hidle, State.result_of_apply hphase, hdec, hi.outcome_of_ne_respond (by simp [hphase])] at hres
  obtain ⟨hview, hrsp, hstore⟩ := Outcome.mk.inj hres
  refine ⟨hcfg, hview, hrsp, fun sl => (congrFun hstore sl).trans ?_⟩
  rw [State.writeSet_block hi.romsBuilt, ← State.encoded_block hu.romsBuilt sl, hcfg, hview]

/-- Settles O40: in IDLE no write is in flight, and the store is that of the command's outcome. -/
theorem commandRunsToItsRule : Obligations.CommandRunsToItsRule := by
  intro s i ms u hi hphase hdec hcomp
  obtain ⟨-, hview, hrsp, hsb⟩ := hcomp.outcome hi hphase hdec
  obtain ⟨hrun, hidle, -⟩ := hcomp
  obtain ⟨hsettled, -⟩ := (hi.runMoves hrun).executor.quiet (by simp [hidle])
  exact ⟨hview, hrsp, fun sl _ => ⟨State.inflightAt_of_settled hsettled sl,
    fun hsl => (hsb sl).trans (if_pos hsl), fun hsl => (hsb sl).trans (if_neg hsl)⟩⟩

/-! ## Consistency (R127) -/

/-- With the ROMs of one configuration, the view alone tells what a slot is to hold. -/
theorem State.encoded_eq_of_view (hs : s.RomsBuilt) (hu : u.RomsBuilt) (hcfg : u.cfg = s.cfg)
    (hview : u.view = s.view) (sl : Slot) : u.encoded sl = s.encoded sl := by
  rw [← State.encoded_block hs, ← State.encoded_block hu, hcfg, hview]

/-- R127: outside its write set a command changes no encoded word, a SETROTNR to another page apart. -/
theorem State.encoded_eq_of_not_mem_writeSet (hs : s.RomsBuilt) (hu : u.RomsBuilt) (hcfg : u.cfg = s.cfg) {i : Instr}
    (hview : u.view = (s.view.run i).1) (hrot : ∀ a, i = .setrotnr a → anglePage a = none ∨ anglePage a = some s.rotK)
    {sl : Slot} (hlt : sl.shade < s.cfg.shadeCount) (hsl : sl ∉ s.writeSet i) : u.encoded sl = s.encoded sl := by
  have same := State.encoded_eq_of_view hs hu hcfg
  cases i with
  | setpixels img => exact absurd ((mem_allSlots _ _).2 hlt) hsl
  | getpixels => exact same hview sl
  | setpixel x y c =>
    rcases coords_cases x y with ⟨col, row, rfl, rfl⟩ | hge
    · rw [View.run_setpixel] at hview
      rw [State.writeSet_setpixel, State.pixelWriteSet, mem_rowSlots] at hsl
      rw [State.encoded_eq_of_view (s := s.setPixelAt (cell row col) c) hs hu hcfg hview]
      exact encodePixelRowShowsCell.2 s row col sl hs.2 (fun hrow => hsl ⟨hlt, hrow⟩) c
    · exact same (hview.trans (by rw [View.run_setpixel_of_ge _ c hge])) sl
  | getpixel x y =>
    rcases coords_cases x y with ⟨col, row, rfl, rfl⟩ | hge
    · exact same (hview.trans (by rw [View.run_getpixel])) sl
    · exact same (hview.trans (by rw [View.run_getpixel_of_ge _ hge])) sl
  | setrot a =>
    cases ha : anglePage a with
    | none => exact same (hview.trans (by rw [(s.view.run_rotation_of_none ha).1])) sl
    | some k =>
      rw [State.writeSet_setrot_of_some s ha] at hsl
      exact absurd ((mem_allSlots _ _).2 hlt) hsl
  | setrotnr a =>
    rcases hrot a rfl with ha | ha
    · exact same (hview.trans (by rw [(s.view.run_rotation_of_none ha).2])) sl
    · exact same (hview.trans (by rw [(s.view.run_rotation_of_some ha).2]; rfl)) sl
  | getrot => exact same hview sl

/-- R127: SETPIXELS, and SETROT with a valid angle, write every slot. -/
theorem State.mem_writeSet_of_full {i : Instr}
    (h : (∃ img, i = .setpixels img) ∨ ∃ a k, i = .setrot a ∧ anglePage a = some k) {sl : Slot}
    (hlt : sl.shade < s.cfg.shadeCount) : sl ∈ s.writeSet i := by
  rcases h with ⟨img, rfl⟩ | ⟨a, k, rfl, ha⟩
  · exact (mem_allSlots _ _).2 hlt
  · rw [State.writeSet_setrot_of_some s ha]
    exact (mem_allSlots _ _).2 hlt

/-- Settles O41: a slot of the write set holds its encoded word, and of no other slot has the encoded word changed. -/
theorem commandsKeepConsistency : Obligations.CommandsKeepConsistency := by
  intro s i ms u hi hphase hdec hcomp
  obtain ⟨hcfg, hview, -, -⟩ := hcomp.outcome hi hphase hdec
  obtain ⟨-, -, hslots⟩ := commandRunsToItsRule s i ms u hi hphase hdec hcomp
  have hu := hi.runMoves hcomp.1
  refine ⟨fun hcons hrot sl hlt => ?_, fun hfull sl hlt => ?_⟩
  · rw [hcfg] at hlt
    obtain ⟨hnone, hwritten, hkept⟩ := hslots sl hlt
    refine ⟨hnone, ?_⟩
    by_cases hsl : sl ∈ s.writeSet i
    · exact hwritten hsl
    · rw [hkept hsl, (hcons sl hlt).2,
        State.encoded_eq_of_not_mem_writeSet hi.romsBuilt hu.romsBuilt hcfg hview hrot hlt hsl]
  · rw [hcfg] at hlt
    obtain ⟨hnone, hwritten, -⟩ := hslots sl hlt
    exact ⟨hnone, hwritten (State.mem_writeSet_of_full hfull hlt)⟩

end Sys2Proof.Machine

/-! Settles the statements of R79, R170, R171 and R179 about commands on the port: how the executor takes one, and what
a run that serves a sequence of them ends in. The outcome after all of them is the same all along the run. -/

namespace Sys2Proof.Machine

variable {s t u : State}

/-! ## The beats a command is decoded from -/

/-- R80: only SETPIXELS and SETPIXEL read their beats. -/
theorem buildInstr_congr {hdr : Word} {data data' : Vector Word 64} (h1 : opField hdr = 1 → data = data')
    (h3 : opField hdr = 3 → data.get 0 = data'.get 0) : buildInstr hdr data = buildInstr hdr data' := by
  have h1 : (opField hdr).toNat = 1 → data = data' := fun hn => h1 (BitVec.eq_of_toNat_eq hn)
  have h3 : (opField hdr).toNat = 3 → data.get 0 = data'.get 0 := fun hn => h3 (BitVec.eq_of_toNat_eq hn)
  unfold buildInstr
  generalize (opField hdr).toNat = n at h1 h3
  split
  · rw [h1 rfl]
  · rfl
  · rw [h3 rfl]
  all_goals rfl

/-- R79: a command is decoded from its header and as many beats as its OP asks for. -/
theorem decodeCommand_congr {hdr : Word} {data data' : Vector Word 64}
    (h : ∀ k, k < beats (opField hdr) → data[k]? = data'[k]?) : decodeCommand hdr data = decodeCommand hdr data' := by
  have hbuild : buildInstr hdr data = buildInstr hdr data' := by
    rw [beats_eq] at h
    refine buildInstr_congr (fun h1 => Vector.ext fun k hk => ?_) fun h3 => ?_
    · simpa [hk] using h k (by simpa [h1] using hk)
    · simpa [Vector.get_eq_getElem] using h 0 (by simp [h3])
  unfold decodeCommand
  rw [hbuild]

theorem getElem?_beatVector {ws : List Word} {k : Nat} (hk : k < 64) (hlt : k < ws.length) :
    (beatVector ws)[k]? = ws[k]? := by
  simp [beatVector, hk, hlt]

/-- R80: beats held in EX_DATA decode as those that came over the port. -/
theorem decodeCommand_taken {hdr : Word} {data : Vector Word 64} {bs : List Word}
    (hlen : bs.length = beats (opField hdr)) (h : ∀ k, k < bs.length → data[k]? = bs[k]?) :
    decodeCommand hdr data = decodeCommand hdr (beatVector bs) := by
  refine decodeCommand_congr fun k hk => ?_
  rw [← hlen] at hk
  rw [h k hk, getElem?_beatVector (hk.trans_le (hlen ▸ beats_le _)) hk]

/-- R170, COLLECT: EX_DATA after a beat is taken at its end. -/
theorem getElem?_setIfInBounds_taken {data : Vector Word 64} {bs : List Word} {n : Nat} (hn : n < 64)
    (hlt : n < bs.length) (h : ∀ k, k < n → data[k]? = bs[k]?) {k : Nat} (hk : k < n + 1) :
    (data.setIfInBounds n bs[n])[k]? = bs[k]? := by
  rw [Vector.getElem?_setIfInBounds]
  split
  · next heq => subst heq; simp [hlt]
  · exact h k (by omega)

/-! ## Taking one command from the port -/

/-- R170, COLLECT: the beats that are still to come are taken one a step, and then the phase is APPLY. -/
theorem runMoves_collect {bs rest : List Word} {picks : List Nat} (hphase : s.exPhase = .collect)
    (hlen : bs.length = beats (opField s.exHdr)) (hcnt : s.exCnt.toNat ≤ bs.length)
    (htaken : ∀ k, k < s.exCnt.toNat → s.exData[k]? = bs[k]?) (hport : s.port = bs.drop s.exCnt.toNat ++ rest)
    (hpicks : picks.length = bs.length - s.exCnt.toNat + 1) :
    ∃ t, runMoves (picks.map Move.executor) s = .next t ∧
      t = { s with port := rest, exPhase := .apply, exData := t.exData, exCnt := t.exCnt } ∧
      (∀ k, k < bs.length → t.exData[k]? = bs[k]?) ∧ t.exCnt.toNat = bs.length := by
  induction picks generalizing s with
  | nil => simp at hpicks
  | cons pick picks ih =>
    have hstep : moveStep (.executor pick) s = .next s.collectStep := by simp [moveStep, executorStep, hphase]
    rcases s.collectStep_cases with ⟨hlt, hnil, -⟩ | ⟨w, ws, hlt, hcons, hnext⟩ | ⟨hge, hnext⟩
    · rw [← hlen] at hlt
      rw [hnil] at hport
      have hdrop := congrArg List.length hport
      simp only [List.length_nil, List.length_append, List.length_drop] at hdrop
      omega
    · have hlt' : s.exCnt.toNat < bs.length := hlen ▸ hlt
      have h64 : s.exCnt.toNat < 64 := hlt.trans_le (beats_le _)
      have hsucc := toNat_add_one (x := s.exCnt) (by omega)
      rw [hport, List.drop_eq_getElem_cons hlt', List.cons_append] at hcons
      obtain ⟨rfl, rfl⟩ := List.cons.inj hcons
      rw [hnext] at hstep
      obtain ⟨t, hrun, ht, hdata, hn⟩ := ih (s := { s with
          port := bs.drop (s.exCnt.toNat + 1) ++ rest
          exData := s.exData.setIfInBounds s.exCnt.toNat bs[s.exCnt.toNat]
          exCnt := s.exCnt + 1 }) hphase hlen (by rw [hsucc]; exact hlt')
        (fun k hk => getElem?_setIfInBounds_taken h64 hlt' htaken (hsucc ▸ hk)) (by rw [hsucc])
        (by simp only [List.length_cons] at hpicks; rw [hsucc]; omega)
      exact ⟨t, runMoves_cons.2 ⟨_, hstep, hrun⟩, ht, hdata, hn⟩
    · have heq : s.exCnt.toNat = bs.length := hcnt.antisymm (hlen ▸ hge)
      rw [heq, List.drop_length, List.nil_append] at hport
      rw [heq, Nat.sub_self, List.length_cons, Nat.add_right_cancel_iff, List.length_eq_zero_iff] at hpicks
      subst hpicks hport
      rw [hnext] at hstep
      exact ⟨_, runMoves_cons.2 ⟨_, hstep, rfl⟩, rfl, fun k hk => htaken k (heq ▸ hk), heq⟩

/-- Settles O29: the header is taken in IDLE and the beats in COLLECT, and the decoder reads these only. -/
theorem commandIsTakenFromPort : Obligations.CommandIsTakenFromPort := by
  intro s hdr data rest picks hphase hport hlen hpicks
  rw [← beats_opField] at hlen
  cases picks with
  | nil => simp at hpicks
  | cons pick picks =>
    have hstep : moveStep (.executor pick) s =
        .next { s with port := data ++ rest, exHdr := hdr, exCnt := 0, exPhase := .collect } := by
      simp [moveStep, executorStep, hphase, State.idleStep, hport]
    obtain ⟨t, hrun, ht, hdata, hcnt⟩ := runMoves_collect (picks := picks) (bs := data) (rest := rest)
      (s := { s with port := data ++ rest, exHdr := hdr, exCnt := 0, exPhase := .collect }) rfl hlen (Nat.zero_le _)
      (fun k hk => absurd hk (Nat.not_lt_zero k)) rfl (by simpa using hpicks)
    have hhdr : t.exHdr = hdr := by rw [ht]
    have hdec : decodeCommand t.exHdr t.exData = decodeCommand hdr (beatVector data) := by
      rw [hhdr]
      exact decodeCommand_taken hlen hdata
    refine ⟨t, runMoves_cons.2 ⟨_, hstep, hrun⟩, ht, hdata, hcnt, hdec, fun i hwf henc => ?_, fun hill pick' => ?_⟩
    · obtain ⟨hdr', bs, henc', -, hok⟩ := decodeCommand_encode hwf
      cases henc.trans henc'
      rw [hdec, hok]
    · have happly : t.exPhase = .apply := by rw [ht]
      have hrsp : t.rsp = s.rsp := by rw [ht]
      rw [executorStep, happly, ← hrsp]
      exact State.applyStep_of_illegalHeader (hhdr ▸ hill)

/-! ## A sequence of commands on the outcome -/

/-- One command of the port on an outcome (R171). -/
def Outcome.runPort (c : Config) (o : Outcome) (pc : PortCommand) : Outcome :=
  o.answer c (decodeCommand pc.hdr (beatVector pc.data))

/-- The commands of the port one after the other on an outcome (R171). -/
def Outcome.runAll (c : Config) (o : Outcome) (cs : List PortCommand) : Outcome := cs.foldl (Outcome.runPort c) o

theorem Outcome.runPort_view (c : Config) (o : Outcome) (pc : PortCommand) :
    (o.runPort c pc).view = (o.view.runPort pc).1 ∧ (o.runPort c pc).rsp = o.rsp ++ (o.view.runPort pc).2 := by
  unfold Outcome.runPort View.runPort
  cases decodeCommand pc.hdr (beatVector pc.data) <;> exact ⟨rfl, rfl⟩

theorem Outcome.runAll_view (c : Config) (o : Outcome) (cs : List PortCommand) :
    (o.runAll c cs).view = (o.view.runAll cs).1 ∧ (o.runAll c cs).rsp = o.rsp ++ (o.view.runAll cs).2 := by
  induction cs generalizing o with
  | nil => exact ⟨rfl, (List.append_nil _).symm⟩
  | cons pc cs ih =>
    obtain ⟨hview, hrsp⟩ := o.runPort_view c pc
    obtain ⟨ihview, ihrsp⟩ := ih (o.runPort c pc)
    rw [hview] at ihview ihrsp
    refine ⟨ihview, ihrsp.trans ?_⟩
    rw [hrsp, List.append_assoc]
    rfl

/-! ## The commands that wait on the port -/

/-- The commands whose words the executor has not all taken: the one it collects, with the beats it has taken, and
those that stand on the port. -/
inductive State.Waiting (s : State) : List PortCommand → Prop where
  | collect {pc : PortCommand} {cs : List PortCommand} (hphase : s.exPhase = .collect) (hhdr : s.exHdr = pc.hdr)
      (htaken : ∀ k, k < s.exCnt.toNat → s.exData[k]? = pc.data[k]?)
      (hport : s.port = pc.data.drop s.exCnt.toNat ++ cs.flatMap PortCommand.words) : s.Waiting (pc :: cs)
  | between {cs : List PortCommand} (hphase : s.exPhase ≠ .collect) (hport : s.port = cs.flatMap PortCommand.words) :
      s.Waiting cs

theorem State.Waiting.sameExecutor {cs : List PortCommand} (h : s.SameExecutor t) (hport : t.port = s.port)
    (hw : s.Waiting cs) : t.Waiting cs := by
  cases hw with
  | collect hphase hhdr htaken hp =>
    exact .collect (h.exPhase.trans hphase) (h.exHdr.trans hhdr) (by rwa [h.exCnt, h.exData])
      (by rw [hport, h.exCnt, hp])
  | between hphase hp => exact .between (h.exPhase ▸ hphase) (hport.trans hp)

/-- R170: past COLLECT the executor takes nothing from the port. -/
theorem State.ExecutorCase.port_eq (h : s.ExecutorCase t) (hphase : s.exPhase = .apply ∨ s.exPhase = .respond) :
    t.port = s.port := by
  cases h with
  | header hidle hport => simp [hidle] at hphase
  | beat hcollect hcnt hport => simp [hcollect] at hphase
  | event _ hmem hrun => rw [State.runEvent_frame hrun]
  | response _ hsettled =>
    rcases s.sendResponse_cases with ⟨-, h⟩ | ⟨w, -, h⟩ | ⟨w, w', ws, -, h⟩ <;> rw [h]
  | _ => rfl

theorem PortCommand.whole_iff {pc : PortCommand} : pc.whole ↔ pc.data.length = beats (opField pc.hdr) := by
  rw [beats_opField]
  rfl

/-- The block serves commands whose outcome, from where it stands, is `final` in the end. -/
structure State.Serving (final : Outcome) (s : State) : Prop where
  inv      : s.Inv
  commands : ∃ cs, (∀ pc ∈ cs, pc.whole) ∧ s.Waiting cs ∧ s.result.runAll s.cfg cs = final

/-- R170: taking a header, a beat or the step to APPLY leaves the outcome in the end as it is. -/
theorem State.Serving.executorCase {final : Outcome} (hs : s.Serving final) (hi : t.Inv) (hcfg : t.cfg = s.cfg)
    (hkeep : s.exPhase ≠ .collect → t.result = s.result) (h : s.ExecutorCase t) : t.Serving final := by
  obtain ⟨-, cs, hwhole, hw, hfinal⟩ := hs
  have later (hlate : s.exPhase = .apply ∨ s.exPhase = .respond) : t.Serving final := by
    have hne : s.exPhase ≠ .collect := by rcases hlate with h | h <;> simp [h]
    cases hw with
    | collect hphase _ _ _ => exact absurd hphase hne
    | between _ hport =>
      have htphase : t.exPhase ≠ .collect := by rcases h.phase.1 hlate with h | h <;> simp [h]
      exact ⟨hi, cs, hwhole, .between htphase ((h.port_eq hlate).trans hport), by rw [hkeep hne, hcfg, hfinal]⟩
  cases h with
  | waitHeader hphase hport => exact ⟨hi, cs, hwhole, hw, hfinal⟩
  | waitBeat hphase hcnt hport => exact ⟨hi, cs, hwhole, hw, hfinal⟩
  | header hphase hport =>
    have hres := hkeep (by simp [hphase])
    cases hw with
    | collect hcollect _ _ _ => simp [hphase] at hcollect
    | between _ hwords =>
      rw [hport] at hwords
      cases cs with
      | nil => cases hwords
      | cons pc cs =>
        obtain ⟨rfl, rfl⟩ := List.cons.inj hwords
        exact ⟨hi, pc :: cs, hwhole, .collect rfl rfl (fun k hk => absurd hk (Nat.not_lt_zero k)) rfl,
          by rw [hres, ← hfinal]⟩
  | beat hphase hcnt hport =>
    cases hw with
    | between hne _ => exact absurd hphase hne
    | @collect pc cs _ hhdr htaken hwords =>
      have hlen := PortCommand.whole_iff.1 (hwhole pc List.mem_cons_self)
      have h64 : s.exCnt.toNat < 64 := hcnt.trans_le (beats_le _)
      rw [hhdr, ← hlen] at hcnt
      rw [hport, List.drop_eq_getElem_cons hcnt, List.cons_append] at hwords
      obtain ⟨rfl, rfl⟩ := List.cons.inj hwords
      have hsucc := toNat_add_one (x := s.exCnt) (by omega)
      refine ⟨hi, pc :: cs, hwhole, .collect hphase hhdr (fun k hk => ?_) (by rw [hsucc]), ?_⟩
      · exact getElem?_setIfInBounds_taken h64 hcnt htaken (hsucc ▸ hk)
      · rw [State.result_of_ne_apply (by simp [hphase])] at hfinal ⊢
        exact hfinal
  | collected hphase hcnt =>
    cases hw with
    | between hne _ => exact absurd hphase hne
    | @collect pc cs _ hhdr htaken hwords =>
      have hlen := PortCommand.whole_iff.1 (hwhole pc List.mem_cons_self)
      rw [hhdr, ← hlen] at hcnt
      rw [List.drop_eq_nil_of_le hcnt, List.nil_append] at hwords
      refine ⟨hi, cs, fun c hc => hwhole c (List.mem_cons_of_mem _ hc), .between (by simp) hwords, ?_⟩
      have hdec : decodeCommand s.exHdr s.exData = decodeCommand pc.hdr (beatVector pc.data) := by
        rw [hhdr]
        exact decodeCommand_taken hlen fun k hk => htaken k (hk.trans_le hcnt)
      rw [State.result_of_ne_apply (by simp [hphase])] at hfinal
      rw [State.result_of_apply rfl, hdec, ← hfinal]
      rfl
  | error hphase hstep => exact later (.inl hphase)
  | command hphase hstep => exact later (.inl hphase)
  | event hphase hmem hrun => exact later (.inr hphase)
  | response hphase hsettled => exact later (.inr hphase)
  | waitEvent hphase hevents hsettled => exact later (.inr hphase)

/-- R171, R234: every move but a host send leaves the outcome in the end as it is. -/
theorem State.Serving.moveStep {final : Outcome} (hs : s.Serving final) {m : Move} (hm : isHostSendMove m = false)
    (h : Machine.moveStep m s = .next t) : t.Serving final := by
  have hi := hs.inv.moveStep h
  rcases moveStep_executor_cases h with ⟨-, hcase⟩ | ⟨-, hsame, hport⟩
  · exact hs.executorCase hi (cfg_of_moveStep h) (fun hphase => hs.inv.result_moveStep hphase h) hcase
  · obtain ⟨-, cs, hwhole, hw, hfinal⟩ := hs
    exact ⟨hi, cs, hwhole, hw.sameExecutor hsame (hport hm), by rw [hsame.result, hsame.cfg, hfinal]⟩

theorem State.Serving.runMoves {final : Outcome} (hs : s.Serving final) {ms : List Move}
    (hms : ∀ m ∈ ms, isHostSendMove m = false) (h : Machine.runMoves ms s = .next t) : t.Serving final := by
  induction ms generalizing s with
  | nil => cases h; exact hs
  | cons m ms ih =>
    obtain ⟨u, hu, hrun⟩ := runMoves_cons.1 h
    exact ih (hs.moveStep (hms m List.mem_cons_self) hu) (fun m' hm' => hms m' (List.mem_cons_of_mem _ hm')) hrun

/-- In IDLE, with whole commands on the port, the outcome in the end is that of these commands. -/
theorem State.Inv.serving (hi : s.Inv) (hidle : s.exPhase = .idle) {cs : List PortCommand}
    (hwhole : ∀ pc ∈ cs, pc.whole) (hport : s.port = cs.flatMap PortCommand.words) :
    s.Serving (Outcome.runAll s.cfg { view := s.view, rsp := s.rsp, store := s.sbAt } cs) :=
  ⟨hi, cs, hwhole, .between (by simp [hidle]) hport, by rw [hi.result_of_idle hidle]⟩

/-- In IDLE with an empty port the outcome is reached. -/
theorem State.Serving.final_eq {final : Outcome} (hs : s.Serving final) (hidle : s.exPhase = .idle)
    (hport : s.port = []) : final = { view := s.view, rsp := s.rsp, store := s.sbAt } := by
  obtain ⟨hi, cs, -, hw, hfinal⟩ := hs
  cases hw with
  | collect hphase _ _ _ => simp [hidle] at hphase
  | between _ hwords =>
    cases cs with
    | nil => rw [← hfinal, ← hi.result_of_idle hidle]; rfl
    | cons pc cs => rw [hport] at hwords; cases hwords

/-- R171: a run that serves commands ends in their outcome. -/
theorem Serves.outcome {cs : List PortCommand} {ms : List Move} (hwhole : ∀ pc ∈ cs, pc.whole)
    (h : Serves (cs.flatMap PortCommand.words) ms s u) :
    Outcome.runAll s.cfg { view := s.view, rsp := s.rsp, store := s.sbAt } cs =
      { view := u.view, rsp := u.rsp, store := u.sbAt } := by
  obtain ⟨hinv, hidle, hwaiting, hsilent, hrun, huidle, huport⟩ := h
  exact ((hinv.serving hidle hwhole hwaiting).runMoves hsilent hrun).final_eq huidle huport

/-! ## Well-formed commands on the port -/

theorem PortCommand.words_ofInstr {i : Instr} (h : i.wf = true) : (PortCommand.ofInstr i).words = encode i := by
  obtain ⟨hdr, bs, henc, -, -⟩ := decodeCommand_encode h
  rw [PortCommand.words, PortCommand.ofInstr, henc]
  rfl

theorem PortCommand.whole_ofInstr {i : Instr} (h : i.wf = true) : (PortCommand.ofInstr i).whole := by
  obtain ⟨hdr, bs, henc, hlen, -⟩ := decodeCommand_encode h
  rw [PortCommand.whole_iff, PortCommand.ofInstr, henc]
  exact hlen

theorem decodeCommand_ofInstr {i : Instr} (h : i.wf = true) :
    decodeCommand (PortCommand.ofInstr i).hdr (beatVector (PortCommand.ofInstr i).data) = .ok i := by
  obtain ⟨hdr, bs, henc, -, hdec⟩ := decodeCommand_encode h
  rw [PortCommand.ofInstr, henc]
  exact hdec

/-- Settles O42: the view and RSP of the outcome that the run serves. -/
theorem commandSequenceAnswers : Obligations.CommandSequenceAnswers := by
  refine ⟨fun s u cs ms hwhole hserves => ?_, fun i hwf => ⟨PortCommand.whole_ofInstr hwf,
    PortCommand.words_ofInstr hwf, fun v => by rw [View.runPort, decodeCommand_ofInstr hwf]⟩⟩
  have hrun := Outcome.runAll_view s.cfg { view := s.view, rsp := s.rsp, store := s.sbAt } cs
  rw [hserves.outcome hwhole] at hrun
  exact hrun

end Sys2Proof.Machine

/-! Settles the host-level laws of R179: what the runs that serve one or two given commands answer, and what they leave
in the shade store. -/

namespace Sys2Proof.Machine

variable {s t u : State}

/-! ## Well-formed commands on the outcome -/

/-- R171: a run that serves the encodings of well-formed commands ends in their outcome. -/
theorem Serves.outcome_instrs {is : List Instr} {ms : List Move} (hwf : ∀ i ∈ is, i.wf = true)
    (h : Serves (is.flatMap encode) ms s u) :
    is.foldl (Outcome.run s.cfg) { view := s.view, rsp := s.rsp, store := s.sbAt } =
      { view := u.view, rsp := u.rsp, store := u.sbAt } := by
  have hwords : is.flatMap encode = (is.map PortCommand.ofInstr).flatMap PortCommand.words := by
    rw [List.flatMap_map]
    exact List.flatMap_congr fun i hi => (PortCommand.words_ofInstr (hwf i hi)).symm
  rw [hwords] at h
  rw [← h.outcome (List.forall_mem_map.2 fun i hi => PortCommand.whole_ofInstr (hwf i hi)), Outcome.runAll,
    List.foldl_map]
  refine List.foldl_ext _ _ _ fun o i hi => ?_
  rw [Outcome.runPort, decodeCommand_ofInstr (hwf i hi)]
  rfl

theorem Serves.outcome_one {i : Instr} {ms : List Move} (hi : i.wf = true) (h : Serves (encode i) ms s u) :
    Outcome.run s.cfg { view := s.view, rsp := s.rsp, store := s.sbAt } i =
      { view := u.view, rsp := u.rsp, store := u.sbAt } :=
  Serves.outcome_instrs (is := [i]) (by simpa using hi) (by simpa using h)

theorem Serves.outcome_two {i j : Instr} {ms : List Move} (hi : i.wf = true) (hj : j.wf = true)
    (h : Serves (encode i ++ encode j) ms s u) :
    (Outcome.run s.cfg { view := s.view, rsp := s.rsp, store := s.sbAt } i).run s.cfg j =
      { view := u.view, rsp := u.rsp, store := u.sbAt } :=
  Serves.outcome_instrs (is := [i, j]) (by simp [hi, hj]) (by simpa using h)

theorem Serves.final_inv {ws : List Word} {ms : List Move} (h : Serves ws ms s u) : u.Inv := h.inv.runMoves h.run

theorem Serves.cfg_eq {ws : List Word} {ms : List Move} (h : Serves ws ms s u) : u.cfg = s.cfg :=
  runMoves_induction (P := fun v => v.cfg = s.cfg) (fun _ _ _ hv hm => (cfg_of_moveStep hm).trans hv) rfl h.run

/-! ## The pixel store (R172–R175) -/

theorem coords_le (x y : Fin 8) : x.val ≤ 15 ∧ y.val ≤ 15 := by omega

theorem get_set_cell (img : Image) (x y x' y' : Fin 8) (c : Pixel) :
    (img.set (cell y x) c).get (cell y' x') = if x' = x ∧ y' = y then c else img.get (cell y' x') := by
  have hcell : (cell y x).val = (cell y' x').val ↔ x' = x ∧ y' = y := by
    rw [Fin.val_inj, cell_inj, Prod.mk.injEq, eq_comm (a := y), eq_comm (a := x), and_comm]
  simp only [Vector.get_eq_getElem, Vector.getElem_set, hcell]

/-- Settles O43: the responses of the two commands, one after the other. -/
theorem pixelRoundTrips : Obligations.PixelRoundTrips := by
  refine ⟨fun s u img ms h => ?_, fun s u x y x' y' c ms h => ?_⟩
  · have hrsp := congrArg Outcome.rsp (h.outcome_two rfl rfl)
    simp only [Outcome.run, View.run] at hrsp
    rw [← hrsp, List.append_assoc]
    rfl
  · have hrsp := congrArg Outcome.rsp
      (h.outcome_two (wf_setpixel_iff.2 (coords_le x y)) (wf_getpixel_iff.2 (coords_le x' y')))
    simp only [Outcome.run, View.run_setpixel, View.run_getpixel, get_set_cell] at hrsp
    rw [← hrsp, List.append_assoc]
    split <;> rfl

/-! ## The shade store -/

/-- R120, R121: where every pixel an encoded row shows is black, all its colour bits are set. -/
theorem encodeRow_black {img : Image} (himg : ∀ j, img.get j = 0) (page : RotPage) (t : Chan) (r : Fin 8) :
    (encodeRow img page t r).extractLsb' 8 24 = 0xFFFFFF := by
  have hbits (b : Fin 8) := (encodeRowLanes img page t r).1 b 0 (himg _).symm
  have hactive (k : Nat) : active (BitVec.extractLsb' k 8 (0 : Pixel)) t = true := by simp [active]
  simp only [hactive] at hbits
  have hones : (0xFFFFFF : BitVec 24) = BitVec.allOnes 24 := rfl
  rw [hones]
  refine BitVec.eq_of_getLsbD_eq fun i hi => ?_
  rw [BitVec.getLsbD_extractLsb', BitVec.getLsbD_allOnes]
  simp only [hi, decide_true, Bool.true_and]
  rcases Nat.lt_or_ge i 8 with h8 | h8
  · exact (hbits ⟨i, h8⟩).2.2
  · rcases Nat.lt_or_ge i 16 with h16 | h16
    · have hblue := (hbits ⟨i - 8, by omega⟩).2.1
      rwa [show 16 + (i - 8) = 8 + i by omega] at hblue
    · have hred := (hbits ⟨i - 16, by omega⟩).1
      rwa [show 24 + (i - 16) = 8 + i by omega] at hred

/-- R87: the image of FILL 0 is black. -/
theorem imageOfColours_black (j : Fin 64) : (imageOfColours (List.replicate 64 0)).get j = 0 := by
  have hlt : j.val < (List.replicate 64 0).length := List.length_replicate.symm ▸ j.isLt
  rw [imageOfColours, Vector.get_eq_getElem, Vector.getElem_ofFn, List.getD_eq_getElem _ _ hlt,
    List.getElem_replicate]
  rfl

theorem View.encoded_block (c : Config) (v : View) {sl : Slot} (h : sl.shade < c.shadeCount) :
    ∃ t, (v.block c).encoded sl = some (encodeRow v.pb (buildRotationMaps.get v.rotK.toFin) t sl.row) ∧
      (computeThresholds c.shadeCount)[sl.shade]? = some t := by
  obtain ⟨t, ht⟩ : ∃ t, (computeThresholds c.shadeCount)[sl.shade]? = some t :=
    ⟨_, List.getElem?_eq_getElem ((length_computeThresholds c.shadeCount).symm ▸ h)⟩
  exact ⟨t, congrArg (Option.map fun t => encodeRow v.pb (buildRotationMaps.get v.rotK.toFin) t sl.row) ht, ht⟩

/-- R172: after SETPIXELS every slot holds the encoded word of the image. -/
theorem Serves.sbAt_of_setpixels {img : Image} {ms : List Move} (h : Serves (encode (.setpixels img)) ms s u)
    {sl : Slot} (hlt : sl.shade < s.cfg.shadeCount) :
    u.sbAt sl = ((View.mk s.rotK img).block s.cfg).encoded sl :=
  (congrFun (congrArg Outcome.store (h.outcome_one rfl)) sl).symm.trans (if_pos ((mem_allSlots _ _).2 hlt))

/-- R172, R176: after SETPIXELS and SETROT 90 every slot holds the encoded word of the image under page 1. -/
theorem Serves.sbAt_of_setpixels_setrot {img : Image} {ms : List Move}
    (h : Serves (encode (.setpixels img) ++ encode (.setrot 90)) ms s u) {sl : Slot}
    (hlt : sl.shade < s.cfg.shadeCount) : u.sbAt sl = ((View.mk 1 img).block s.cfg).encoded sl :=
  (congrFun (congrArg Outcome.store (h.outcome_two rfl (by decide))) sl).symm.trans
    (if_pos ((mem_allSlots _ _).2 hlt))

/-- R202: a rotation command with another angle is answered with code 1 and writes nothing. -/
theorem Outcome.run_invalidRotation (c : Config) (o : Outcome) {a : Nat} {i : Instr} (ha : anglePage a = none)
    (hi : i = .setrot a ∨ i = .setrotnr a) : o.run c i = { o with rsp := o.rsp ++ [statusWord .invalidRotation] } := by
  obtain ⟨hrot, hrotnr⟩ := o.view.run_rotation_of_none ha
  have hset := (o.view.block c).writeSet_setrot_of_none ha
  have hsetnr : (o.view.block c).writeSet (.setrotnr a) = [] := rfl
  rcases hi with rfl | rfl
  · simp only [Outcome.run, hrot, hset, List.not_mem_nil, if_false]
  · simp only [Outcome.run, hrotnr, hsetnr, List.not_mem_nil, if_false]

theorem anglePage_eq_none {a : Nat} (h0 : a ≠ 0) (h90 : a ≠ 90) (h180 : a ≠ 180) (h270 : a ≠ 270) :
    anglePage a = none := by
  simp [anglePage, h0, h90, h180, h270]

/-- Settles O58: the invariant for the row-select bytes, and the store of the commands' outcome for the rest. -/
theorem hostLawsOfTheStore : Obligations.HostLawsOfTheStore := by
  intro s u ms
  refine ⟨fun img h sl hlt => ?_, fun ws hws h sl hlt => ?_, fun a i ha h0 h90 h180 h270 hi h => ?_,
    fun img img' s' u' ms' hcfg hk hk' himg h h' sl => ?_⟩
  · have hu := h.final_inv
    obtain ⟨w, hw⟩ := State.sbAt_of_lt (sl := sl) hu.sized (by rwa [h.cfg_eq])
    exact ⟨w, hw, (hu.oneHot sl).1 w hw⟩
  · have hblack : assembleLine (.fill 0) = some (encode (.setpixels (imageOfColours (List.replicate 64 0)))) := rfl
    cases hblack.symm.trans hws
    obtain ⟨t, ht, -⟩ := View.encoded_block s.cfg ⟨s.rotK, imageOfColours (List.replicate 64 0)⟩ hlt
    exact ⟨_, (h.sbAt_of_setpixels hlt).trans ht, encodeRow_black imageOfColours_black _ _ _⟩
  · have hwf : i.wf = true := by rcases hi with rfl | rfl <;> exact decide_eq_true ha
    have hout := h.outcome_one hwf
    rw [Outcome.run_invalidRotation _ _ (anglePage_eq_none h0 h90 h180 h270) hi] at hout
    obtain ⟨hview, hrsp, hstore⟩ := Outcome.mk.inj hout
    obtain ⟨hrotK, hpb⟩ := View.mk.inj hview
    exact ⟨hrsp.symm, hrotK.symm, hpb.symm, fun sl => (congrFun hstore sl).symm⟩
  · by_cases hlt : sl.shade < s.cfg.shadeCount
    · obtain ⟨t, ht, hthresh⟩ := View.encoded_block s.cfg ⟨1, img⟩ hlt
      obtain ⟨t', ht', hthresh'⟩ := View.encoded_block s.cfg ⟨s'.rotK, img'⟩ hlt
      cases hthresh.symm.trans hthresh'
      rw [h.sbAt_of_setpixels_setrot hlt, h'.sbAt_of_setpixels (hcfg ▸ hlt), hcfg, ht, ht', hk']
      exact congrArg some (encodeRow_rotated t sl.row himg)
    · rw [State.sbAt_eq_none h.final_inv.sized (by rwa [h.cfg_eq]),
        State.sbAt_eq_none h'.final_inv.sized (by rwa [h'.cfg_eq, hcfg])]

end Sys2Proof.Machine

/-! Settles the two liveness statements of R213. Every executor step does a part of the work that is left: a word taken
from the port, a phase nearer to IDLE, a slot event or a response word; a turn of another agent adds none. -/

namespace Sys2Proof.Machine

variable {s t u : State}

/-! ## In RESPOND the executor always has a step (R59, R60, R170) -/

theorem State.lock_eq_nil (hs : s.Sized) (h : s.cfg.shadeLock = false) : s.lock = [] := by
  obtain ⟨-, -, hlen⟩ := hs
  simpa [h] using hlen

/-- A record stands at the place of a slot that exists. -/
theorem State.exists_inflightAt (hs : s.Sized) {o : Option WriteRecord} (h : o ∈ s.inflight) :
    ∃ sl : Slot, sl.shade < s.cfg.shadeCount ∧ s.inflightAt sl = o := by
  obtain ⟨n, hn, rfl⟩ := List.getElem_of_mem h
  have hlen : s.inflight.length = 8 * s.cfg.shadeCount := hs.2.1
  have hidx : Slot.idx ⟨n / 8, ⟨n % 8, by omega⟩⟩ = n := by
    simp only [Slot.idx]
    omega
  refine ⟨⟨n / 8, ⟨n % 8, by omega⟩⟩, by simp only; omega, ?_⟩
  rw [State.inflightAt, hidx, List.getElem?_eq_getElem hn]
  rfl

/-- R59, R60, R170: where no slot event is enabled, nothing is left to write, in flight or locked. -/
theorem State.Inv.settled_of_no_event (hi : s.Inv) (h : s.slotEvents = []) : s.settled = true := by
  have none_enabled (e : SlotEvent) : e ∉ s.slotEvents := by simp [h]
  have hpend : s.exPend = [] := by
    refine List.eq_nil_iff_forall_not_mem.2 fun sl hsl => ?_
    cases hheld : s.cfg.shadeLock && !s.lockHeld sl.shade with
    | true =>
      obtain ⟨hlock, hfree⟩ : s.cfg.shadeLock = true ∧ s.lockHeld sl.shade = false := by simpa using hheld
      exact none_enabled (.acquire sl.shade) (State.mem_slotEvents.2 (State.mem_acquirable.2
        ⟨hlock, (hi.pending.2 sl hsl).1, hfree, State.pendingIn_eq_true.2 ⟨sl, hsl, rfl⟩⟩))
    | false =>
      exact none_enabled (.beginSlot sl) (State.mem_slotEvents.2 (State.mem_beginnable.2
        ⟨hsl, by simpa using hheld⟩))
  have hinflight (o : Option WriteRecord) (ho : o ∈ s.inflight) : o = none := by
    obtain ⟨sl, hlt, rfl⟩ := State.exists_inflightAt hi.sized ho
    by_contra hne
    exact none_enabled (.endSlot sl) (State.mem_slotEvents.2 (State.mem_inflightSlots.2
      ⟨hlt, Option.isSome_iff_ne_none.2 hne⟩))
  refine State.settled_iff.2 ⟨hpend, hinflight, fun l hl => ?_⟩
  cases hlock : s.cfg.shadeLock with
  | false => rw [State.lock_eq_nil hi.sized hlock] at hl; cases hl
  | true =>
    obtain ⟨n, hn, rfl⟩ := List.getElem_of_mem hl
    cases hfree : s.lock[n] with
    | free => rfl
    | held =>
      have hheld : s.lockHeld n = true := by simp [State.lockHeld, hn, hfree]
      have hnone : s.inflightIn n = false := (State.inflightIn_eq_false hi.sized).2 fun sl _ => by
        cases hrec : s.inflight[sl.idx]? with
        | none => simp [State.inflightAt, hrec]
        | some o => simp [State.inflightAt, hrec, hinflight o (List.mem_of_getElem? hrec)]
      exact absurd (State.mem_slotEvents.2 (State.mem_releasable.2 ⟨hlock, hi.sized.length_lock hlock ▸ hn, hheld,
        State.pendingIn_eq_false.2 (by simp [hpend]), hnone⟩)) (none_enabled (.release n))

/-! ## The work that is left of a command -/

/-- What is left to do in RESPOND: a slot to write has a begin and an end event, a lock to take is also given back. -/
def State.debts (s : State) : Nat :=
  2 * s.exPend.length + 2 * s.acquirable.length + s.inflight.countP Option.isSome + s.lock.count .held +
    s.exRsp.length

/-- How far a phase is from IDLE (R170). -/
def ExPhase.rank : ExPhase → Nat
  | .idle => 0
  | .respond => 1
  | .apply => 2
  | .collect => 3

/-- The work left of a command whose beats are taken: the phases to come, then what is left in RESPOND. -/
def State.work (s : State) : ℕ ×ₗ ℕ := toLex (s.exPhase.rank, s.debts)

theorem State.SameExecutor.work (h : s.SameExecutor t) : t.work = s.work := by
  have hacq : t.acquirable = s.acquirable := by
    simp only [State.acquirable, State.pendingIn, h.cfg, h.exPend, h.sameStore.lockHeld]
  simp only [State.work, State.debts, hacq, h.exPhase, h.exPend, h.inflight, h.lock, h.exRsp]

theorem State.work_lt_of_rank (h : t.exPhase.rank < s.exPhase.rank) : t.work < s.work :=
  Prod.Lex.toLex_lt_toLex.2 (.inl h)

theorem State.work_lt_of_debts (hphase : t.exPhase = s.exPhase) (h : t.debts < s.debts) : t.work < s.work :=
  Prod.Lex.toLex_lt_toLex.2 (.inr ⟨congrArg ExPhase.rank hphase, h⟩)

theorem State.acquirable_nodup (s : State) : s.acquirable.Nodup := by
  unfold State.acquirable
  split
  · exact List.nodup_range.filter _
  · exact List.nodup_nil

theorem State.length_acquirable_le (h : ∀ x ∈ t.acquirable, x ∈ s.acquirable) :
    t.acquirable.length ≤ s.acquirable.length :=
  (List.subperm_of_subset t.acquirable_nodup h).length_le

/-! ## Each slot event does a part of the work -/

theorem State.debts_acquireLock (hs : s.Sized) {h : Nat} (hmem : h ∈ s.acquirable) :
    (s.acquireLock h).debts < s.debts := by
  obtain ⟨hlock, hlt, hfree, -⟩ := State.mem_acquirable.1 hmem
  have hlen : h < s.lock.length := hs.length_lock hlock ▸ hlt
  have hcount : (s.lock.set h .held).count .held = s.lock.count .held + 1 := by
    have hne : s.lock[h] ≠ .held := fun heq => by simp [State.lockHeld, hlen, heq] at hfree
    rw [List.count_set hlen]
    simp [hne]
  have hacq : (h :: (s.acquireLock h).acquirable).length ≤ s.acquirable.length := by
    refine (List.subperm_of_subset (List.nodup_cons.2 ⟨fun hx => ?_, State.acquirable_nodup _⟩)
      fun x hx => ?_).length_le
    · obtain ⟨-, -, hx, -⟩ := State.mem_acquirable.1 hx
      simp [hlen] at hx
    · rcases List.mem_cons.1 hx with rfl | hx
      · exact hmem
      · obtain ⟨-, hxlt, hxfree, hxpend⟩ := State.mem_acquirable.1 hx
        rw [State.lockHeld_acquire] at hxfree
        split at hxfree
        · simp [hlen] at hxfree
        · exact State.mem_acquirable.2 ⟨hlock, hxlt, hxfree, hxpend⟩
  simp only [State.debts, State.acquireLock_exPend, State.acquireLock_inflight, State.acquireLock_lock,
    State.acquireLock_exRsp, hcount, List.length_cons] at hacq ⊢
  omega

theorem State.debts_releaseLock (hs : s.Sized) {h : Nat} (hmem : h ∈ s.releasable) :
    (s.releaseLock h).debts < s.debts := by
  obtain ⟨hlock, hlt, hheld, hpend, -⟩ := State.mem_releasable.1 hmem
  have hlen : h < s.lock.length := hs.length_lock hlock ▸ hlt
  have heq : s.lock[h] = .held := by simpa [State.lockHeld, hlen] using hheld
  have hpos : 0 < s.lock.count .held := List.count_pos_iff.2 (heq ▸ List.getElem_mem hlen)
  have hcount : (s.lock.set h .free).count .held + 1 = s.lock.count .held := by
    rw [List.count_set hlen]
    simp [heq]
    omega
  have hacq : (s.releaseLock h).acquirable.length ≤ s.acquirable.length := by
    refine State.length_acquirable_le fun x hx => ?_
    obtain ⟨-, hxlt, hxfree, hxpend⟩ := State.mem_acquirable.1 hx
    have hxpend : s.pendingIn x = true := hxpend
    rw [State.lockHeld_release, if_neg (by rintro rfl; simp [hpend] at hxpend)] at hxfree
    exact State.mem_acquirable.2 ⟨hlock, hxlt, hxfree, hxpend⟩
  simp only [State.debts, State.releaseLock_exPend, State.releaseLock_inflight, State.releaseLock_lock,
    State.releaseLock_exRsp]
  omega

/-- The record of a slot that exists, as an entry of the array. -/
theorem State.inflight_getElem (hs : s.Sized) {sl : Slot} (h : sl.shade < s.cfg.shadeCount) :
    ∃ hlt : sl.idx < s.inflight.length, s.inflight[sl.idx] = s.inflightAt sl := by
  have hlt : sl.idx < s.inflight.length := hs.2.1 ▸ (Slot.idx_lt_iff sl _).2 h
  exact ⟨hlt, by rw [State.inflightAt, List.getElem?_eq_getElem hlt]; rfl⟩

theorem State.debts_beginWrite (hi : s.Inv) {sl : Slot} (hmem : sl ∈ s.exPend) (h : s.beginWrite sl = some t) :
    t.debts < s.debts := by
  obtain ⟨hshade, hnone⟩ := hi.pending.2 sl hmem
  obtain ⟨hlt, hget⟩ := State.inflight_getElem hi.sized hshade
  have hacq : t.acquirable.length ≤ s.acquirable.length := by
    obtain ⟨old, new, -, -, -, hpend, ht⟩ := State.beginWrite_spec hi.sized h
    refine State.length_acquirable_le fun x hx => ?_
    obtain ⟨hlock, hxlt, hfree, hxpend⟩ := State.mem_acquirable.1 hx
    obtain ⟨y, hy, hyx⟩ := State.pendingIn_eq_true.1 hxpend
    rw [ht] at hlock hxlt hfree
    exact State.mem_acquirable.2 ⟨hlock, hxlt, hfree, State.pendingIn_eq_true.2 ⟨y, ((hpend y).1 hy).1, hyx⟩⟩
  obtain ⟨old, new, -, -, rfl⟩ := State.beginWrite_eq_some.1 h
  have hcount : (s.inflight.set sl.idx (some { old := old, new := new })).countP Option.isSome =
      s.inflight.countP Option.isSome + 1 := by
    rw [List.countP_set hlt, hget, hnone]
    simp
  have hpend : (s.exPend.filter fun x => x ≠ sl).length < s.exPend.length :=
    List.length_filter_lt_length_iff_exists.2 ⟨sl, hmem, by simp⟩
  simp only [State.debts, hcount] at hacq ⊢
  omega

theorem State.debts_endWrite (hi : s.Inv) {sl : Slot} (h : s.endWrite sl = some t) : t.debts < s.debts := by
  obtain ⟨rec, hrec, rfl⟩ := State.endWrite_eq_some.1 h
  obtain ⟨hlt, hget⟩ := State.inflight_getElem hi.sized (State.shade_lt_of_inflight hi.sized hrec)
  have hpos : 0 < s.inflight.countP Option.isSome :=
    List.countP_pos_iff.2 ⟨some rec, hrec ▸ hget ▸ List.getElem_mem hlt, rfl⟩
  have hcount : (s.inflight.set sl.idx none).countP Option.isSome + 1 = s.inflight.countP Option.isSome := by
    rw [List.countP_set hlt, hget, hrec]
    simp
    omega
  have hacq : ({ s with sb := s.sb.set sl.idx rec.new, inflight := s.inflight.set sl.idx none } : State).acquirable =
      s.acquirable := rfl
  simp only [State.debts, hacq]
  omega

theorem State.Inv.debts_runEvent (hi : s.Inv) {e : SlotEvent} (hmem : e ∈ s.slotEvents)
    (hrun : s.runEvent e = some t) : t.debts < s.debts := by
  have hmem := State.mem_slotEvents.1 hmem
  cases e with
  | acquire shade => cases hrun; exact State.debts_acquireLock hi.sized hmem
  | beginSlot sl => exact State.debts_beginWrite hi (State.mem_beginnable.1 hmem).1 hrun
  | endSlot sl => exact State.debts_endWrite hi hrun
  | release shade => cases hrun; exact State.debts_releaseLock hi.sized hmem

/-- R170: past the taking of words, an executor step is work done. -/
theorem State.Inv.work_executorCase (hi : s.Inv) (h : s.ExecutorCase t)
    (hphase : s.exPhase = .apply ∨ s.exPhase = .respond) : t.work < s.work := by
  cases h with
  | waitHeader hp hport => simp [hp] at hphase
  | header hp hport => simp [hp] at hphase
  | waitBeat hp hcnt hport => simp [hp] at hphase
  | beat hp hcnt hport => simp [hp] at hphase
  | collected hp hcnt => simp [hp] at hphase
  | error hp hstep => exact State.work_lt_of_rank (by simp [hp, ExPhase.rank])
  | command hp hstep => exact State.work_lt_of_rank (by simp [hp, ExPhase.rank])
  | event hp hmem hrun =>
    exact State.work_lt_of_debts (by rw [State.runEvent_frame hrun]) (hi.debts_runEvent hmem hrun)
  | response hp hsettled =>
    rcases s.sendResponse_cases with ⟨hnil, -⟩ | ⟨w, -, h⟩ | ⟨w, w', ws, hrsp, h⟩
    · exact absurd hnil (hi.executor.owing hp)
    · exact State.work_lt_of_rank (by simp [h, hp, ExPhase.rank])
    · refine State.work_lt_of_debts (by rw [h]) ?_
      have hacq : s.sendResponse.acquirable = s.acquirable := by rw [h]; rfl
      rw [State.debts, hacq, State.debts, h, hrsp]
      simp
  | waitEvent hp hevents hsettled => simp [hi.settled_of_no_event hevents] at hsettled

/-! ## Fair schedules -/

theorem takeMoves_succ (sched : Nat → Move) (n : Nat) :
    takeMoves sched (n + 1) = sched 0 :: takeMoves (fun k => sched (k + 1)) n := by
  simp [takeMoves, List.range_succ_eq_map, Function.comp_def]

theorem runMoves_takeMoves_succ {sched : Nat → Move} {P : State → Prop} (h : moveStep (sched 0) s = .next t)
    (hrest : ∃ n u, runMoves (takeMoves (fun k => sched (k + 1)) n) t = .next u ∧ P u) :
    ∃ n u, runMoves (takeMoves sched n) s = .next u ∧ P u := by
  obtain ⟨n, u, hrun, hu⟩ := hrest
  exact ⟨n + 1, u, by rw [takeMoves_succ]; exact runMoves_cons.2 ⟨t, h, hrun⟩, hu⟩

theorem turn_again_succ {sched : Nat → Move} (h : ∀ n, ∃ m, n ≤ m ∧ isExecutorMove (sched m) = true) (n : Nat) :
    ∃ m, n ≤ m ∧ isExecutorMove (sched (m + 1)) = true := by
  obtain ⟨m, hle, hm⟩ := h (n + 1)
  obtain ⟨k, rfl⟩ : ∃ k, m = k + 1 := ⟨m - 1, by omega⟩
  exact ⟨k, by omega, hm⟩

/-- R213: what every executor turn brings nearer, and no other turn takes further away, is reached at last. -/
theorem eventually_of_progress {α : Type} [LT α] [WellFoundedLT α] {P Q : State → Prop} {ok : Move → Prop}
    (μ : State → α) (hinv : ∀ s, P s → s.Inv)
    (hkeep : ∀ m s t, ok m → P s → ¬ Q s → moveStep m s = .next t →
      P t ∧ (isExecutorMove m = true ∧ μ t < μ s ∨ isExecutorMove m = false ∧ μ t = μ s))
    {sched : Nat → Move} (hok : ∀ n, ok (sched n)) (hturn : ∀ n, ∃ m, n ≤ m ∧ isExecutorMove (sched m) = true)
    (hs : P s) : ∃ n u, runMoves (takeMoves sched n) s = .next u ∧ P u ∧ Q u := by
  induction hμ : μ s using WellFoundedLT.induction generalizing s sched with
  | ind a ih =>
    obtain ⟨m, -, hm⟩ := hturn 0
    induction m generalizing s sched with
    | zero =>
      by_cases hQ : Q s
      · exact ⟨0, s, rfl, hs, hQ⟩
      · obtain ⟨t, ht⟩ := (hinv s hs).exists_moveStep (sched 0)
        obtain ⟨hPt, ⟨-, hlt⟩ | ⟨hother, -⟩⟩ := hkeep _ s t (hok 0) hs hQ ht
        · exact runMoves_takeMoves_succ ht
            (ih (μ t) (hμ ▸ hlt) (fun n => hok (n + 1)) (turn_again_succ hturn) hPt rfl)
        · rw [hm] at hother
          cases hother
    | succ m ihm =>
      by_cases hQ : Q s
      · exact ⟨0, s, rfl, hs, hQ⟩
      · obtain ⟨t, ht⟩ := (hinv s hs).exists_moveStep (sched 0)
        obtain ⟨hPt, ⟨-, hlt⟩ | ⟨-, heq⟩⟩ := hkeep _ s t (hok 0) hs hQ ht
        · exact runMoves_takeMoves_succ ht
            (ih (μ t) (hμ ▸ hlt) (fun n => hok (n + 1)) (turn_again_succ hturn) hPt rfl)
        · exact runMoves_takeMoves_succ ht
            (ihm (fun n => hok (n + 1)) (turn_again_succ hturn) hPt (heq.trans hμ) hm)

/-- The invariant, in a phase past the taking of words (R170). -/
def State.PastCollect (s : State) : Prop := s.Inv ∧ (s.exPhase = .idle ∨ s.exPhase = .apply ∨ s.exPhase = .respond)

/-- R170: until IDLE a move stays past COLLECT, and does a part of the work if it is the executor's. -/
theorem State.PastCollect.moveStep (hs : s.PastCollect) (hbusy : ¬ s.exPhase = .idle) {m : Move}
    (h : Machine.moveStep m s = .next t) :
    t.PastCollect ∧
      (isExecutorMove m = true ∧ t.work < s.work ∨ isExecutorMove m = false ∧ t.work = s.work) := by
  obtain ⟨hi, hlate⟩ := hs
  have hlate := hlate.resolve_left hbusy
  refine ⟨⟨hi.moveStep h, moveStep_phase h hlate⟩, ?_⟩
  rcases moveStep_executor_cases h with ⟨hexec, hcase⟩ | ⟨hother, hsame, -⟩
  · exact .inl ⟨hexec, hi.work_executorCase hcase hlate⟩
  · exact .inr ⟨hother, hsame.work⟩

/-- Settles O44: past COLLECT every executor step is work done, until IDLE. -/
theorem everyCommandCompletes : Obligations.EveryCommandCompletes := by
  intro s sched hi hphase hfair
  obtain ⟨n, u, hrun, -, hidle⟩ := eventually_of_progress (ok := fun _ => True) State.work (fun _ h => h.1)
    (fun _ _ _ _ hs hbusy h => State.PastCollect.moveStep hs hbusy h) (fun _ => trivial) hfair.1 ⟨hi, .inr hphase⟩
  exact ⟨n, u, hrun, hidle⟩

/-! ## The work that is left of all the commands on the port -/

/-- The words that are left to take, then the work that is left of the command whose words are taken. -/
def State.allWork (s : State) : ℕ ×ₗ (ℕ ×ₗ ℕ) := toLex (s.port.length, s.work)

theorem State.allWork_lt_of_port (h : t.port.length < s.port.length) : t.allWork < s.allWork :=
  Prod.Lex.toLex_lt_toLex.2 (.inl h)

theorem State.allWork_lt_of_work (hport : t.port = s.port) (h : t.work < s.work) : t.allWork < s.allWork :=
  Prod.Lex.toLex_lt_toLex.2 (.inr ⟨congrArg List.length hport, h⟩)

/-- R79, R85: in COLLECT with beats to come there is a word on the port, when whole commands stand there. -/
theorem State.Serving.port_ne_nil {final : Outcome} (hs : s.Serving final) (hphase : s.exPhase = .collect)
    (hcnt : s.exCnt.toNat < beats (opField s.exHdr)) : s.port ≠ [] := by
  obtain ⟨-, cs, hwhole, hw, -⟩ := hs
  cases hw with
  | between hne _ => exact absurd hphase hne
  | @collect pc cs _ hhdr _ hport =>
    rw [hhdr, ← PortCommand.whole_iff.1 (hwhole pc List.mem_cons_self)] at hcnt
    rw [hport, List.drop_eq_getElem_cons hcnt, List.cons_append]
    exact List.cons_ne_nil _ _

/-- R170: until the port is empty and the executor in IDLE, an executor step is work done. -/
theorem State.Serving.allWork_executorCase {final : Outcome} (hs : s.Serving final) (h : s.ExecutorCase t)
    (hbusy : ¬ (s.exPhase = .idle ∧ s.port = [])) : t.allWork < s.allWork := by
  have later (hlate : s.exPhase = .apply ∨ s.exPhase = .respond) : t.allWork < s.allWork :=
    State.allWork_lt_of_work (h.port_eq hlate) (hs.inv.work_executorCase h hlate)
  cases h with
  | waitHeader hphase hport => exact absurd ⟨hphase, hport⟩ hbusy
  | header hphase hport => exact State.allWork_lt_of_port (by simp [hport])
  | waitBeat hphase hcnt hport => exact absurd hport (hs.port_ne_nil hphase hcnt)
  | beat hphase hcnt hport => exact State.allWork_lt_of_port (by simp [hport])
  | collected hphase hcnt =>
    exact State.allWork_lt_of_work rfl (State.work_lt_of_rank (by simp [hphase, ExPhase.rank]))
  | error hphase hstep => exact later (.inl hphase)
  | command hphase hstep => exact later (.inl hphase)
  | event hphase hmem hrun => exact later (.inr hphase)
  | response hphase hsettled => exact later (.inr hphase)
  | waitEvent hphase hevents hsettled => exact later (.inr hphase)

/-- R213: a move other than a host send does a part of the work on the port, if it is the executor's. -/
theorem State.Serving.allWork_moveStep {final : Outcome} (hs : s.Serving final) {m : Move}
    (hm : isHostSendMove m = false) (hbusy : ¬ (s.exPhase = .idle ∧ s.port = [])) (h : Machine.moveStep m s = .next t) :
    isExecutorMove m = true ∧ t.allWork < s.allWork ∨ isExecutorMove m = false ∧ t.allWork = s.allWork := by
  rcases moveStep_executor_cases h with ⟨hexec, hcase⟩ | ⟨hother, hsame, hport⟩
  · exact .inl ⟨hexec, hs.allWork_executorCase hcase hbusy⟩
  · exact .inr ⟨hother, by rw [State.allWork, hport hm, hsame.work, State.allWork]⟩

/-- Settles O45: the work on the port comes to an end, and then the outcome is that of the commands. -/
theorem fairRunAnswersEveryCommand : Obligations.FairRunAnswersEveryCommand := by
  intro s cs sched hi hidle hwhole hport hsilent hfair
  obtain ⟨n, u, hrun, hserving, huidle, huport⟩ := eventually_of_progress State.allWork (fun _ h => h.inv)
    (fun _ _ _ hm hv hbusy h => ⟨hv.moveStep hm h, hv.allWork_moveStep hm hbusy h⟩) hsilent hfair.1
    (hi.serving hidle hwhole hport)
  have hview := Outcome.runAll_view s.cfg { view := s.view, rsp := s.rsp, store := s.sbAt } cs
  rw [hserving.final_eq huidle huport] at hview
  exact ⟨n, u, hrun, huidle, huport, hview⟩

end Sys2Proof.Machine

/-! Settles the statements of R141 and R236: what the scheduler streams while no slot is written. In such a run only a
FETCH adds to the words pushed or owed, and it adds the three words of its slot. -/

namespace Sys2Proof.Machine

variable {s t u : State}

/-! ## A move in a quiet run -/

/-- R59: in a quiet run no slot changes, since a begin event leaves a write in flight and an end event needs one. -/
theorem sameSlots_of_quiet {m : Move} (hs : s.Sized) (h : moveStep m s = .next t)
    (hquiet : ∀ sl, s.inflightAt sl = none) (hquiet' : ∀ sl, t.inflightAt sl = none) : s.SameSlots t := by
  rcases moveStep_slots_cases h with hsame | ⟨sl, hbegin | hend⟩
  · exact hsame
  · obtain ⟨old, new, -, -, hinf, -⟩ := State.beginWrite_spec hs hbegin
    have hnone := hquiet' sl
    rw [hinf, if_pos rfl] at hnone
    cases hnone
  · obtain ⟨rec, hrec, -⟩ := State.endWrite_spec hs hend
    rw [hquiet sl] at hrec
    cases hrec

/-- What holds of a run's start, and is kept by its moves while no write is in flight, holds of a quiet run's end. -/
theorem quietRun_induction {P : State → Prop}
    (hP : ∀ m s t, P s → moveStep m s = .next t → s.Inv → (∀ sl, s.inflightAt sl = none) → s.SameSlots t → P t)
    {ms : List Move} (hi : s.Inv) (hs : P s) (hquiet : quietRun ms s = true) (h : runMoves ms s = .next t) : P t := by
  induction ms generalizing s with
  | nil => cases h; exact hs
  | cons m ms ih =>
    obtain ⟨u, hu, hrun⟩ := runMoves_cons.1 h
    have hnone := State.inflightAt_of_quietRun hquiet
    have htail := ((quietRun_cons hu).1 hquiet).2
    have hsame := sameSlots_of_quiet hi.sized hu hnone (State.inflightAt_of_quietRun htail)
    exact ih (hi.moveStep hu) (hP m s u hs hu hi hnone hsame) htail hrun

/-! ## The words pushed or owed -/

/-- What the scheduler has pushed and what it still owes of the word it has latched (R153, R236). -/
def State.pushedOrOwed (s : State) : List Word := s.stream ++ s.owed

theorem State.owed_of_ne_emit (h : s.schPhase ≠ .emit) : s.owed = [] := if_neg h

theorem State.owed_of_emit (h : s.schPhase = .emit) :
    s.owed = (s.cfg.passMask.toList.drop s.schP.toNat).map (s.schW ||| ·) := if_pos h

theorem State.length_owed_le (s : State) : s.owed.length ≤ 3 := by
  unfold State.owed
  split
  · simp
  · exact Nat.zero_le 3

/-- R143, R144: the advance after a push leaves the other pushes of the latched word owed. -/
theorem State.owed_advance (hphase : s.schPhase = .emit) {m : Word} (hm : s.passMaskAt s.schP = some m) :
    s.owed = (s.schW ||| m) :: (s.enqueue (s.schW ||| m)).advance.owed := by
  obtain ⟨hlt, hget⟩ : ∃ h : s.schP.toNat < 3, s.cfg.passMask.get ⟨s.schP.toNat, h⟩ = m := by
    unfold State.passMaskAt at hm
    split at hm
    · next h => exact ⟨h, Option.some.inj hm⟩
    · cases hm
  have hlen : s.schP.toNat < s.cfg.passMask.toList.length := by simpa using hlt
  have hhead : s.cfg.passMask.toList[s.schP.toNat] = m := by simpa [Vector.get_eq_getElem] using hget
  rw [State.owed_of_emit hphase, List.drop_eq_getElem_cons hlen, hhead, List.map_cons]
  refine congrArg _ ?_
  unfold State.advance
  split
  · next h2 =>
    have h2 : s.schP.toNat < 2 := h2
    have hsucc : (s.schP + 1).toNat = s.schP.toNat + 1 := toNat_add_one (by omega)
    exact hsucc ▸ (State.owed_of_emit (s := { s.enqueue (s.schW ||| m) with schP := s.schP + 1 }) hphase).symm
  · next h2 =>
    have hlast : s.schP.toNat = 2 := by
      have h2 : ¬ s.schP.toNat < 2 := h2
      omega
    rw [hlast, List.drop_eq_nil_of_le (by simp), List.map_nil]
    split_ifs <;> exact (State.owed_of_ne_emit (by simp)).symm

/-- R142: the words of a slot that a FETCH has just latched are all owed. -/
theorem State.owed_fetch {w : Word} (h : s.sbAt s.schSlot = some w) :
    ({ s with schW := w, schP := 0, schPhase := .emit } : State).owed = s.slotWords s.schSlot := by
  rw [State.owed_of_emit rfl, State.slotWords, h]
  rfl

/-! ## The scheduler's place in its cycle (R141, R144) -/

/-- How many slots of the cycle the scheduler has latched so far, in their order. -/
def State.latched (s : State) : Nat := s.schSlot.idx + if s.schPhase = .emit then 1 else 0

theorem State.latched_of_emit (h : s.schPhase = .emit) : s.latched = 8 * s.schS.toNat + s.schR.toNat + 1 := by
  simp [State.latched, h, State.schSlot, Slot.idx]

theorem State.latched_of_ne_emit (h : s.schPhase ≠ .emit) : s.latched = 8 * s.schS.toNat + s.schR.toNat := by
  simp [State.latched, h, State.schSlot, Slot.idx]

/-- R144: the advance keeps the count of latched slots, until it leaves the last slot and starts anew. -/
theorem State.latched_advance (hphase : s.schPhase = .emit) (hS : s.schS.toNat < s.cfg.shadeCount)
    (hN : s.cfg.shadeCount ≤ 255) :
    s.advance.latched = s.latched ∨ s.latched = 8 * s.cfg.shadeCount ∧ s.advance.latched = 0 := by
  have hR := s.schR.isLt
  rw [State.latched_of_emit hphase]
  unfold State.advance
  split_ifs with hpass hrow hshade
  · exact .inl (State.latched_of_emit hphase)
  · refine .inl ((State.latched_of_ne_emit (by simp)).trans ?_)
    have hsucc : (s.schR + 1).toNat = s.schR.toNat + 1 := toNat_add_one (by omega)
    simp only [hsucc]
    omega
  · refine .inl ((State.latched_of_ne_emit (by simp)).trans ?_)
    have hsucc : (s.schS + 1).toNat = s.schS.toNat + 1 := toNat_add_one (by omega)
    have hzero : (0 : BitVec 3).toNat = 0 := rfl
    simp only [hsucc, hzero]
    omega
  · exact .inr ⟨by omega, State.latched_of_ne_emit (by simp)⟩

/-- R141, R236: while no write is in flight a move leaves the words pushed or owed as they are, and the scheduler where
it is or, after the last slot, at the start; or it is a FETCH, which adds the words of the next slot. -/
theorem State.Inv.streaming_moveStep (hi : s.Inv) {m : Move} (h : Machine.moveStep m s = .next t)
    (hnone : s.inflightAt s.schSlot = none) :
    (t.pushedOrOwed = s.pushedOrOwed ∧
        (t.latched = s.latched ∨ s.latched = 8 * s.cfg.shadeCount ∧ t.latched = 0)) ∨
      t.pushedOrOwed = s.pushedOrOwed ++ s.slotWords s.schSlot ∧ s.latched = s.schSlot.idx ∧
        t.latched = s.latched + 1 := by
  have hcase := moveStep_streamingCase h
  have hstream := hcase.stream hi.queue
  generalize pushOf m s = pushed at hcase hstream
  cases hcase with
  | same hsame =>
    refine .inl ⟨?_, .inl ?_⟩
    · simp only [State.pushedOrOwed, hstream, State.owed, hsame.cfg, hsame.schPhase, hsame.schP, hsame.schW,
        List.append_nil]
    · simp only [State.latched, State.schSlot, hsame.schS, hsame.schR, hsame.schPhase]
  | fetch hphase hread =>
    rw [State.readSb_committed hnone] at hread
    refine .inr ⟨?_, ?_, ?_⟩
    · rw [State.pushedOrOwed, hstream, State.owed_fetch hread, State.pushedOrOwed,
        State.owed_of_ne_emit (s := s) (by simp [hphase]), List.append_nil]
    · simp [State.latched, hphase]
    · simp [State.latched, hphase, State.schSlot]
  | @emit m hphase hroom hm =>
    obtain ⟨hS, -, -⟩ := hi.scheduler
    obtain ⟨-, hN, -, -⟩ := (Config.admitted_iff s.cfg).1 hi.admitted
    refine .inl ⟨?_, State.latched_advance (s := s.enqueue (s.schW ||| m)) hphase hS hN⟩
    rw [State.pushedOrOwed, hstream, State.pushedOrOwed, State.owed_advance hphase hm, List.append_assoc]
    rfl
  | leaveGap hphase =>
    refine .inl ⟨?_, .inl ?_⟩
    · rw [State.pushedOrOwed, hstream, State.owed_of_ne_emit (by simp), State.pushedOrOwed,
        State.owed_of_ne_emit (s := s) (by simp [hphase]), List.append_nil]
    · simp [State.latched, hphase, State.schSlot]
  | send hq => exact .inl ⟨by rw [State.pushedOrOwed, hstream, List.append_nil]; rfl, .inl rfl⟩
  | idle hq => exact .inl ⟨by rw [State.pushedOrOwed, hstream, List.append_nil]; rfl, .inl rfl⟩

/-! ## Whole cycles (R141) -/

/-- R23: slot (s, r) is the one at place `8*s + r` of the slots. -/
theorem getElem?_allSlots {n : Nat} {sl : Slot} (h : sl.shade < n) : (allSlots n)[sl.idx]? = some sl := by
  rw [Slot.idx, allSlots, getElem?_flatMap_rows (fun s r => ({ shade := s, row := r } : Slot)), List.getElem?_range h]
  rfl

/-- The words of `c` whole cycles and then of the first `k` slots of the next. -/
def State.cyclesThenSlots (s : State) (c k : Nat) : List Word :=
  (List.replicate c s.cycleWords).flatten ++ ((allSlots s.cfg.shadeCount).take k).flatMap s.slotWords

theorem length_allSlots (n : Nat) : (allSlots n).length = 8 * n := by
  simp [allSlots, Nat.mul_comm]

theorem State.cyclesThenSlots_full (s : State) (c : Nat) :
    s.cyclesThenSlots c (8 * s.cfg.shadeCount) = s.cyclesThenSlots (c + 1) 0 := by
  rw [State.cyclesThenSlots, List.take_of_length_le (length_allSlots _).le, State.cyclesThenSlots, List.replicate_succ',
    List.flatten_concat]
  simp [State.cycleWords]

theorem State.cyclesThenSlots_succ (s : State) (c : Nat) {sl : Slot} (h : sl.shade < s.cfg.shadeCount) :
    s.cyclesThenSlots c (sl.idx + 1) = s.cyclesThenSlots c sl.idx ++ s.slotWords sl := by
  rw [State.cyclesThenSlots, List.take_add_one, getElem?_allSlots h, State.cyclesThenSlots]
  simp

/-- Whole cycles and some slots of the next are the first words of one cycle more. -/
theorem State.exists_take_cycles (s : State) (c k : Nat) :
    ∃ j, s.cyclesThenSlots c k = ((List.replicate (c + 1) s.cycleWords).flatten).take j := by
  have hpre : s.cyclesThenSlots c k <+: (List.replicate (c + 1) s.cycleWords).flatten := by
    refine ⟨((allSlots s.cfg.shadeCount).drop k).flatMap s.slotWords, ?_⟩
    rw [State.cyclesThenSlots, List.append_assoc, ← List.flatMap_append, List.take_append_drop, List.replicate_succ',
      List.flatten_concat]
    rfl
  exact ⟨_, List.prefix_iff_eq_take.1 hpre⟩

theorem State.SameSlots.slotWords (h : s.SameSlots t) (sl : Slot) : t.slotWords sl = s.slotWords sl := by
  simp only [State.slotWords, State.sbAt, h.sb, h.cfg]

theorem State.SameSlots.trans (h : s.SameSlots t) (h' : t.SameSlots u) : s.SameSlots u :=
  ⟨h'.cfg.trans h.cfg, h'.sb.trans h.sb, h'.inflight.trans h.inflight, h'.lockLength.trans h.lockLength⟩

/-- R141: `v` has the slots of `s`, and since the stream of `s` whole cycles and then the slots latched so far have been
pushed or are owed. -/
def State.StreamsCycles (s v : State) : Prop :=
  s.SameSlots v ∧ ∃ c, v.pushedOrOwed = s.stream ++ s.cyclesThenSlots c v.latched

theorem State.StreamsCycles.start (hphase : s.schPhase = .fetch) (hS : s.schS = 0) (hR : s.schR = 0) :
    s.StreamsCycles s := by
  have hzero : s.latched = 0 := by simp [State.latched_of_ne_emit, hphase, hS, hR]
  refine ⟨.refl s, 0, ?_⟩
  rw [State.pushedOrOwed, State.owed_of_ne_emit (by simp [hphase]), hzero]
  simp [State.cyclesThenSlots]

/-- R141: a FETCH adds the words of the next slot, and after the last slot a new cycle begins. -/
theorem State.StreamsCycles.moveStep (h : s.StreamsCycles t) {m : Move} (hm : Machine.moveStep m t = .next u)
    (hi : t.Inv) (hnone : t.inflightAt t.schSlot = none) (hsame : t.SameSlots u) : s.StreamsCycles u := by
  obtain ⟨hst, c, hc⟩ := h
  refine ⟨hst.trans hsame, ?_⟩
  rcases hi.streaming_moveStep hm hnone with ⟨hkept, hlatched | ⟨hfull, hzero⟩⟩ | ⟨hadded, hidx, hsucc⟩
  · exact ⟨c, by rw [hkept, hlatched, hc]⟩
  · exact ⟨c + 1, by rw [hkept, hzero, hc, hfull, hst.cfg, State.cyclesThenSlots_full]⟩
  · have hlt : t.schSlot.shade < s.cfg.shadeCount := hst.cfg ▸ hi.scheduler.1
    refine ⟨c, ?_⟩
    rw [hadded, hsucc, hidx, State.cyclesThenSlots_succ s c hlt, hc, hidx, hst.slotWords, List.append_assoc]

/-- Settles O52: the run streams cycles from its start on. -/
theorem cycleIsStreamed : Obligations.CycleIsStreamed := by
  intro s ms t hi hphase hS hR hquiet hrun
  obtain ⟨-, c, hwords⟩ := quietRun_induction (P := s.StreamsCycles)
    (fun _ _ _ hv hm hvi hnone hsame => hv.moveStep hm hvi (hnone _) hsame) hi (.start hphase hS hR) hquiet hrun
  obtain ⟨k, hk⟩ := s.exists_take_cycles c t.latched
  exact ⟨c + 1, k, by rw [← hk]; exact hwords⟩

/-! ## Propagation (R236) -/

/-- The words of a slot are its value under each pass mask. -/
theorem State.mem_slotWords {sl : Slot} {w : Word} (h : w ∈ s.slotWords sl) :
    ∃ (p : Fin 3) (v : Word), s.sbAt sl = some v ∧ w = v ||| s.cfg.passMask.get p := by
  unfold State.slotWords at h
  split at h
  · next v hv =>
    obtain ⟨m, hm, rfl⟩ := List.mem_map.1 h
    obtain ⟨p, hp, rfl⟩ := Vector.mem_iff_getElem.1 (Vector.mem_toList_iff.1 hm)
    exact ⟨⟨p, hp⟩, v, hv, rfl⟩
  · cases h

/-- R236: the word is the encoded word of an existing slot under a pass mask. -/
def State.FreshWord (s : State) (w : Word) : Prop :=
  ∃ (sl : Slot) (p : Fin 3) (v : Word), sl.shade < s.cfg.shadeCount ∧ s.encoded sl = some v ∧
    w = v ||| s.cfg.passMask.get p

theorem State.Consistent.freshWord (hc : s.Consistent) {sl : Slot} (hlt : sl.shade < s.cfg.shadeCount) {w : Word}
    (h : w ∈ s.slotWords sl) : s.FreshWord w := by
  obtain ⟨p, v, hv, hw⟩ := State.mem_slotWords h
  exact ⟨sl, p, v, hlt, (hc sl hlt).2 ▸ hv, hw⟩

/-- R236: `v` has the slots of `s`, and what has been pushed or is owed beyond that of `s` are fresh words. -/
def State.StreamsFresh (s v : State) : Prop :=
  s.SameSlots v ∧ ∃ fresh, v.pushedOrOwed = s.pushedOrOwed ++ fresh ∧ ∀ w ∈ fresh, s.FreshWord w

theorem State.StreamsFresh.moveStep (hcons : s.Consistent) (h : s.StreamsFresh t) {m : Move}
    (hm : Machine.moveStep m t = .next u) (hi : t.Inv) (hnone : t.inflightAt t.schSlot = none)
    (hsame : t.SameSlots u) : s.StreamsFresh u := by
  obtain ⟨hst, fresh, hwords, hfresh⟩ := h
  refine ⟨hst.trans hsame, ?_⟩
  rcases hi.streaming_moveStep hm hnone with ⟨hkept, -⟩ | ⟨hadded, -, -⟩
  · exact ⟨fresh, hkept.trans hwords, hfresh⟩
  · have hlt : t.schSlot.shade < s.cfg.shadeCount := hst.cfg ▸ hi.scheduler.1
    refine ⟨fresh ++ s.slotWords t.schSlot, by rw [hadded, hwords, hst.slotWords, List.append_assoc], ?_⟩
    exact List.forall_mem_append.2 ⟨hfresh, fun _ => hcons.freshWord hlt⟩

/-- Settles O56: what is queued or owed is bounded, and each later FETCH adds the words of a slot of the store. -/
theorem propagationDelay : Obligations.PropagationDelay := by
  intro s ms t hi hcons hquiet hrun
  obtain ⟨-, hfresh⟩ := quietRun_induction (P := s.StreamsFresh)
    (fun _ _ _ hv hm hvi hnone hsame => hv.moveStep hcons hm hvi (hnone _) hsame) hi
    ⟨.refl s, [], (List.append_nil _).symm, List.forall_mem_nil _⟩ hquiet hrun
  refine ⟨?_, hfresh⟩
  rw [List.length_append]
  exact Nat.add_le_add hi.queue.1 s.length_owed_le

end Sys2Proof.Machine

/-! Settles the statements of R57 to R60 and R142 to R146: reads of the shade store, slot and lock events, and the
scheduler's three steps. -/

namespace Sys2Proof.Machine

variable {s t : State}

/-! ## Reads and events of the shade store -/

/-- Settles O46: the two cases of a read. -/
theorem readsOfTheStore : Obligations.ReadsOfTheStore := fun _ _ mask _ hv =>
  ⟨fun hnone => (State.readSb_committed hnone mask).trans hv, fun _ hrec => State.readSb_torn hrec hv mask⟩

/-- R59: whichever event is enabled in RESPOND, some pick takes it. -/
theorem State.Inv.exists_pick_event (hi : s.Inv) (hphase : s.exPhase = .respond) {e : SlotEvent}
    (hmem : e ∈ s.slotEvents) : ∃ pick t, executorStep pick s = .next t ∧ s.runEvent e = some t := by
  obtain ⟨pick, hpick⟩ := State.exists_pick hmem
  obtain ⟨t, ht⟩ := hi.exists_runEvent hmem
  exact ⟨pick, t, by simp only [executorStep, hphase, State.respondStep, hpick, ht], ht⟩

/-- R60: taking a lock that exists makes it HELD and touches no other. -/
theorem State.acquireLock_spec {h : Nat} (hlt : h < s.lock.length) :
    (s.acquireLock h).lockHeld h = true ∧ (∀ x, x ≠ h → (s.acquireLock h).lockHeld x = s.lockHeld x) ∧
      s.acquireLock h = { s with lock := (s.acquireLock h).lock } :=
  ⟨by simp [hlt], fun x hx => by simp [Ne.symm hx], rfl⟩

/-- R60: giving a lock back makes it FREE and touches no other. -/
theorem State.releaseLock_spec (s : State) (h : Nat) :
    (s.releaseLock h).lockHeld h = false ∧ (∀ x, x ≠ h → (s.releaseLock h).lockHeld x = s.lockHeld x) ∧
      s.releaseLock h = { s with lock := (s.releaseLock h).lock } :=
  ⟨by simp, fun x hx => by simp [Ne.symm hx], rfl⟩

/-- Settles O47: each event is enabled, so that some pick takes it, and its effect is that of the operation. -/
theorem slotWriteEvents : Obligations.SlotWriteEvents := by
  refine fun s hi hphase => ⟨fun sl hsl hlock => ?_, fun sl rec hrec => ?_, fun h hlock hfree hpend => ?_,
    fun h hlock hheld hpend hnone => ?_⟩
  · obtain ⟨pick, t, hstep, hrun⟩ := hi.exists_pick_event hphase (e := .beginSlot sl)
      (State.mem_slotEvents.2 (State.mem_beginnable.2 ⟨hsl, hlock⟩))
    obtain ⟨old, new, hold, hnew, hinf, hmem, ht⟩ := State.beginWrite_spec hi.sized hrun
    exact ⟨pick, t, old, new, hstep, hold, hnew, (hinf sl).trans (if_pos rfl),
      fun x hx => (hinf x).trans (if_neg (Ne.symm hx)), hmem, ht⟩
  · obtain ⟨pick, t, hstep, hrun⟩ := hi.exists_pick_event hphase (e := .endSlot sl)
      (State.mem_slotEvents.2 (State.mem_inflightSlots.2
        ⟨State.shade_lt_of_inflight hi.sized hrec, Option.isSome_iff_exists.2 ⟨rec, hrec⟩⟩))
    obtain ⟨rec', hrec', hsb, hinf, ht⟩ := State.endWrite_spec hi.sized hrun
    cases hrec.symm.trans hrec'
    exact ⟨pick, t, hstep, (hsb sl).trans (if_pos rfl), (hinf sl).trans (if_pos rfl),
      fun x hx => ⟨(hsb x).trans (if_neg (Ne.symm hx)), (hinf x).trans (if_neg (Ne.symm hx))⟩, ht⟩
  · obtain ⟨sl, hsl, rfl⟩ := hpend
    have hlt := (hi.pending.2 sl hsl).1
    obtain ⟨pick, t, hstep, hrun⟩ := hi.exists_pick_event hphase (e := .acquire sl.shade)
      (State.mem_slotEvents.2 (State.mem_acquirable.2
        ⟨hlock, hlt, hfree, State.pendingIn_eq_true.2 ⟨sl, hsl, rfl⟩⟩))
    cases hrun
    exact ⟨pick, _, hstep, State.acquireLock_spec (hi.sized.length_lock hlock ▸ hlt)⟩
  · obtain ⟨pick, t, hstep, hrun⟩ := hi.exists_pick_event hphase (e := .release h)
      (State.mem_slotEvents.2 (State.mem_releasable.2
        ⟨hlock, hi.sized.length_lock hlock ▸ State.lock_lt_of_lockHeld hheld, hheld,
          State.pendingIn_eq_false.2 hpend, (State.inflightIn_eq_false hi.sized).2 hnone⟩))
    cases hrun
    exact ⟨pick, _, hstep, s.releaseLock_spec h⟩

/-! ## FETCH and the lock -/

/-- R142: FETCH waits exactly for the lock of its shade. -/
theorem State.fetchEnabled_iff :
    s.fetchEnabled = true ↔ (s.cfg.shadeLock = true → s.lockHeld s.schS.toNat = false) := by
  unfold State.fetchEnabled
  cases s.cfg.shadeLock <;> simp

theorem schedulerStep_of_locked {mask : Word} {stay : Bool} (hphase : s.schPhase = .fetch)
    (hlock : s.cfg.shadeLock = true) (hheld : s.lockHeld s.schS.toNat = true) :
    schedulerStep mask stay s = .next s := by
  rw [schedulerStep_of_fetch hphase]
  exact State.fetchStep_of_waiting (by simp [State.fetchEnabled, hlock, hheld])

/-- Settles O49: the read of the scheduler's slot gives a value, and FETCH latches it unless it waits. -/
theorem fetchLatchesSlot : Obligations.FetchLatchesSlot := by
  intro s mask stay hi hphase
  refine ⟨fun hfree => ?_, schedulerStep_of_locked hphase⟩
  obtain ⟨v, hv⟩ := State.sbAt_of_lt (sl := s.schSlot) hi.sized hi.scheduler.1
  obtain ⟨w, hw⟩ := State.exists_readSb hv mask
  exact ⟨w, hw, (schedulerStep_of_fetch hphase).trans
    (State.fetchStep_of_some (State.fetchEnabled_iff.2 hfree) hw)⟩

/-- R60: the executor changes a lock only by taking it or giving it back, in RESPOND. -/
theorem State.Inv.lockHeld_executorStep (hi : s.Inv) (hlock : s.cfg.shadeLock = true) {pick h : Nat}
    (hstep : executorStep pick s = .next t) (hne : t.lockHeld h ≠ s.lockHeld h) :
    s.exPhase = .respond ∧ (t.lockHeld h = true → SlotEvent.acquire h ∈ s.slotEvents) ∧
      (t.lockHeld h = false → SlotEvent.release h ∈ s.slotEvents) := by
  rcases (executorStep_case hstep).store_cases with hsame | ⟨hphase, e, hmem, hrun⟩
  · exact absurd (hsame.lockHeld h) hne
  · refine ⟨hphase, ?_⟩
    cases e with
    | acquire shade =>
      cases hrun
      obtain ⟨-, hlt, -, -⟩ := State.mem_acquirable.1 (State.mem_slotEvents.1 hmem)
      obtain ⟨hheld, hother, -⟩ := State.acquireLock_spec (hi.sized.length_lock hlock ▸ hlt)
      obtain rfl : h = shade := by_contra fun hh => hne (hother h hh)
      exact ⟨fun _ => hmem, fun hfree => Bool.noConfusion (hheld.symm.trans hfree)⟩
    | beginSlot sl =>
      obtain ⟨old, new, -, -, rfl⟩ := State.beginWrite_eq_some.1 hrun
      exact absurd rfl hne
    | endSlot sl =>
      obtain ⟨rec, -, rfl⟩ := State.endWrite_eq_some.1 hrun
      exact absurd rfl hne
    | release shade =>
      cases hrun
      obtain ⟨hfree, hother, -⟩ := s.releaseLock_spec shade
      obtain rfl : h = shade := by_contra fun hh => hne (hother h hh)
      exact ⟨fun hheld => Bool.noConfusion (hfree.symm.trans hheld), fun _ => hmem⟩

/-- R60: a FETCH of a shade that is FREE meets no write in flight. -/
theorem State.Inv.fetch_committed (hi : s.Inv) (hlock : s.cfg.shadeLock = true) {mask : Word} {stay : Bool}
    (hphase : s.schPhase = .fetch) (hfree : s.lockHeld s.schS.toNat = false)
    (h : schedulerStep mask stay s = .next t) : s.sbAt s.schSlot = some t.schW := by
  have hnone : s.inflightAt s.schSlot = none := by
    by_contra hne
    have hheld : s.lockHeld s.schS.toNat = true := hi.locks hlock s.schSlot (Option.isSome_iff_ne_none.2 hne)
    rw [hfree] at hheld
    cases hheld
  rw [schedulerStep_of_fetch hphase] at h
  rcases State.fetchStep_cases h with ⟨hdisabled, -⟩ | ⟨w, -, hread, rfl⟩
  · rw [State.fetchEnabled_iff.2 fun _ => hfree] at hdisabled
    cases hdisabled
  · rw [← State.readSb_committed hnone mask, hread]

/-- Settles O48: what makes an event enabled, and the invariant that a write in flight holds its lock. -/
theorem lockExcludesTearing : Obligations.LockExcludesTearing := by
  intro s hi hlock
  refine ⟨fun mask stay hphase hheld => schedulerStep_of_locked hphase hlock hheld, fun sl hmem => ?_,
    fun h hmem => ?_, fun h hmem => ?_, fun pick t h hstep hne => hi.lockHeld_executorStep hlock hstep hne,
    fun mask stay t hphase hfree h => hi.fetch_committed hlock hphase hfree h⟩
  · exact (State.mem_beginnable.1 (State.mem_slotEvents.1 hmem)).2 hlock
  · obtain ⟨-, hlt, hfree, hpend⟩ := State.mem_acquirable.1 (State.mem_slotEvents.1 hmem)
    obtain ⟨hheld, -, hframe⟩ := State.acquireLock_spec (hi.sized.length_lock hlock ▸ hlt)
    exact ⟨hfree, State.pendingIn_eq_true.1 hpend, _, rfl, hheld, hframe⟩
  · obtain ⟨-, -, -, hpend, hnone⟩ := State.mem_releasable.1 (State.mem_slotEvents.1 hmem)
    obtain ⟨hfree, -, hframe⟩ := s.releaseLock_spec h
    exact ⟨State.pendingIn_eq_false.1 hpend, (State.inflightIn_eq_false hi.sized).1 hnone, _, rfl, hfree, hframe⟩

/-! ## EMIT and GAP -/

theorem State.passMaskAt_of_val {p : Fin 3} (h : s.schP.toNat = p.val) :
    s.passMaskAt s.schP = some (s.cfg.passMask.get p) := by
  have hp : (⟨s.schP.toNat, h ▸ p.isLt⟩ : Fin 3) = p := Fin.ext h
  rw [State.passMaskAt, dif_pos (h ▸ p.isLt), hp]

theorem State.advance_of_pass (h : s.schP.toNat < 2) : s.advance = { s with schP := s.schP + 1 } := if_pos h

theorem State.advance_of_row (hp : ¬ s.schP.toNat < 2) (h : s.schR.toNat < 7) :
    s.advance = { s with schP := 0, schR := s.schR + 1, schPhase := .fetch } := by
  rw [State.advance, if_neg hp, if_pos h]

theorem State.advance_of_shade (hp : ¬ s.schP.toNat < 2) (hr : ¬ s.schR.toNat < 7)
    (h : s.schS.toNat < s.cfg.shadeCount - 1) :
    s.advance = { s with schP := 0, schR := 0, schS := s.schS + 1, schPhase := .fetch } := by
  rw [State.advance, if_neg hp, if_neg hr, if_pos h]

theorem State.advance_of_last (hp : ¬ s.schP.toNat < 2) (hr : ¬ s.schR.toNat < 7)
    (h : ¬ s.schS.toNat < s.cfg.shadeCount - 1) :
    s.advance = { s with schP := 0, schR := 0, schS := 0, schPhase := .gap } := by
  rw [State.advance, if_neg hp, if_neg hr, if_neg h]

/-- Settles O50: the push, and the four branches of the advance. -/
theorem emitPushesAndAdvances : Obligations.EmitPushesAndAdvances := by
  intro s mask stay p hphase hp
  rw [schedulerStep_of_emit hphase]
  refine ⟨State.emitStep_of_full, fun hroom => ?_⟩
  have hemit := State.emitStep_of_room hroom (State.passMaskAt_of_val hp)
  refine ⟨_, hemit, State.advance_q _, State.advance_schW _, fun h2 => ?_, fun h2 hr => ?_, fun h2 hr hs hN => ?_,
    fun h2 hr hs => ?_⟩
  · rw [State.advance_of_pass (s := s.enqueue _) (show s.schP.toNat < 2 by omega)]
    exact ⟨hp ▸ toNat_add_one (x := s.schP) (by omega), rfl, rfl, hphase⟩
  · rw [State.advance_of_row (s := s.enqueue _) (show ¬ s.schP.toNat < 2 by omega) hr]
    exact ⟨rfl, toNat_add_one (x := s.schR) (by omega), rfl, rfl⟩
  · rw [State.advance_of_shade (s := s.enqueue _) (show ¬ s.schP.toNat < 2 by omega) (show ¬ s.schR.toNat < 7 by omega)
      (show s.schS.toNat < s.cfg.shadeCount - 1 by omega)]
    exact ⟨rfl, rfl, toNat_add_one (x := s.schS) (by omega), rfl⟩
  · rw [State.advance_of_last (s := s.enqueue _) (show ¬ s.schP.toNat < 2 by omega) (show ¬ s.schR.toNat < 7 by omega)
      (show ¬ s.schS.toNat < s.cfg.shadeCount - 1 by omega)]
    exact ⟨rfl, rfl, rfl, rfl⟩

/-- Settles O51: the two draws of a GAP step. -/
theorem gapStaysOrLeaves : Obligations.GapStaysOrLeaves := fun _ _ hphase =>
  ⟨schedulerStep_of_gap hphase, schedulerStep_of_gap hphase⟩

/-! ## What the scheduler reads (R146) -/

/-- The state with other values of PB, ROT_K, THRESH and ROT_MAP. -/
def State.withPixelStore (s : State) (pb : Image) (k : BitVec 2) (th : List Chan) (rm : Vector RotPage 4) : State :=
  { s with pb := pb, rotK := k, thresh := th, rotMap := rm }

section
variable (s : State) (pb : Image) (k : BitVec 2) (th : List Chan) (rm : Vector RotPage 4)

/-- R144: the advance reads the scheduler's counters and SHADE_COUNT only. -/
theorem State.advance_withPixelStore :
    (s.withPixelStore pb k th rm).advance = s.advance.withPixelStore pb k th rm := by
  by_cases hp : s.schP.toNat < 2
  · rw [State.advance_of_pass hp, State.advance_of_pass (s := s.withPixelStore pb k th rm) hp]
    rfl
  · by_cases hr : s.schR.toNat < 7
    · rw [State.advance_of_row hp hr, State.advance_of_row (s := s.withPixelStore pb k th rm) hp hr]
      rfl
    · by_cases hs : s.schS.toNat < s.cfg.shadeCount - 1
      · rw [State.advance_of_shade hp hr hs, State.advance_of_shade (s := s.withPixelStore pb k th rm) hp hr hs]
        rfl
      · rw [State.advance_of_last hp hr hs, State.advance_of_last (s := s.withPixelStore pb k th rm) hp hr hs]
        rfl

end

/-- Settles O57: the scheduler's three steps, branch by branch. -/
theorem schedulerIgnoresPixelStore : Obligations.SchedulerIgnoresPixelStore := by
  intro s mask stay pb k th rm
  change schedulerStep mask stay (s.withPixelStore pb k th rm) = _
  cases hphase : s.schPhase with
  | fetch =>
    rw [schedulerStep_of_fetch hphase, schedulerStep_of_fetch (s := s.withPixelStore pb k th rm) hphase]
    cases henabled : s.fetchEnabled with
    | false =>
      rw [State.fetchStep_of_waiting henabled, State.fetchStep_of_waiting (s := s.withPixelStore pb k th rm) henabled]
      rfl
    | true =>
      cases hread : s.readSb s.schSlot mask with
      | none =>
        rw [State.fetchStep_of_none henabled hread,
          State.fetchStep_of_none (s := s.withPixelStore pb k th rm) henabled hread]
      | some w =>
        rw [State.fetchStep_of_some henabled hread,
          State.fetchStep_of_some (s := s.withPixelStore pb k th rm) henabled hread]
        rfl
  | emit =>
    rw [schedulerStep_of_emit hphase, schedulerStep_of_emit (s := s.withPixelStore pb k th rm) hphase]
    rcases Nat.lt_or_ge s.q.length s.cfg.queueDepth with hroom | hfull
    · cases hm : s.passMaskAt s.schP with
      | none =>
        rw [State.emitStep_of_noPass hroom hm, State.emitStep_of_noPass (s := s.withPixelStore pb k th rm) hroom hm]
      | some m =>
        rw [State.emitStep_of_room hroom hm, State.emitStep_of_room (s := s.withPixelStore pb k th rm) hroom hm]
        exact congrArg Host.Outcome.next (State.advance_withPixelStore (s.enqueue (s.schW ||| m)) pb k th rm)
    · rw [State.emitStep_of_full hfull, State.emitStep_of_full (s := s.withPixelStore pb k th rm) hfull]
      rfl
  | gap =>
    rw [schedulerStep_of_gap hphase, schedulerStep_of_gap (s := s.withPixelStore pb k th rm) hphase]
    cases stay <;> rfl

end Sys2Proof.Machine

/-! Settles the statements about APPLY: what exec does for each command (R172 to R178, R202, R203), the checks of R206,
and that a step runs the decoded command (R170). -/

namespace Sys2Proof.Machine

variable {s t : State}

/-! ## exec of each command -/

/-- Settles O31: the write set is every slot. -/
theorem setpixelsApplies : Obligations.SetpixelsApplies := fun s _ =>
  ⟨s.fullWriteSet, rfl, allSlots_nodup _, mem_allSlots _⟩

/-- Settles O32: the results are the pixels, in order. -/
theorem getpixelsApplies : Obligations.GetpixelsApplies := fun s =>
  ⟨s.pb.toList.map pixelResult, rfl, by simp, fun j => by simp [pixelResult, Vector.get_eq_getElem]⟩

/-- R51: the cell of a row and a column, by its number. -/
theorem cell_val_eq_iff (y x : Fin 8) (j : Fin 64) : (cell y x).val = j.val ↔ j.val = 8 * y.val + x.val := by
  rw [cell_val, eq_comm]

/-- Settles O33: the pixel store changes at one cell, and the write set is one display row. -/
theorem setpixelApplies : Obligations.SetpixelApplies := by
  refine fun s x y c => ⟨s.pb.set (cell y x) c, s.pixelWriteSet x y, exec_setpixel_of_lt s x y c, fun j => ?_,
    rowSlots_nodup _ _, fun sl => ?_⟩
  · simp only [Vector.get_eq_getElem, Vector.getElem_set, cell_val_eq_iff]
  · rw [State.pixelWriteSet, mem_rowSlots, Fin.ext_iff]
    rfl

/-- Settles O34: the cell of the two coordinates. -/
theorem getpixelApplies : Obligations.GetpixelApplies := exec_getpixel_of_lt

/-- R110: the four valid angles. -/
theorem anglePage_quarters (k : Fin 4) : anglePage (90 * k.val) = some (BitVec.ofNat 2 k.val) := by
  revert k
  decide

/-- Settles O35: the angle is valid, and the write set is every slot. -/
theorem setrotApplies : Obligations.SetrotApplies := fun s k =>
  ⟨s.fullWriteSet, exec_setrot_of_some s (anglePage_quarters k), allSlots_nodup _, mem_allSlots _⟩

/-- Settles O36: the angle is valid. -/
theorem setrotnrApplies : Obligations.SetrotnrApplies := fun s k => exec_setrotnr_of_some s (anglePage_quarters k)

/-- Settles O37: the angle that ROT_K holds. -/
theorem getrotApplies : Obligations.GetrotApplies := fun _ => rfl

/-- Settles O38: one of the coordinates names no cell. -/
theorem boundsErrorChangesNothing : Obligations.BoundsErrorChangesNothing := fun s _ _ c h =>
  ⟨exec_setpixel_of_ge s c h, exec_getpixel_of_ge s h⟩

/-- Settles O39: the angle has no page. -/
theorem invalidRotationChangesNothing : Obligations.InvalidRotationChangesNothing := fun s _ h0 h90 h180 h270 =>
  exec_rotation_of_none s (anglePage_eq_none h0 h90 h180 h270)

/-! ## The completion code of a command (R202, R203, R206) -/

/-- The code a command completes with, told by its operands. -/
def completionCode : Instr → Code
  | .setpixel x y _ | .getpixel x y => if 8 ≤ x ∨ 8 ≤ y then .boundsError else .ok
  | .setrot a | .setrotnr a => if anglePage a = none then .invalidRotation else .ok
  | .setpixels _ | .getpixels | .getrot => .ok

/-- What exec answers when a command completes with a code: the error raised (R205), or the command's writes and what it
owes, in RESPOND (R170). -/
def ExecAnswers (i : Instr) (s : State) (c : Code) : Prop :=
  if c = .ok then ∃ pb rotK pend res, exec i s = .next ({ s with pb := pb, rotK := rotK }.finishApply pend res)
  else exec i s = .next (s.raiseError c)

theorem ExecAnswers.of_next {i : Instr} {pb : Image} {rotK : BitVec 2} {pend : List Slot} {res : List Word}
    (h : exec i s = .next ({ s with pb := pb, rotK := rotK }.finishApply pend res)) : ExecAnswers i s .ok :=
  ⟨pb, rotK, pend, res, h⟩

/-- R170, R205: exec answers by the completion code. -/
theorem execAnswers_completionCode (i : Instr) (s : State) : ExecAnswers i s (completionCode i) := by
  have coords {x y : Nat} (h : ¬ (8 ≤ x ∨ 8 ≤ y)) : x < 8 ∧ y < 8 := by omega
  cases i with
  | setpixels img => exact .of_next (rotK := s.rotK) rfl
  | getpixels => exact .of_next (pb := s.pb) (rotK := s.rotK) rfl
  | setpixel x y c =>
    rw [completionCode]
    split
    · next h => exact exec_setpixel_of_ge s c h
    · next h =>
      obtain ⟨hx, hy⟩ := coords h
      exact .of_next (rotK := s.rotK) (exec_setpixel_of_lt s ⟨x, hx⟩ ⟨y, hy⟩ c)
  | getpixel x y =>
    rw [completionCode]
    split
    · next h => exact exec_getpixel_of_ge s h
    · next h =>
      obtain ⟨hx, hy⟩ := coords h
      exact .of_next (pb := s.pb) (rotK := s.rotK) (exec_getpixel_of_lt s ⟨x, hx⟩ ⟨y, hy⟩)
  | setrot a =>
    rw [completionCode]
    split
    · next h => exact (exec_rotation_of_none s h).1
    · next h =>
      obtain ⟨k, hk⟩ := Option.ne_none_iff_exists'.1 h
      exact .of_next (pb := s.pb) (exec_setrot_of_some s hk)
  | setrotnr a =>
    rw [completionCode]
    split
    · next h => exact (exec_rotation_of_none s h).2
    · next h =>
      obtain ⟨k, hk⟩ := Option.ne_none_iff_exists'.1 h
      exact .of_next (pb := s.pb) (exec_setrotnr_of_some s hk)
  | getrot => exact .of_next (pb := s.pb) (rotK := s.rotK) rfl

/-! ## The checks of a header (R206) -/

theorem checkHeader_of_illegalHeader {hdr : Word} (h : IllegalHeader hdr) : checkHeader hdr = .illegalCommand := by
  unfold checkHeader
  cases hrow : opRow (opField hdr) with
  | none => rfl
  | some row => exact if_pos fun hmask => (mask_iff_not_illegalHeader hrow).1 hmask h

/-- R206: past the check for an IllegalCommand come those of the coordinates and of the angle. -/
theorem checkHeader_of_not_illegalHeader {hdr : Word} (h : ¬ IllegalHeader hdr) : checkHeader hdr =
    if (opField hdr = 3 ∨ opField hdr = 4) ∧ ((xField hdr).toNat ≥ 8 ∨ (yField hdr).toNat ≥ 8) then .boundsError
    else if (opField hdr = 5 ∨ opField hdr = 6) ∧ anglePage (angField hdr).toNat = none then .invalidRotation
    else .ok := by
  unfold checkHeader
  cases hrow : opRow (opField hdr) with
  | none => exact absurd (illegalHeader_of_unassigned hrow) h
  | some row => exact if_neg (not_not_intro ((mask_iff_not_illegalHeader hrow).2 h))

/-- R206: the checks give the code that the decoded command completes with. -/
theorem checkHeader_eq_completionCode {hdr : Word} {data : Vector Word 64} {i : Instr}
    (h : decodeCommand hdr data = .ok i) : checkHeader hdr = completionCode i := by
  have hlegal : ¬ IllegalHeader hdr := fun hill => by
    obtain ⟨e, he⟩ := decodeCommand_of_illegalHeader hill data
    cases h.symm.trans he
  rw [checkHeader_of_not_illegalHeader hlegal]
  cases hrow : opRow (opField hdr) with
  | none => exact absurd (illegalHeader_of_unassigned hrow) hlegal
  | some row =>
    rw [decodeCommand_eq_buildInstr hlegal, buildInstr] at h
    obtain ⟨hmem, hop⟩ := opRow_eq_some hrow
    rw [← hop] at h ⊢
    simp only [opRows, List.mem_cons, List.not_mem_nil, or_false] at hmem
    rcases hmem with rfl | rfl | rfl | rfl | rfl | rfl | rfl <;> cases h <;> simp [completionCode]

theorem State.applyStep_of_legal (h : ¬ IllegalHeader s.exHdr) :
    ∃ i, decodeCommand s.exHdr s.exData = .ok i ∧ s.applyStep = exec i s ∧ ExecAnswers i s (checkHeader s.exHdr) := by
  obtain ⟨i, hi⟩ := decodeCommand_of_not_illegalHeader h s.exData
  refine ⟨i, hi, State.applyStep_of_ok hi, ?_⟩
  rw [checkHeader_eq_completionCode hi]
  exact execAnswers_completionCode i s

/-- R205, R206: a failing check is the error that APPLY raises. -/
theorem State.applyStep_of_check {c : Code} (hc : c ≠ .ok) (h : checkHeader s.exHdr = c) :
    s.applyStep = .next (s.raiseError c) := by
  by_cases hill : IllegalHeader s.exHdr
  · rw [← h, checkHeader_of_illegalHeader hill]
    exact State.applyStep_of_illegalHeader hill
  · obtain ⟨i, -, happly, hanswers⟩ := State.applyStep_of_legal hill
    rw [ExecAnswers, h, if_neg hc] at hanswers
    rw [happly, hanswers]

/-- R170, R206: when no check fails the command goes on to RESPOND. -/
theorem State.applyStep_of_check_ok (h : checkHeader s.exHdr = .ok) :
    ∃ i pb rotK pend res, decodeCommand s.exHdr s.exData = .ok i ∧ s.applyStep = exec i s ∧
      exec i s = .next ({ s with pb := pb, rotK := rotK }.finishApply pend res) := by
  have hlegal : ¬ IllegalHeader s.exHdr := fun hill => by
    rw [checkHeader_of_illegalHeader hill] at h
    cases h
  obtain ⟨i, hdec, happly, hanswers⟩ := State.applyStep_of_legal hlegal
  rw [h] at hanswers
  obtain ⟨pb, rotK, pend, res, hexec⟩ := hanswers
  exact ⟨i, pb, rotK, pend, res, hdec, happly, hexec⟩

/-- Settles O28: the checks give the completion code, and exec answers by it. -/
theorem checkFunctionDecides : Obligations.CheckFunctionDecides := by
  refine fun s => ⟨fun hc => State.applyStep_of_check hc rfl, fun h => ?_⟩
  obtain ⟨i, pb, rotK, pend, res, hdec, -, hexec⟩ := State.applyStep_of_check_ok h
  exact ⟨i, _, hdec, hexec, rfl⟩

theorem anglePage_eq_none_iff {a : Nat} : anglePage a = none ↔ a ∉ [0, 90, 180, 270] := by
  simp [anglePage]

/-- Settles O27: the checks of R206, with their conditions written field by field. -/
theorem applyAnswersCheck : Obligations.ApplyAnswersCheck := by
  rintro s pick op bounds angle hphase rfl hbounds hangle
  have hstep : executorStep pick s = s.applyStep := by rw [executorStep, hphase]
  have hop (n : BitVec 4) : opField s.exHdr = n ↔ s.exHdr.toNat % 16 = n.toNat := by
    rw [← opField_toNat, BitVec.toNat_inj]
  have hb : bounds ↔ (opField s.exHdr = 3 ∨ opField s.exHdr = 4) ∧
      ((xField s.exHdr).toNat ≥ 8 ∨ (yField s.exHdr).toNat ≥ 8) := by
    rw [hbounds, hop, hop]
    rfl
  have ha : angle ↔ (opField s.exHdr = 5 ∨ opField s.exHdr = 6) ∧ anglePage (angField s.exHdr).toNat = none := by
    rw [hangle, hop, hop, anglePage_eq_none_iff]
    rfl
  rw [hstep]
  refine ⟨State.applyStep_of_illegalHeader, fun hlegal hfail => ?_, fun hlegal hfail => ?_, fun hlegal hnb hna => ?_⟩
  · refine State.applyStep_of_check (c := .boundsError) (by decide) ?_
    rw [checkHeader_of_not_illegalHeader hlegal, if_pos (hb.1 hfail)]
  · have hnb : ¬ bounds := fun hfail' => by
      obtain ⟨h5 | h6, -⟩ := hangle.1 hfail <;> obtain ⟨h34, -⟩ := hbounds.1 hfail' <;> omega
    refine State.applyStep_of_check (c := .invalidRotation) (by decide) ?_
    rw [checkHeader_of_not_illegalHeader hlegal, if_neg (mt hb.2 hnb), if_pos (ha.1 hfail)]
  · have hok : checkHeader s.exHdr = .ok := by
      rw [checkHeader_of_not_illegalHeader hlegal, if_neg (mt hb.2 hnb), if_neg (mt ha.2 hna)]
    obtain ⟨i, pb, rotK, pend, res, -, happly, hexec⟩ := State.applyStep_of_check_ok hok
    exact ⟨_, happly.trans hexec, rfl, rfl, rfl⟩

/-! ## The step that runs a command (R170) -/

/-- R85: what a stream begins with is decoded from its first word and the words after it. -/
theorem decodeCommand_of_decodeStream {hdr : Word} {ws rest : List Word} {i : Instr}
    (h : decodeStream (hdr :: ws) = .command i rest) : decodeCommand hdr (beatVector ws) = .ok i := by
  rcases Nat.lt_or_ge ws.length (beats (opField hdr)) with hlt | hge
  · rw [decodeStream_incomplete hlt] at h
    cases h
  · have hcons := decodeStream_cons hdr (ws.take (beats (opField hdr))) (ws.drop (beats (opField hdr)))
      (List.length_take_of_le hge)
    rw [List.take_append_drop, h] at hcons
    have hcongr : decodeCommand hdr (beatVector ws) =
        decodeCommand hdr (beatVector (ws.take (beats (opField hdr)))) := decodeCommand_congr fun k hk => by
      have h64 := hk.trans_le (beats_le _)
      rw [getElem?_beatVector h64 (hk.trans_le hge),
        getElem?_beatVector h64 (by rw [List.length_take_of_le hge]; exact hk), List.getElem?_take_of_lt hk]
    rw [hcongr]
    split at hcons
    · next j hj => cases hcons; exact hj
    · cases hcons

theorem decodeTableWord_eq_some {nbits w : Nat} {i : Instr} (h : decodeTableWord nbits w = some i) :
    ∃ rest, decodeStream (tableWords nbits w) = .command i rest := by
  unfold decodeTableWord at h
  split at h
  · next j rest hj => cases h; exact ⟨rest, hj⟩
  · cases h
  · cases h

/-- R170: in APPLY the executor's step runs the command that its header and beats decode to. -/
theorem step_eq_exec {i : Instr} {pick : Nat} (hc : s.cfg.admitted = true) (hmove : s.nextMove = .executor pick)
    (hphase : s.exPhase = .apply) (hdec : decodeCommand s.exHdr s.exData = .ok i) : step s = exec i s.afterDraw := by
  have hphase' : s.afterDraw.exPhase = .apply := s.afterDraw_exPhase.trans hphase
  have hdec' : decodeCommand s.afterDraw.exHdr s.afterDraw.exData = .ok i := by
    rw [State.afterDraw_exHdr, State.afterDraw_exData, hdec]
  rw [step_of_admitted hc, hmove, moveStep, executorStep, hphase']
  exact State.applyStep_of_ok hdec'

/-- Settles O26: what withFetchWord places are the header, the beats and the move of such a step. -/
theorem stepRunsDecodedCommand : Obligations.StepRunsDecodedCommand := by
  refine ⟨fun s i pick hc hmove hphase hdec => step_eq_exec hc hmove hphase hdec, fun s nbits w i hc hi => ?_⟩
  obtain ⟨rest, hstream⟩ := decodeTableWord_eq_some hi
  have hdec : decodeCommand (s.withFetchWord nbits w).exHdr (s.withFetchWord nbits w).exData = .ok i :=
    decodeCommand_of_decodeStream hstream
  have hmoves : (s.withFetchWord nbits w).moves = .executor 0 :: s.moves := rfl
  rw [step_eq_exec (s := s.withFetchWord nbits w) hc (State.nextMove_of_moves _ _ _ hmoves) rfl hdec,
    State.afterDraw_of_moves _ _ _ hmoves]

/-- Settles O30: both phases wait for a word. -/
theorem executorWaitsForHost : Obligations.ExecutorWaitsForHost := by
  rintro s pick hport (hphase | ⟨hphase, hcnt⟩)
  · simp only [executorStep, hphase, State.idleStep, hport]
  · simp only [executorStep, hphase, State.collectStep, if_pos hcnt, hport]

end Sys2Proof.Machine
